-- ==== Sys2Proof/Word.lean ====
section
/-! DEFINITION. The word types: a byte of memory, a 32-bit word (register, command word, bus data) and a binary32
pattern. Everything that computes with them stands in the files under Machine. -/

namespace Sys2Proof

/-- One byte of the PCM or sample memory (R27). -/
abbrev Byte := BitVec 8

/-- A 32-bit word: a register as the HOST sees it, a command word, a bus address or bus data (R24, R41, R60). -/
abbrev Word := BitVec 32

/-- The 32-bit pattern of an IEEE 754 binary32 value (R140). -/
abbrev F32 := BitVec 32

end Sys2Proof
end

