-- ==== Sys2Proof/Syntax.lean ====
section
/-! DEFINITION. The command set: one constructor per row of spec/opcode_table.json (30_encoding.md R63), and the events by
which the HOST acts on the core (20_memory.md R41). -/

namespace Sys2Proof

/-- A command (R63). Operands are the unsigned numbers of R62; `WellFormed` bounds them to their fields. -/
inductive Instr where
  /-- R80: do nothing. -/
  | nop
  /-- R81: clear the sticky flags. -/
  | clrerr
  /-- R82: load preset record `id` into the active preset; 0 is the "none" sentinel. -/
  | loadp (id : Nat)
  /-- R85: validate, compute the derived state, start a fresh call. -/
  | setup
  /-- R72: PCM bytes to the sample array. -/
  | decode
  /-- R74: sample array to PCM bytes. -/
  | encode
  /-- R75: sample word `idx` to `ACC`. -/
  | lds (idx : Nat)
  /-- R76: `ACC` to sample word `idx`. -/
  | sts (idx : Nat)
  /-- R92: waveshaper on `ACC`. -/
  | dist
  /-- R97: quantizer on `ACC`. -/
  | bcr
  /-- R107: one draw into `ACC`. -/
  | ndraw
  /-- R108: noise mix on `ACC`. -/
  | noise
  /-- R116: zero the filter state. -/
  | bqclr
  /-- R117: one filter step on `ACC`. -/
  | bq
  /-- R120: gain on `ACC`. -/
  | gain
  /-- R122: the whole chain on `ACC`. -/
  | chain
  /-- R125: one slot of the hold sequencer. -/
  | step
  /-- R126: the whole sample array. -/
  | run
  /-- R127: the whole call. -/
  | process
deriving DecidableEq, Repr

/-- The size of a bus transaction, `n` in {1, 2, 4} (R41). -/
inductive AccessSize where
  /-- 1 byte. -/
  | one
  /-- 2 bytes. -/
  | two
  /-- 4 bytes. -/
  | four
deriving DecidableEq, Repr

/-- An event of the HOST, the only ways it acts on the core (R41, R180). -/
inductive HostEvent where
  /-- `HostWrite(addr, n, v)`: the low `n` bytes of `data` are the data. -/
  | write (addr : Word) (size : AccessSize) (data : Word)
  /-- `HostRead(addr, n)`. -/
  | read (addr : Word) (size : AccessSize)
  /-- `Reset`. -/
  | reset
deriving DecidableEq, Repr

/-- The response that ends a transaction (R41). A read's response carries data. -/
inductive BusResponse where
  /-- `OK`; a read also returns its bytes, zero-extended. -/
  | ok (data : Option Word)
  /-- `BusError`: the transaction changed no state; a read's data is undefined (a free value, log 6). -/
  | busError (data : Option Word)
deriving DecidableEq, Repr

/-- The 24 registers of the register map, in offset order (R24). -/
inductive Reg where
  | cmd | status | ctrl | len | pcfg | pDrive | pNvol | pFreq | pQ | pGain | lfsr | acc | blk | idx | ph | hold | norm
  | a0 | a1 | a2 | b1 | b2 | z1 | z2
deriving DecidableEq, Repr

/-- What an allowed transaction reaches (R42, R45, R46): a register, a byte address of the PCM memory, or a byte address of
the sample memory. -/
inductive BusTarget where
  | reg (r : Reg)
  | pcm (a : Nat)
  | smp (a : Nat)
deriving DecidableEq, Repr

/-- The container bit widths that `OPTS` names (R67). -/
inductive ContainerWidth where
  | w8 | w16
deriving DecidableEq, Repr

/-- The sample rates that `OPTS` and `PSET` name, in Hz (R67). -/
inductive RateName where
  | hz8000 | hz11025 | hz22050 | hz44100
deriving DecidableEq, Repr

/-- The filter types that `PSET` names (R67). -/
inductive FilterName where
  | none | lowpass | highpass | bandpass | notch
deriving DecidableEq, Repr

/-- A line of the host script (R66) or a pseudo-instruction (R67), as a term and not as text (log 23). -/
inductive ScriptLine where
  /-- `WR <reg>, <v>`. -/
  | wr (r : Reg) (v : Word)
  /-- `RD <reg>`. -/
  | rd (r : Reg)
  /-- `WRB <a>, <v>`, `<v>` a 32-bit value as in every line, of which the low 8 bits are carried (log 23). -/
  | wrb (a : Nat) (v : Word)
  /-- `WRH <a>, <v>`, `<a>` even; the low 16 bits of `<v>` are carried (log 23). -/
  | wrh (a : Nat) (v : Word)
  /-- `RDB <a>`. -/
  | rdb (a : Nat)
  /-- `RDH <a>`. -/
  | rdh (a : Nat)
  /-- `WRS <i>, <v>`. -/
  | wrs (i : Nat) (v : Word)
  /-- `RDS <i>`. -/
  | rds (i : Nat)
  /-- `<MNEMONIC>`, `LOADP <id>`, `LDS <idx>`, `STS <idx>`; an operand beyond R66's bounds: log 24. -/
  | cmd (i : Instr)
  /-- `WRF <reg>, <decimal>`: the decimal as a sign and a quotient (log 22, log 25). -/
  | wrf (r : Reg) (neg : Bool) (num den : Nat)
  /-- `WRSF <i>, <decimal>`. -/
  | wrsf (i : Nat) (neg : Bool) (num den : Nat)
  /-- `FXNONE`. -/
  | fxnone
  /-- `OPTS width, rate, vol, noiseoff, en`, the last two 0 or 1 (log 25). -/
  | opts (width : ContainerWidth) (rate : RateName) (vol : Word) (noiseoff en : Bool)
  /-- `PSET bits, trate, nafter, ftype`, `nafter` 0 or 1 (log 25). -/
  | pset (bits : Word) (trate : RateName) (nafter : Bool) (ftype : FilterName)
  /-- `CALL len`. -/
  | call (len : Word)
deriving DecidableEq, Repr

end Sys2Proof
end

