-- ==== Sys2Proof/WellFormed.lean ====
section
/-! DEFINITION. Which commands have an encoding: the operand fits the field R61 and R62 give it. -/

namespace Sys2Proof

/-- `id` fits the 8-bit field of format P (R61, R62). -/
def idFits (id : Nat) : Bool := decide (id < 2 ^ 8)

/-- `idx` fits the 24-bit field of format X (R61, R62). -/
def idxFits (idx : Nat) : Bool := decide (idx < 2 ^ 24)

/-- A command that some command word encodes. A number above `N_PRESETS` or `SMP_WORDS` is well-formed: those are results
of execution, not of decoding (R64). -/
def Instr.wellFormed : Instr → Bool
  | .loadp id => idFits id
  | .lds idx => idxFits idx
  | .sts idx => idxFits idx
  | .nop | .clrerr | .setup | .decode | .encode | .dist | .bcr | .ndraw | .noise | .bqclr | .bq | .gain | .chain | .step
  | .run | .process => true

end Sys2Proof
end

