-- ==== Sys2Proof/Decode.lean ====
section
/-! DEFINITION. The decoder of command words, written from the match and mask columns of 30_encoding.md R63, total and
rejecting by name (R64); after it the encoder, written from the formats of R61. -/

namespace Sys2Proof

/-- Why a word is illegal (R64). -/
inductive DecodeError where
  /-- bits 7:0 are none of the 19 opcodes. -/
  | unusedOpcode (op : Nat)
  /-- the opcode is a command's, but bits its format fixes to 0 are set. -/
  | reservedBits (mnemonic : String)
deriving DecidableEq, Repr

/-- The operand `id = zext_8(CW[15:8])` of format P (R62). -/
def operandId (cw : Word) : Nat := (cw.extractLsb' 8 8).toNat

/-- The operand `idx = zext_24(CW[31:8])` of format X (R62). -/
def operandIdx (cw : Word) : Nat := (cw.extractLsb' 8 24).toNat

/-- A row of the opcode map (R63). -/
structure OpcodeRow where
  mnemonic : String
  matchBits : Word
  mask : Word
  /-- the command a selected word is. -/
  build : Word → Instr

/-- `CW & mask = match` (R63). -/
def OpcodeRow.selects (r : OpcodeRow) (cw : Word) : Bool := cw &&& r.mask == r.matchBits

/-- A row of format N: the whole word is fixed (R61). -/
def rowN (mnemonic : String) (op : Word) (i : Instr) : OpcodeRow := ⟨mnemonic, op, 0xFFFFFFFF, fun _ => i⟩

/-- A row of format P: bits 15:8 are the operand (R61). -/
def rowP (mnemonic : String) (op : Word) (f : Nat → Instr) : OpcodeRow :=
  ⟨mnemonic, op, 0xFFFF00FF, fun cw => f (operandId cw)⟩

/-- A row of format X: bits 31:8 are the operand (R61). -/
def rowX (mnemonic : String) (op : Word) (f : Nat → Instr) : OpcodeRow :=
  ⟨mnemonic, op, 0x000000FF, fun cw => f (operandIdx cw)⟩

/-- The 19 commands (R63). -/
def opcodeMap : List OpcodeRow :=
  [ rowN "NOP" 0x00 .nop, rowN "CLRERR" 0x01 .clrerr, rowP "LOADP" 0x02 .loadp, rowN "SETUP" 0x03 .setup,
    rowN "DECODE" 0x10 .decode, rowN "ENCODE" 0x11 .encode, rowX "LDS" 0x12 .lds, rowX "STS" 0x13 .sts,
    rowN "DIST" 0x20 .dist, rowN "BCR" 0x28 .bcr, rowN "NDRAW" 0x30 .ndraw, rowN "NOISE" 0x31 .noise,
    rowN "BQCLR" 0x38 .bqclr, rowN "BQ" 0x39 .bq, rowN "GAIN" 0x40 .gain, rowN "CHAIN" 0x41 .chain,
    rowN "STEP" 0x42 .step, rowN "RUN" 0x43 .run, rowN "PROCESS" 0x44 .process ]

/-- The opcode field `CW[7:0]` (R61). -/
def opcodeOf (cw : Word) : Word := cw &&& 0xFF

/-- Why a word that no row selects is illegal (R64). -/
def decodeError (cw : Word) : DecodeError :=
  match opcodeMap.find? (fun r => r.matchBits == opcodeOf cw) with
  | some r => .reservedBits r.mnemonic
  | none => .unusedOpcode (opcodeOf cw).toNat

/-- The decoder: every 32-bit word is exactly one command or illegal (R63, R64). -/
def decode (cw : Word) : Except DecodeError Instr :=
  match opcodeMap.find? (fun r => r.selects cw) with
  | some r => .ok (r.build cw)
  | none => .error (decodeError cw)

/-- The command of the `nbits` low bits of `w`, the bits above them zero; a word longer than 32 bits is no command word
(R60). -/
def decodeTableWord (nbits w : Nat) : Option Instr :=
  let v := w % 2 ^ nbits
  if v < 2 ^ 32 then
    match decode (BitVec.ofNat 32 v) with
    | .ok i => some i
    | .error _ => none
  else none

/-- A word of format N (R61). -/
def wordN (op : Nat) : Word := BitVec.ofNat 32 op

/-- A word of format P: `op | (id << 8)` (R61, R66). Of an `id` beyond R66's bound it carries the low 8 bits (DESIGN CHOICE,
log 24). -/
def wordP (op id : Nat) : Word := BitVec.ofNat 32 op ||| (BitVec.ofNat 32 (id % 2 ^ 8) <<< 8)

/-- A word of format X: `op | (idx << 8)` (R61, R66). Of an `idx` beyond R66's bound it carries the low 24 bits (DESIGN CHOICE,
log 24). -/
def wordX (op idx : Nat) : Word := BitVec.ofNat 32 op ||| (BitVec.ofNat 32 (idx % 2 ^ 24) <<< 8)

/-- The command word of a well-formed command, from the encoding line of each command's rule; of another command, log 24. -/
def encode : Instr → Word
  | .nop => wordN 0x00
  | .clrerr => wordN 0x01
  | .loadp id => wordP 0x02 id
  | .setup => wordN 0x03
  | .decode => wordN 0x10
  | .encode => wordN 0x11
  | .lds idx => wordX 0x12 idx
  | .sts idx => wordX 0x13 idx
  | .dist => wordN 0x20
  | .bcr => wordN 0x28
  | .ndraw => wordN 0x30
  | .noise => wordN 0x31
  | .bqclr => wordN 0x38
  | .bq => wordN 0x39
  | .gain => wordN 0x40
  | .chain => wordN 0x41
  | .step => wordN 0x42
  | .run => wordN 0x43
  | .process => wordN 0x44

end Sys2Proof
end

