-- ==== Sys2Proof/Config.lean ====
section
/-! DEFINITION. What an implementation fixes and the spec leaves open (00_scope.md R3, 92_eei_decisions.md "Open
parameters"), and the free values of what the spec calls unspecified or undefined. A constant declared `opaque` has no
body: nothing can be proved of its value beyond its type. -/

namespace Sys2Proof

/-- The nine fields of a preset: a record of the preset store and, in the same fields, the active preset (R21). -/
structure Preset where
  /-- `PCFG.BITS`, quantization bit depth. -/
  bits : BitVec 5
  /-- `PCFG.TRATE`, rate code of the target decimation rate. -/
  trate : BitVec 2
  /-- `PCFG.NAFTER`, noise after bitcrush. -/
  nafter : Bool
  /-- `PCFG.FTYPE`, 0 none, 1 lowpass, 2 highpass, 3 bandpass, 4 notch. -/
  ftype : BitVec 3
  /-- `P_DRIVE`. -/
  drive : F32
  /-- `P_NVOL`. -/
  nvol : F32
  /-- `P_FREQ`. -/
  freq : F32
  /-- `P_Q`. -/
  q : F32
  /-- `P_GAIN`. -/
  gain : F32
deriving DecidableEq, Repr, Inhabited

/-- `BLK_POLICY` (R3, R83): what a zero block size does. -/
inductive BlkPolicy where
  /-- `SETUP` raises InvalidConfiguration: the decided value. -/
  | fail
  /-- the block size becomes 1: the alternative the document permits (U6). -/
  | clamp
deriving DecidableEq, Repr

/-- The parameters of one core that are plain data (R3). No step changes them; `State` carries them because the type of
`step` has no other place for an argument (DESIGN CHOICE, assumption log 3). -/
structure Params where
  /-- `PCM_BYTES`: bytes of PCM memory, and words of sample memory (`SMP_WORDS = PCM_BYTES`). -/
  pcmBytes : Nat
  /-- `PRESET_ROM[1 .. N_PRESETS]`, record 1 first; `N_PRESETS` is its length (R29). -/
  rom : List Preset
  /-- `BLK_POLICY`. -/
  blkPolicy : BlkPolicy
deriving DecidableEq, Repr

namespace Config

/-- Which of the 2^22 legal values `PCM_BYTES` has in the core that `State.reset` describes (R3; log 3). -/
opaque capacityIndex : Nat

/-- Which of the 250 legal values `N_PRESETS` has in the core that `State.reset` describes (R3; log 3). -/
opaque presetCountIndex : Nat

/-- The preset record of each number in the core that `State.reset` describes, before `Machine/Params.lean` restricts it
to records R3 admits (R29, U5; log 3). -/
opaque presetRecord : Nat → Preset

/-- The magnitude pattern of `ATAN` on positive finite arguments, by magnitude pattern, before clamping: any monotone
function (R148 item 4; log 7). -/
opaque atanMagnitude : Nat →o Nat

/-- The magnitude pattern of `TAN` on the range R149 names, by magnitude pattern, before clamping: any monotone function
(R149 item 2; log 8). -/
opaque tanMagnitude : Nat →o Nat

/-- `TAN` outside the range R149 names, where the machine assumes nothing of it and never evaluates it (log 8). -/
opaque tanElsewhere : F32 → F32

/-- By how much the open bound `ATAN_ERR` exceeds the actual error of `ATAN`, by argument (R148 item 7; log 9). -/
opaque atanErrSlack : F32 → NNReal

/-- By how much the open bound `TAN_ERR` exceeds the actual error of `TAN`, by argument (R149 item 4; log 9). -/
opaque tanErrSlack : F32 → NNReal

/-- What a PCM byte not written since the latest reset reads as, by reset epoch and address (R30, R180, U8; log 5). -/
opaque unwrittenPcm : Nat → Nat → Byte

/-- What a sample-memory byte not written since the latest reset reads as, by reset epoch and byte address (R30, R180, U8;
log 5). -/
opaque unwrittenSmp : Nat → Nat → Byte

/-- The undefined data of the n-th read that the bus refused (R41, U3; log 6). -/
opaque refusedReadData : Nat → Word

end Config

end Sys2Proof
end

