-- ==== Sys2Proof/Machine/Float.lean ====
section
/-! DEFINITION. The numerics of 47_numerics.md: IEEE 754 binary32 on bit patterns. A finite value is an integer number of
units of 2^-149; every operation computes the exact result as an integer or a quotient of integers and rounds once. -/

namespace Sys2Proof.Machine

/-! ### The format (R140) -/

/-- Bit 31, set for a negative sign. -/
def fSign (a : F32) : Bool := a.getLsbD 31

/-- Bits 30:23, the biased exponent. -/
def fExp (a : F32) : Nat := (a.extractLsb' 23 8).toNat

/-- Bits 22:0, the fraction. -/
def fFrac (a : F32) : Nat := (a.extractLsb' 0 23).toNat

/-- A NaN: exponent 255, fraction not 0 (R140, R145). -/
def isNan (a : F32) : Bool := fExp a == 255 && fFrac a != 0

/-- An infinity: exponent 255, fraction 0 (R140). -/
def isInf (a : F32) : Bool := fExp a == 255 && fFrac a == 0

/-- Neither NaN nor infinity (R145). -/
def isFinite (a : F32) : Bool := fExp a != 255

/-- A zero of either sign (R140). -/
def isZero (a : F32) : Bool := fExp a == 0 && fFrac a == 0

/-- The significand as an integer: with the hidden bit unless subnormal (R140). -/
def fSignificand (a : F32) : Nat := if fExp a = 0 then fFrac a else 2 ^ 23 + fFrac a

/-- The magnitude of a finite value in units of 2^-149 (R140). -/
def fScaled (a : F32) : Nat := fSignificand a * 2 ^ (fExp a - 1)

/-- A finite value in units of 2^-149 (R140). -/
def fInt (a : F32) : Int := if fSign a then -(fScaled a : Int) else fScaled a

/-- Bits 30:0, the pattern without its sign. -/
def fMagnitude (a : F32) : Nat := (a.extractLsb' 0 31).toNat

/-! ### Constants (R142) -/

def fZero : F32 := 0x00000000
def fNegZero : F32 := 0x80000000
def fOne : F32 := 0x3F800000
def fTwo : F32 := 0x40000000
def fNegTwo : F32 := 0xC0000000
def fHundred : F32 := 0x42C80000
def fNineTenths : F32 := 0x3F666666
def fHalf : F32 := 0x3F000000
def fInt16Max : F32 := 0x46FFFE00
def pi32 : F32 := 0x40490FDB
def halfPi32 : F32 := 0x3FC90FDB
/-- The canonical quiet NaN, the only NaN an operation produces (R141). -/
def qNaN : F32 := 0x7FC00000
/-- The magnitude pattern of infinity. -/
def infMagnitude : Nat := 0x7F800000

/-- The pattern of a sign and a magnitude. -/
def pack (neg : Bool) (mag : Nat) : F32 := BitVec.ofNat 32 ((if neg then 2 ^ 31 else 0) + mag)

/-- Infinity of a sign. -/
def fInf (neg : Bool) : F32 := pack neg infMagnitude

/-! ### Rounding (R141) -/

/-- The magnitude pattern nearest to `n / d` units of 2^-149, ties to even; infinity from the overflow threshold up
(R141; DEDUCED at the threshold itself, log 10). With `k` the exponent by which 24 significant bits are exceeded, the
pattern of significand `m` is `k * 2^23 + m`, also when rounding carries into the next exponent. -/
def roundMag (n d : Nat) : Nat :=
  let k := (n / d).log2 - 23
  let unit := d * 2 ^ k
  let m := n / unit
  let r := n % unit
  let up := if unit < 2 * r ∨ (2 * r = unit ∧ m % 2 = 1) then 1 else 0
  min (k * 2 ^ 23 + m + up) infMagnitude

/-- `RN32` of `± num / den` (R142): the binary32 value nearest to a rational; a zero and a rational beyond the range: log 25. -/
def rn32 (neg : Bool) (num den : Nat) : F32 := pack neg (roundMag (num * 2 ^ 149) den)

/-! ### Operations (R141, R143, R144, R146) -/

/-- Flips bit 31 and nothing else (R146). -/
def fneg (a : F32) : F32 := a ^^^ 0x80000000

/-- Addition (R141). -/
def fadd (a b : F32) : F32 :=
  if isNan a || isNan b then qNaN
  else if isInf a then (if isInf b && fSign a != fSign b then qNaN else a)
  else if isInf b then b
  else
    let n := fInt a + fInt b
    if n = 0 then (if fSign a && fSign b then fNegZero else fZero)
    else pack (decide (n < 0)) (roundMag n.natAbs 1)

/-- Subtraction: the exact difference is the exact sum with the negated operand, in every case of R141 (DEDUCED, log 12). -/
def fsub (a b : F32) : F32 := fadd a (fneg b)

/-- Multiplication (R141). -/
def fmul (a b : F32) : F32 :=
  let neg := fSign a != fSign b
  if isNan a || isNan b then qNaN
  else if isInf a || isInf b then (if isZero a || isZero b then qNaN else fInf neg)
  else pack neg (roundMag (fScaled a * fScaled b) (2 ^ 149))

/-- Division (R141). -/
def fdiv (a b : F32) : F32 :=
  let neg := fSign a != fSign b
  if isNan a || isNan b then qNaN
  else if isInf a then (if isInf b then qNaN else fInf neg)
  else if isInf b then pack neg 0
  else if isZero b then (if isZero a then qNaN else fInf neg)
  else pack neg (roundMag (fScaled a * 2 ^ 149) (fScaled b))

/-- The largest integral value not greater than `a`, the sign of a zero kept (R143). -/
def ffloor (a : F32) : F32 :=
  if isNan a then qNaN
  else if isInf a || isZero a then a
  else
    let n := fInt a / 2 ^ 149
    pack (decide (n < 0)) (roundMag (n.natAbs * 2 ^ 149) 1)

/-- The `f32` of an integer (R144): exact for every integer the core converts. -/
def i2f (n : Int) : F32 := pack (decide (n < 0)) (roundMag (n.natAbs * 2 ^ 149) 1)

/-! ### Comparisons (R145) -/

/-- The order of the extended reals on non-NaN patterns: sign and magnitude, the two zeros equal. -/
def orderKey (a : F32) : Int := if fSign a then -(fMagnitude a : Int) else fMagnitude a

/-- Equality, false on NaN (R145). -/
def feq (a b : F32) : Bool := !isNan a && !isNan b && decide (orderKey a = orderKey b)

/-- Less than, false on NaN (R145). -/
def flt (a b : F32) : Bool := !isNan a && !isNan b && decide (orderKey a < orderKey b)

/-- Less than or equal, false on NaN (R145). -/
def fle (a b : F32) : Bool := !isNan a && !isNan b && decide (orderKey a ≤ orderKey b)

/-! ### Conversion to an integer (R147) -/

/-- The integer part of a finite value, toward zero (R147). -/
def ftrunc (v : F32) : Int :=
  if fSign v then -((fScaled v / 2 ^ 149 : Nat) : Int) else ((fScaled v / 2 ^ 149 : Nat) : Int)

/-- `sat_w` for the range `lo .. hi` of the width: NaN to 0, saturate, else truncate toward zero (R147). -/
def satTo (lo hi : Int) (v : F32) : Int :=
  if isNan v then 0
  else if fle (i2f hi) v then hi
  else if fle v (i2f lo) then lo
  else ftrunc v

/-! ### The two open functions (R148, R149) -/

/-- `ATAN` (R148): the open function with exactly the stated properties. On positive finite arguments it is any monotone
function with values from the least positive value to `HALFPI32`; the rest is fixed by items 2, 3, 5 and 6 (log 7). -/
def atan32 (x : F32) : F32 :=
  if isNan x then qNaN
  else if isZero x then x
  else if isInf x then pack (fSign x) (fMagnitude halfPi32)
  else pack (fSign x) (max 1 (min (Config.atanMagnitude (fMagnitude x)) (fMagnitude halfPi32)))

/-- The largest argument of `TAN` that `SETUP` can form, `0x3FC90FDA` (R149). -/
def tanArgMax : Nat := 0x3FC90FDA

/-- `TAN` (R149): on the range `0x00000001 .. 0x3FC90FDA` any monotone function with finite, strictly positive values;
NaN to NaN; elsewhere nothing is assumed (log 8). -/
def tan32 (x : F32) : F32 :=
  if isNan x then qNaN
  else if 1 ≤ x.toNat ∧ x.toNat ≤ tanArgMax then
    pack false (max 1 (min (Config.tanMagnitude x.toNat) (infMagnitude - 1)))
  else Config.tanElsewhere x

end Sys2Proof.Machine
end

