-- ==== Sys2Proof/Machine/Params.lean ====
section
/-! DEFINITION. Which parameters are legal (00_scope.md R3), and the legal instance that `State.reset` describes, with every
open value taken from Config (log 3, log 4). -/

namespace Sys2Proof.Machine

/-- The parameter-domain checks of R84 that concern a record alone: (b), (c), (d), (e), (g), (h), (i). -/
def recordOk (p : Preset) : Bool :=
  decide (2 ≤ p.bits.toNat) && decide (p.bits.toNat ≤ 16)
  && (fle fZero p.drive && fle p.drive fOne)
  && (fle fZero p.nvol && fle p.nvol fOne)
  && isFinite p.gain
  && decide (p.ftype.toNat ≤ 4)
  && (decide (p.ftype.toNat = 0)
      || ((flt fZero p.freq && flt p.freq fHalf) && (flt fZero p.q && isFinite p.q)))

/-- Capacity is a multiple of 4 from 4 to 2^24 (R3). -/
def capacityOk (n : Nat) : Bool := decide (n % 4 = 0) && decide (4 ≤ n) && decide (n ≤ 2 ^ 24)

/-- The constraints of R3 on a core's parameters. -/
def paramsOk (p : Params) : Bool :=
  capacityOk p.pcmBytes && decide (6 ≤ p.rom.length) && decide (p.rom.length ≤ 255) && p.rom.all recordOk

/-- `N_PRESETS` (R3, R29). -/
def nPresets (p : Params) : Nat := p.rom.length

/-- `ROM[id]`, `1 <= id <= N_PRESETS` (R29). -/
def romRecord (p : Params) (id : Nat) : Option Preset := if id = 0 then none else p.rom[id - 1]?

/-- A legal record, in place of a number for which the open store would hold an illegal one (log 3). -/
def plainPreset : Preset :=
  { bits := 16, trate := 0, nafter := false, ftype := 0, drive := fZero, nvol := fZero, freq := fZero, q := fZero, gain := fOne }

/-- The open store's record, restricted to those R3 admits. -/
def legalRecord (id : Nat) : Preset :=
  if recordOk (Config.presetRecord id) then Config.presetRecord id else plainPreset

/-- Records `id`, `id + 1`, ... (`n` of them) of the open store. -/
def legalRecords (id : Nat) : Nat → List Preset
  | 0 => []
  | n + 1 => legalRecord id :: legalRecords (id + 1) n

/-- The core `State.reset` describes: any legal capacity, any legal number of presets, any legal records, and
`BLK_POLICY = fail` as R3 decides (log 3, log 4). -/
def configParams : Params :=
  { pcmBytes := 4 * (Config.capacityIndex % 2 ^ 22 + 1)
    rom := legalRecords 1 (Config.presetCountIndex % 250 + 6)
    blkPolicy := .fail }

end Sys2Proof.Machine
end

