-- ==== Sys2Proof/Machine/State.lean ====
section
/-! DEFINITION. The state of the machine (10_state.md), as plain data, its value after reset (R30), and the reasons a step
can stop. -/

namespace Sys2Proof.Machine

/-- The outcome of a command (R160), the value of `STATUS.RESULT`; codes 6 to 15 are never produced (U10). -/
inductive ResultCode where
  /-- 0: the command did what its rule says. -/
  | ok
  /-- 1: buffer length not a multiple of the sample width, or above `PCM_BYTES`. -/
  | invalidBufferLength
  /-- 2: a check of R84 failed, or no such preset. -/
  | invalidConfiguration
  /-- 3: the word is no command. -/
  | illegalCommand
  /-- 4: a datapath command while `CFG_VALID` is 0. -/
  | notConfigured
  /-- 5: an index not below its bound. -/
  | indexOutOfRange
deriving DecidableEq, Repr

/-- `STATUS` (R20). `BUSY` and the reserved bits read 0 and hold nothing. -/
structure Status where
  /-- bits 3:0, `RESULT`. -/
  result : ResultCode
  /-- bit 4, `CFG_VALID`. -/
  cfgValid : Bool
  /-- bit 8, `E_LEN`. -/
  eLen : Bool
  /-- bit 9, `E_CFG`. -/
  eCfg : Bool
  /-- bit 10, `E_CMD`. -/
  eCmd : Bool
  /-- bit 11, `E_SEQ`. -/
  eSeq : Bool
  /-- bit 12, `E_IDX`. -/
  eIdx : Bool
  /-- bit 13, `NANF`. -/
  nanf : Bool
  /-- bits 31:24, `PID`. -/
  pid : BitVec 8
deriving DecidableEq, Repr

/-- `CTRL` (R22). Reserved bits hold nothing. -/
structure Ctrl where
  /-- bit 0, `EN`. -/
  en : Bool
  /-- bit 1, `WIDTH`: set for the 16-bit container. -/
  width : Bool
  /-- bits 3:2, `CRATE`. -/
  crate : BitVec 2
  /-- bit 4, `NOISEOFF`. -/
  noiseOff : Bool
  /-- bits 14:8, `VOL`. -/
  vol : BitVec 7
deriving DecidableEq, Repr

/-- The biquad coefficients `A0, A1, A2, B1, B2` (R17). -/
structure Coefs where
  a0 : F32
  a1 : F32
  a2 : F32
  b1 : F32
  b2 : F32
deriving DecidableEq, Repr

/-- The derived state `BLK, NORM, A0 .. B2` (R15, R17), written only by `SETUP`. -/
structure Derived where
  blk : BitVec 3
  norm : F32
  coef : Coefs
deriving DecidableEq, Repr

/-- The biquad state `Z1, Z2` (R16). -/
structure FilterState where
  z1 : F32
  z2 : F32
deriving DecidableEq, Repr

/-- The hold sequencer: `IDX`, `PH`, `HOLD` (R12 to R14). -/
structure Sequencer where
  idx : BitVec 25
  ph : BitVec 3
  hold : F32
deriving DecidableEq, Repr

/-- A memory: the bytes written since the latest reset, as (address, byte) pairs of strictly rising address (R27, R28; log 5,
log 13). -/
abbrev Memory := List Host.Cell

/-- The machine: the registers of R24, the two memories of R27 and R28, the parameters of R3 (log 3), and the model's own
`inbox`, `resp`, `epoch` and `undef`. -/
structure State where
  /-- the parameters, which no step changes (R3; log 3). -/
  par : Params
  /-- `STATUS` (R20). -/
  status : Status
  /-- `CTRL` (R22). -/
  ctrl : Ctrl
  /-- `LEN`, bits 24:0 (R23). -/
  len : BitVec 25
  /-- the active preset: `PCFG, P_DRIVE, P_NVOL, P_FREQ, P_Q, P_GAIN` (R21). -/
  preset : Preset
  /-- the derived state: `BLK, NORM, A0, A1, A2, B1, B2` (R15, R17). -/
  drv : Derived
  /-- `Z1, Z2` (R16). -/
  filt : FilterState
  /-- `IDX, PH, HOLD` (R12 to R14). -/
  seq : Sequencer
  /-- `LFSR`, bits 15:0 (R18). -/
  lfsr : BitVec 16
  /-- `ACC` (R11). -/
  acc : F32
  /-- the PCM memory, by byte address (R27). -/
  pcm : Memory
  /-- the sample memory, by byte address, word `i` at `4 i` (R28). -/
  smp : Memory
  /-- the MODEL's: how many `Reset` events happened, the index of the unspecified memory contents (log 5). -/
  epoch : Nat
  /-- the MODEL's: how many reads the bus refused, the index of their undefined data (log 6). -/
  undef : Nat
  /-- the MODEL's: the HOST's events not yet taken, the next first (R41, R51; log 1). -/
  inbox : List HostEvent
  /-- the MODEL's: the response to the latest transaction (R41; log 2). -/
  resp : Option BusResponse
deriving DecidableEq, Repr

/-- Why the machine stops with a fault: never. R160, R163, R47: a failing command and a refused transaction both leave a next
state, so this type has no constructor (safe: a claim that no fault happens holds by the type). -/
inductive Fault where
deriving DecidableEq, Repr

/-- Why a command has no meaning in the model. -/
inductive Refusal where
  /-- the command's arm of `exec` is not modelled yet: raised by no arm now, since every command has its meaning (safe). -/
  | notModelled (mnemonic : String)
deriving DecidableEq, Repr

/-- The state right after reset of a core with parameters `p` (R30, R180): every register as R30's table says, nothing
written in either memory. -/
def State.resetWith (p : Params) : State :=
  { par := p
    status := { result := .ok, cfgValid := false, eLen := false, eCfg := false, eCmd := false, eSeq := false, eIdx := false,
                nanf := false, pid := 0 }
    ctrl := { en := false, width := false, crate := 0, noiseOff := false, vol := 0 }
    len := 0
    preset := { bits := 0, trate := 0, nafter := false, ftype := 0, drive := fZero, nvol := fZero, freq := fZero, q := fZero,
                gain := fZero }
    drv := { blk := 0, norm := fZero, coef := { a0 := fZero, a1 := fZero, a2 := fZero, b1 := fZero, b2 := fZero } }
    filt := { z1 := fZero, z2 := fZero }
    seq := { idx := 0, ph := 0, hold := fZero }
    lfsr := 0xACE1
    acc := fZero
    pcm := []
    smp := []
    epoch := 0
    undef := 0
    inbox := []
    resp := none }

/-- The machine right after reset (R30), for the open parameters of Config (log 3). -/
def State.reset : State := State.resetWith configParams

end Sys2Proof.Machine
end

