-- ==== Sys2Proof/Machine/Flags.lean ====
section
/-! DEFINITION. `STATUS` (R20): result codes, sticky flags and the register as one word. The core has no condition codes and
no floating-point flags (R151). -/

namespace Sys2Proof.Machine

/-- The code of a result (R160). -/
def ResultCode.code : ResultCode → BitVec 4
  | .ok => 0
  | .invalidBufferLength => 1
  | .invalidConfiguration => 2
  | .illegalCommand => 3
  | .notConfigured => 4
  | .indexOutOfRange => 5

/-- Sets the sticky flag `STATUS[7 + c]` of a result code; OK has none (R20, R160). -/
def setSticky (c : ResultCode) (st : Status) : Status :=
  match c with
  | .ok => st
  | .invalidBufferLength => { st with eLen := true }
  | .invalidConfiguration => { st with eCfg := true }
  | .illegalCommand => { st with eCmd := true }
  | .notConfigured => { st with eSeq := true }
  | .indexOutOfRange => { st with eIdx := true }

/-- Clears the six sticky bits (R81). -/
def clearSticky (st : Status) : Status :=
  { st with eLen := false, eCfg := false, eCmd := false, eSeq := false, eIdx := false, nanf := false }

/-- One bit as a word, at a place. -/
def bitAt (place : Nat) (b : Bool) : Word := if b then BitVec.ofNat 32 (2 ^ place) else 0

/-- `STATUS` as the HOST reads it (R20): `BUSY` and the reserved bits read 0. -/
def statusWord (st : Status) : Word :=
  st.result.code.setWidth 32 ||| bitAt 4 st.cfgValid ||| bitAt 8 st.eLen ||| bitAt 9 st.eCfg ||| bitAt 10 st.eCmd
  ||| bitAt 11 st.eSeq ||| bitAt 12 st.eIdx ||| bitAt 13 st.nanf ||| (st.pid.setWidth 32 <<< 24)

end Sys2Proof.Machine
end

