-- ==== Sys2Proof/Machine/Ops.lean ====
section
/-! DEFINITION. The operations over the two memories, and how a command ends: `raise` and `done` (R163). -/

namespace Sys2Proof.Machine

/-! ### Memory in its canonical form (log 13) -/

/-- The canonical form: addresses strictly rising. An unlisted address holds no written byte, so no entry can equal it. -/
abbrev Memory.wf (m : Memory) : Prop := m.Pairwise fun c d => c.1 < d.1

/-- Every listed address lies below a bound. -/
abbrev Memory.within (bound : Nat) (m : Memory) : Prop := ∀ c ∈ m, c.1 < bound

/-- The byte written at an address since reset, if any. -/
def Memory.get? : Memory → Nat → Option Byte
  | [], _ => none
  | c :: m, a => if c.1 = a then some c.2 else Memory.get? m a

/-- Writes one byte, keeping the addresses rising. -/
def Memory.set : Memory → Nat → Byte → Memory
  | [], a, b => [(a, b)]
  | c :: m, a, b =>
    if a < c.1 then (a, b) :: c :: m
    else if a = c.1 then (a, b) :: m
    else c :: Memory.set m a b

/-! ### Little-endian access (R43) -/

/-- Byte `k` of a word: data bits `8k+7 : 8k` belong to address `A + k` (R43). -/
def byteOf (v : Word) (k : Nat) : Byte := v.extractLsb' (8 * k) 8

/-- The number of bytes of a transaction (R41). -/
def AccessSize.bytes : AccessSize → Nat
  | .one => 1
  | .two => 2
  | .four => 4

/-- `MemRead(space, addr, n)`: the bytes at `addr ..` of a space, assembled little-endian, zero-extended. -/
def joinBytes (read : Nat → Byte) (a : Nat) : AccessSize → Word
  | .one => (read a).setWidth 32
  | .two => (read (a + 1) ++ read a).setWidth 32
  | .four => (read (a + 3) ++ read (a + 2) ++ read (a + 1) ++ read a).setWidth 32

/-- `MemWrite(space, addr, n, v)`: the low bytes of `v` to `addr ..`, little-endian. -/
def storeBytes (m : Memory) (a : Nat) (v : Word) : AccessSize → Memory
  | .one => Memory.set m a (byteOf v 0)
  | .two => Memory.set (Memory.set m a (byteOf v 0)) (a + 1) (byteOf v 1)
  | .four =>
    Memory.set (Memory.set (Memory.set (Memory.set m a (byteOf v 0)) (a + 1) (byteOf v 1)) (a + 2) (byteOf v 2)) (a + 3)
      (byteOf v 3)

/-! ### The PCM memory (R27) -/

/-- `PCM[a]`: the byte written, or the unspecified contents after reset (R30, U8; log 5). -/
def pcmByte (s : State) (a : Nat) : Byte := (Memory.get? s.pcm a).getD (Config.unwrittenPcm s.epoch a)

/-- `PCM[a] <- b`. -/
def setPcmByte (a : Nat) (b : Byte) (s : State) : State := { s with pcm := Memory.set s.pcm a b }

/-! ### The sample memory (R28) -/

/-- The byte of the sample memory at a byte address, or the unspecified contents after reset (R30, U8; log 5). -/
def smpByte (s : State) (a : Nat) : Byte := (Memory.get? s.smp a).getD (Config.unwrittenSmp s.epoch a)

/-- `SMP[i]`: `MemRead(SMP, 4 i, 4)`. -/
def smpWord (s : State) (i : Nat) : F32 := joinBytes (smpByte s) (4 * i) .four

/-- `SMP[i] <- v`. -/
def setSmpWord (i : Nat) (v : F32) (s : State) : State := { s with smp := storeBytes s.smp (4 * i) v .four }

/-! ### How a command ends (R163) -/

/-- `raise X`: the result code and its sticky flag, and nothing else (R163). There is no handler and no return (R167). -/
def raise (c : ResultCode) (s : State) : State := { s with status := setSticky c { s.status with result := c } }

/-- `done`: the result is OK, and nothing else (R163). -/
def done (s : State) : State := { s with status := { s.status with result := .ok } }

/-- How a command started in `s` ends: what its body computed, then `done`; or, where a `require` failed, `raise` on `s`
itself, since every check comes before every write (R163). -/
def finish (s : State) : Except ResultCode State → State
  | .ok t => done t
  | .error c => raise c s

/-- `require STATUS.CFG_VALID = 1 else raise NotConfigured`, the first check of every datapath command (R161, R182). -/
def requireConfigured (s : State) (body : Except ResultCode State) : Except ResultCode State :=
  if s.status.cfgValid then body else .error .notConfigured

end Sys2Proof.Machine
end

