-- ==== Sys2Proof/Machine/Operands.lean ====
section
/-! DEFINITION. The named functions of the registers that the rules use as operands (10_state.md R31). Every operand of a
command but `id` and `idx` is a register its rule names (R62). -/

namespace Sys2Proof.Machine

/-- `bps()`: bytes per sample (R31). -/
def bps (s : State) : Nat := if s.ctrl.width then 2 else 1

/-- The codec's scale `2^(w-1) - 1` of a container width (R31, R70). -/
def maxMagOf (width : Bool) : Int := if width then 32767 else 127

/-- `maxmag()` (R31). -/
def maxMag (s : State) : Int := maxMagOf s.ctrl.width

/-- `SMP_WORDS = PCM_BYTES` (R3). -/
def smpWords (p : Params) : Nat := p.pcmBytes

/-- `len_ok()` (R31). -/
def lenOk (s : State) : Bool := decide (s.len.toNat ≤ s.par.pcmBytes) && decide (s.len.toNat % bps s = 0)

/-- `nsmp()` (R31). -/
def nsmp (s : State) : Nat := s.len.toNat / bps s

/-- `hz(c)`: the rate of a rate code (R31). -/
def hz (c : BitVec 2) : Nat :=
  match c.toNat with
  | 0 => 8000
  | 1 => 11025
  | 2 => 22050
  | _ => 44100

/-- `nv_eff()`: the effective noise volume (R31, R104). -/
def nvEff (s : State) : F32 := if s.ctrl.noiseOff then fZero else s.preset.nvol

/-- `gv()` of a volume: the global volume (R31, R105). -/
def globalVolume (vol : BitVec 7) : F32 := fdiv (i2f vol.toNat) fHundred

/-- `gv()` (R31). -/
def gv (s : State) : F32 := globalVolume s.ctrl.vol

/-- `mul()` of a bit depth: the quantizer's scale, used only for 2 to 16 (R31, R95; log 20 elsewhere). -/
def crushScale (bits : BitVec 5) : F32 := i2f (2 ^ (bits.toNat - 1) - 1)

end Sys2Proof.Machine
end

