-- ==== Sys2Proof/Machine/Codec.lean ====
section
/-! DEFINITION. The sample codec and single-word access (40_codec.md): `DECODE`, `ENCODE`, `LDS`, `STS`. -/

namespace Sys2Proof.Machine

/-- `pcm_int(i)` (R71): signed, little-endian (R44). -/
def pcmInt (s : State) (i : Nat) : Int :=
  if s.ctrl.width then (pcmByte s (2 * i + 1) ++ pcmByte s (2 * i)).toInt else (pcmByte s i).toInt

/-- The sample of a PCM integer in a container width (R71). -/
def decodeInt (width : Bool) (n : Int) : F32 := fdiv (i2f n) (i2f (maxMagOf width))

/-- `dec(i)` (R71). -/
def dec (s : State) (i : Nat) : F32 := decodeInt s.ctrl.width (pcmInt s i)

/-- The product that the encoder truncates (R73, R74). -/
def encodeProduct (width : Bool) (x : F32) : F32 := fmul x (i2f (maxMagOf width))

/-- `enc(x)` in a container width (R73): saturating, `sat_w` of R147. -/
def encodeInt (width : Bool) (x : F32) : Int :=
  if width then satTo (-32768) 32767 (encodeProduct width x) else satTo (-128) 127 (encodeProduct width x)

/-- The first `n` iterations of `DECODE`'s loop (R72). -/
def decodeUpTo : Nat → State → State
  | 0, s => s
  | n + 1, s => let t := decodeUpTo n s; setSmpWord n (dec t n) t

/-- `DECODE` up to its end (R72). -/
def decodeBody (s : State) : Except ResultCode State :=
  if lenOk s then .ok (decodeUpTo (nsmp s) s) else .error .invalidBufferLength

/-- `DECODE` (R72). -/
def execDecode (s : State) : Host.Outcome State Fault Refusal := .next (finish s (decodeBody s))

/-- Stores the `w`-bit two's-complement encoding of an integer as sample `i` of the PCM buffer (R74). -/
def setPcmSample (i : Nat) (n : Int) (s : State) : State :=
  if s.ctrl.width then
    let v : BitVec 16 := BitVec.ofInt 16 n
    setPcmByte (2 * i + 1) (v.extractLsb' 8 8) (setPcmByte (2 * i) (v.extractLsb' 0 8) s)
  else setPcmByte i (BitVec.ofInt 8 n) s

/-- `STATUS.NANF <- 1` if the product of sample `i` is a NaN (R74). -/
def noteNan (i : Nat) (s : State) : State :=
  if isNan (encodeProduct s.ctrl.width (smpWord s i)) then { s with status := { s.status with nanf := true } } else s

/-- One iteration of `ENCODE`'s loop (R74). -/
def encodeSample (i : Nat) (s : State) : State :=
  setPcmSample i (encodeInt s.ctrl.width (smpWord s i)) (noteNan i s)

/-- The first `n` iterations of `ENCODE`'s loop (R74). -/
def encodeUpTo : Nat → State → State
  | 0, s => s
  | n + 1, s => encodeSample n (encodeUpTo n s)

/-- `ENCODE` up to its end (R74). -/
def encodeBody (s : State) : Except ResultCode State :=
  if lenOk s then .ok (encodeUpTo (nsmp s) s) else .error .invalidBufferLength

/-- `ENCODE` (R74). -/
def execEncode (s : State) : Host.Outcome State Fault Refusal := .next (finish s (encodeBody s))

/-- `require idx < SMP_WORDS else raise IndexOutOfRange` (R75, R76). -/
def requireIndex (idx : Nat) (s : State) (body : Except ResultCode State) : Except ResultCode State :=
  if idx < smpWords s.par then body else .error .indexOutOfRange

/-- `LDS idx` (R75). -/
def execLds (idx : Nat) (s : State) : Host.Outcome State Fault Refusal :=
  .next (finish s (requireIndex idx s (.ok { s with acc := smpWord s idx })))

/-- `STS idx` (R76). -/
def execSts (idx : Nat) (s : State) : Host.Outcome State Fault Refusal :=
  .next (finish s (requireIndex idx s (.ok (setSmpWord idx s.acc s))))

end Sys2Proof.Machine
end

