-- ==== Sys2Proof/Machine/NoiseGen.lean ====
section
/-! DEFINITION. The noise generator (44_noise_gen.md): `NDRAW`, `NOISE`. -/

namespace Sys2Proof.Machine

/-- `lfsr_shift(l)` (R101): the feedback is the exclusive or of bits 0, 2, 3 and 5. -/
def lfsrShift (l : BitVec 16) : BitVec 16 :=
  let b := (l ^^^ (l >>> 2) ^^^ (l >>> 3) ^^^ (l >>> 5)) &&& 1
  (l >>> 1) ||| (b <<< 15)

/-- So many shifts of the generator (R102). -/
def lfsrShifts : Nat → BitVec 16 → BitVec 16
  | 0, l => l
  | n + 1, l => lfsrShifts n (lfsrShift l)

/-- The value in [-1, 1] of a generator state (R102). -/
def drawValue (l : BitVec 16) : F32 := fdiv (i2f ((l.toNat : Int) - 32768)) fInt16Max

/-- `draw_u()` (R102): sixteen shifts, then the value of the new state. -/
def drawU (s : State) : F32 × State :=
  let l := lfsrShifts 16 s.lfsr
  (drawValue l, { s with lfsr := l })

/-- The mix of a sample and a draw (R106). -/
def mixNoise (nv gvol x u : F32) : F32 :=
  fadd (fmul x (fsub fOne nv)) (fmul (fmul u gvol) nv)

/-- `wnoise(x)` (R106): no draw when the effective noise volume is zero. -/
def wnoise (x : F32) (s : State) : F32 × State :=
  if feq (nvEff s) fZero then (x, s)
  else
    let d := drawU s
    (mixNoise (nvEff s) (gv s) x d.1, d.2)

/-- `NDRAW` (R107). -/
def execNdraw (s : State) : Host.Outcome State Fault Refusal :=
  .next (finish s (.ok { (drawU s).2 with acc := (drawU s).1 }))

/-- `NOISE` (R108). -/
def execNoise (s : State) : Host.Outcome State Fault Refusal :=
  .next (finish s (requireConfigured s (.ok { (wnoise s.acc s).2 with acc := (wnoise s.acc s).1 })))

end Sys2Proof.Machine
end

