-- ==== Sys2Proof/Machine/Biquad.lean ====
section
/-! DEFINITION. The biquad filter (45_biquad_filter.md): `BQCLR`, `BQ`. -/

namespace Sys2Proof.Machine

/-- The coefficients of a filter type for given `k` and `Q` (R110 to R112): types 1 lowpass, 2 highpass, 3 bandpass,
4 notch; every other type gives the zeros of R113 (types 5 to 7 never reach here, R84 (g); log 20). -/
def coefsOf (ftype : BitVec 3) (k q : F32) : Coefs :=
  let kq := fdiv k q
  let kk := fmul k k
  let bn := fdiv fOne (fadd (fadd fOne kq) kk)
  let b1 := fmul (fmul fTwo (fsub kk fOne)) bn
  let b2 := fmul (fadd (fsub fOne kq) kk) bn
  match ftype.toNat with
  | 1 => { a0 := fmul kk bn, a1 := fmul fTwo (fmul kk bn), a2 := fmul kk bn, b1 := b1, b2 := b2 }
  | 2 => { a0 := bn, a1 := fmul fNegTwo bn, a2 := bn, b1 := b1, b2 := b2 }
  | 3 => { a0 := fmul kq bn, a1 := fZero, a2 := fneg (fmul kq bn), b1 := b1, b2 := b2 }
  | 4 => { a0 := fmul (fadd fOne kk) bn, a1 := b1, a2 := fmul (fadd fOne kk) bn, b1 := b1, b2 := b2 }
  | _ => { a0 := fZero, a1 := fZero, a2 := fZero, b1 := fZero, b2 := fZero }

/-- `bqcoef()` of a preset (R113), with `k = TAN(PI32 * f)` (R110). -/
def bqcoef (p : Preset) : Coefs := coefsOf p.ftype (tan32 (fmul pi32 p.freq)) p.q

/-- One active filter step: the output and the new state (R114). -/
def biquadStep (c : Coefs) (z : FilterState) (x : F32) : F32 × FilterState :=
  let y := fadd (fmul x c.a0) z.z1
  (y, { z1 := fsub (fadd (fmul x c.a1) z.z2) (fmul c.b1 y)
        z2 := fsub (fmul x c.a2) (fmul c.b2 y) })

/-- `biquad(x)` (R114), with the bypass of R115. -/
def biquad (x : F32) (s : State) : F32 × State :=
  if s.preset.ftype = 0 then (x, s)
  else
    let r := biquadStep s.drv.coef s.filt x
    (r.1, { s with filt := r.2 })

/-- The fresh biquad state (R16, R116). -/
def freshFilter : FilterState := { z1 := fZero, z2 := fZero }

/-- `BQCLR` (R116). -/
def execBqclr (s : State) : Host.Outcome State Fault Refusal :=
  .next (finish s (.ok { s with filt := freshFilter }))

/-- `BQ` (R117). -/
def execBq (s : State) : Host.Outcome State Fault Refusal :=
  .next (finish s (requireConfigured s (.ok { (biquad s.acc s).2 with acc := (biquad s.acc s).1 })))

end Sys2Proof.Machine
end

