-- ==== Sys2Proof/Machine/Waveshaper.lean ====
section
/-! DEFINITION. The waveshaper (42_waveshaper.md): `DIST`. -/

namespace Sys2Proof.Machine

/-- `dnorm()`: distortion normalisation of a drive (R90). -/
def dnorm (drive : F32) : F32 :=
  if feq drive fZero then fZero else fdiv fOne (atan32 (fmul drive fHundred))

/-- `atten()` of a drive (R91). -/
def atten (drive : F32) : F32 := fsub fOne (fadd (fmul drive drive) (fsub fNineTenths drive))

/-- `distort(x)` for a normalisation and a drive (R91). -/
def distortWith (norm drive x : F32) : F32 :=
  if feq drive fZero then x
  else fmul (fmul (atan32 (fmul (fmul drive fHundred) x)) norm) (atten drive)

/-- `distort(x)` (R91): `NORM` and `P_DRIVE` are the registers. -/
def distort (s : State) (x : F32) : F32 := distortWith s.drv.norm s.preset.drive x

/-- `DIST` (R92). -/
def execDist (s : State) : Host.Outcome State Fault Refusal :=
  .next (finish s (requireConfigured s (.ok { s with acc := distort s s.acc })))

end Sys2Proof.Machine
end

