-- ==== Sys2Proof/Machine/PresetSetup.lean ====
section
/-! DEFINITION. Status management, preset selection, validation and set-up (41_preset_setup.md): `NOP`, `CLRERR`, `LOADP`,
`SETUP`. -/

namespace Sys2Proof.Machine

/-- `NOP` (R80). -/
def execNop (s : State) : Host.Outcome State Fault Refusal := .next (finish s (.ok s))

/-- `CLRERR` (R81). -/
def execClrerr (s : State) : Host.Outcome State Fault Refusal :=
  .next (finish s (.ok { s with status := clearSticky s.status }))

/-- `LOADP id` up to its end (R82). -/
def loadpBody (id : Nat) (s : State) : Except ResultCode State :=
  if id = 0 then
    .ok { s with ctrl := { s.ctrl with en := false }, status := { s.status with cfgValid := false } }
  else
    match romRecord s.par id with
    | none => .error .invalidConfiguration
    | some r =>
      .ok { s with
            preset := r
            ctrl := { s.ctrl with en := true }
            status := { s.status with pid := BitVec.ofNat 8 id, cfgValid := false } }

/-- `LOADP` (R82). -/
def execLoadp (id : Nat) (s : State) : Host.Outcome State Fault Refusal := .next (finish s (loadpBody id s))

/-- `blk0()` (R83): container rate div target rate; with `BLK_POLICY = clamp` a zero quotient becomes 1 (U6; log 4). -/
def blk0 (s : State) : Nat :=
  let b := hz s.ctrl.crate / hz s.preset.trate
  if b = 0 ∧ s.par.blkPolicy = .clamp then 1 else b

/-- `cfg_ok()` (R84): (a) block size, (f) volume, and the checks on the active preset's own fields. -/
def cfgOk (s : State) : Bool := decide (1 ≤ blk0 s) && recordOk s.preset && decide (s.ctrl.vol.toNat ≤ 100)

/-- The derived state that `SETUP` computes (R85). -/
def derive (s : State) : Derived :=
  { blk := BitVec.ofNat 3 (blk0 s), norm := dnorm s.preset.drive, coef := bqcoef s.preset }

/-- The decimator at the start of the array (R85, R126). -/
def freshSequencer : Sequencer := { idx := 0, ph := 0, hold := fZero }

/-- `SETUP` up to its end (R85): the length is checked first (R164). -/
def setupBody (s : State) : Except ResultCode State :=
  if lenOk s then
    if cfgOk s then
      .ok { s with
            drv := derive s
            filt := freshFilter
            seq := freshSequencer
            status := { s.status with cfgValid := true } }
    else .error .invalidConfiguration
  else .error .invalidBufferLength

/-- `SETUP` (R85). -/
def execSetup (s : State) : Host.Outcome State Fault Refusal := .next (finish s (setupBody s))

end Sys2Proof.Machine
end

