-- ==== Sys2Proof/Machine/Quantizer.lean ====
section
/-! DEFINITION. The quantizer (43_quantizer.md): `BCR`. -/

namespace Sys2Proof.Machine

/-- `bitcrush(x)` at a bit depth (R96): product, floor, quotient. -/
def bitcrushAt (bits : BitVec 5) (x : F32) : F32 := fdiv (ffloor (fmul x (crushScale bits))) (crushScale bits)

/-- `bitcrush(x)` (R96). -/
def bitcrush (s : State) (x : F32) : F32 := bitcrushAt s.preset.bits x

/-- `BCR` (R97). -/
def execBcr (s : State) : Host.Outcome State Fault Refusal :=
  .next (finish s (requireConfigured s (.ok { s with acc := bitcrush s s.acc })))

end Sys2Proof.Machine
end

