-- ==== Sys2Proof/Machine/Pipeline.lean ====
section
/-! DEFINITION. The decimator and the effect pipeline (46_decimator_pipeline.md): `GAIN`, `CHAIN`, `STEP`, `RUN`,
`PROCESS`. -/

namespace Sys2Proof.Machine

/-- `GAIN` (R120). -/
def execGain (s : State) : Host.Outcome State Fault Refusal :=
  .next (finish s (requireConfigured s (.ok { s with acc := fmul s.acc s.preset.gain })))

/-- Noise and quantizer in the order `PCFG.NAFTER` selects (R121). -/
def noiseAndCrush (x : F32) (s : State) : F32 × State :=
  if s.preset.nafter then wnoise (bitcrush s x) s
  else (bitcrush s (wnoise x s).1, (wnoise x s).2)

/-- `chain(x)` (R121). -/
def chainValue (x : F32) (s : State) : F32 × State :=
  let t := noiseAndCrush x s
  let f := biquad (distort t.2 t.1) t.2
  (fmul f.1 f.2.preset.gain, f.2)

/-- `CHAIN` (R122). -/
def execChain (s : State) : Host.Outcome State Fault Refusal :=
  .next (finish s (requireConfigured s (.ok { (chainValue s.acc s).2 with acc := (chainValue s.acc s).1 })))

/-- The first part of `step()`: at a block start take the sample and run the chain once (R124). -/
def takeBlock (s : State) : State :=
  if s.seq.ph = 0 then
    let r := chainValue (smpWord s s.seq.idx.toNat) s
    { r.2 with seq := { r.2.seq with hold := r.1 } }
  else s

/-- The phase after a slot (R14, R124). -/
def nextPhase (ph blk : BitVec 3) : BitVec 3 := if ph.toNat + 1 = blk.toNat then 0 else ph + 1

/-- The end of `step()`: write the held value into the slot, advance phase and index (R124). -/
def holdSlot (s : State) : State :=
  { setSmpWord s.seq.idx.toNat s.seq.hold s with
    seq := { s.seq with ph := nextPhase s.seq.ph s.drv.blk, idx := s.seq.idx + 1 } }

/-- `step()`, one slot of the sequencer (R124). -/
def slot (s : State) : State := holdSlot (takeBlock s)

/-- `STEP` (R125). -/
def execStep (s : State) : Host.Outcome State Fault Refusal :=
  .next (finish s (requireConfigured s (if s.seq.idx.toNat < nsmp s then .ok (slot s) else .error .indexOutOfRange)))

/-- `while IDX < nsmp(): step()` (R126), with at most so many iterations; `IDX` grows by 1 each, so `nsmp()` are enough
(R128). -/
def runLoop : Nat → State → State
  | 0, s => s
  | n + 1, s => if s.seq.idx.toNat < nsmp s then runLoop n (slot s) else s

/-- `RUN` up to its end (R126). -/
def runBody (s : State) : Except ResultCode State :=
  requireConfigured s (.ok (runLoop (nsmp s) { s with filt := freshFilter, seq := freshSequencer }))

/-- `RUN` (R126). -/
def execRun (s : State) : Host.Outcome State Fault Refusal := .next (finish s (runBody s))

/-- `PROCESS` up to its end (R127): with `CTRL.EN = 0` nothing; else `SETUP`, `DECODE`, `RUN`, `ENCODE`, a raise inside any
of them ending it. -/
def processBody (s : State) : Except ResultCode State :=
  if s.ctrl.en then
    match setupBody s with
    | .error c => .error c
    | .ok s1 =>
      match decodeBody s1 with
      | .error c => .error c
      | .ok s2 =>
        match runBody s2 with
        | .error c => .error c
        | .ok s3 => encodeBody s3
  else .ok s

/-- `PROCESS` (R127). -/
def execProcess (s : State) : Host.Outcome State Fault Refusal := .next (finish s (processBody s))

end Sys2Proof.Machine
end

