-- ==== Sys2Proof/Machine/Dispatch.lean ====
section
/-! DEFINITION. One arm per command (R63). -/

namespace Sys2Proof.Machine

def exec (i : Instr) (s : State) : Host.Outcome State Fault Refusal :=
  match i with
  | .nop => Sys2Proof.Machine.execNop s
  | .clrerr => Sys2Proof.Machine.execClrerr s
  | .loadp id => Sys2Proof.Machine.execLoadp id s
  | .setup => Sys2Proof.Machine.execSetup s
  | .decode => Sys2Proof.Machine.execDecode s
  | .encode => Sys2Proof.Machine.execEncode s
  | .lds idx => Sys2Proof.Machine.execLds idx s
  | .sts idx => Sys2Proof.Machine.execSts idx s
  | .dist => Sys2Proof.Machine.execDist s
  | .bcr => Sys2Proof.Machine.execBcr s
  | .ndraw => Sys2Proof.Machine.execNdraw s
  | .noise => Sys2Proof.Machine.execNoise s
  | .bqclr => Sys2Proof.Machine.execBqclr s
  | .bq => Sys2Proof.Machine.execBq s
  | .gain => Sys2Proof.Machine.execGain s
  | .chain => Sys2Proof.Machine.execChain s
  | .step => Sys2Proof.Machine.execStep s
  | .run => Sys2Proof.Machine.execRun s
  | .process => Sys2Proof.Machine.execProcess s

end Sys2Proof.Machine
end

