-- ==== Sys2Proof/Machine/Registers.lean ====
section
/-! DEFINITION. The register map as the HOST sees it (10_state.md R18 to R26): what a read returns and what a write does. -/

namespace Sys2Proof.Machine

/-- The registers in offset order, four bytes apart (R24). -/
def registerMap : List Reg :=
  [ .cmd, .status, .ctrl, .len, .pcfg, .pDrive, .pNvol, .pFreq, .pQ, .pGain, .lfsr, .acc, .blk, .idx, .ph, .hold, .norm,
    .a0, .a1, .a2, .b1, .b2, .z1, .z2 ]

/-- `CTRL` as a word (R22). -/
def ctrlWord (c : Ctrl) : Word :=
  bitAt 0 c.en ||| bitAt 1 c.width ||| (c.crate.setWidth 32 <<< 2) ||| bitAt 4 c.noiseOff ||| (c.vol.setWidth 32 <<< 8)

/-- The fields of `CTRL` that a word stores; reserved bits are ignored (R22, R25). -/
def ctrlOfWord (v : Word) : Ctrl :=
  { en := v.getLsbD 0, width := v.getLsbD 1, crate := v.extractLsb' 2 2, noiseOff := v.getLsbD 4, vol := v.extractLsb' 8 7 }

/-- `PCFG` as a word (R21). -/
def pcfgWord (p : Preset) : Word :=
  p.bits.setWidth 32 ||| (p.trate.setWidth 32 <<< 5) ||| bitAt 7 p.nafter ||| (p.ftype.setWidth 32 <<< 8)

/-- The integer fields of the preset that a word written to `PCFG` stores; reserved bits are ignored (R21, R25). -/
def pcfgOfWord (v : Word) (p : Preset) : Preset :=
  { p with bits := v.extractLsb' 0 5, trate := v.extractLsb' 5 2, nafter := v.getLsbD 7, ftype := v.extractLsb' 8 3 }

/-- The value a write to `LFSR` stores: bits 15:0, an all-zero value as 1 (R18). -/
def lfsrOfWord (v : Word) : BitVec 16 := if v.extractLsb' 0 16 = 0 then 1 else v.extractLsb' 0 16

/-- What the HOST reads from a register (R24, R25): no side effect, reserved bits 0, `CMD` 0. -/
def readReg (s : State) : Reg → Word
  | .cmd => 0
  | .status => statusWord s.status
  | .ctrl => ctrlWord s.ctrl
  | .len => s.len.setWidth 32
  | .pcfg => pcfgWord s.preset
  | .pDrive => s.preset.drive
  | .pNvol => s.preset.nvol
  | .pFreq => s.preset.freq
  | .pQ => s.preset.q
  | .pGain => s.preset.gain
  | .lfsr => s.lfsr.setWidth 32
  | .acc => s.acc
  | .blk => s.drv.blk.setWidth 32
  | .idx => s.seq.idx.setWidth 32
  | .ph => s.seq.ph.setWidth 32
  | .hold => s.seq.hold
  | .norm => s.drv.norm
  | .a0 => s.drv.coef.a0
  | .a1 => s.drv.coef.a1
  | .a2 => s.drv.coef.a2
  | .b1 => s.drv.coef.b1
  | .b2 => s.drv.coef.b2
  | .z1 => s.filt.z1
  | .z2 => s.filt.z2

/-- A write to `CTRL` or `LEN` clears `CFG_VALID` (R26). -/
def invalidate (s : State) : State := { s with status := { s.status with cfgValid := false } }

/-- A write to an active-preset register stores the field, clears `CFG_VALID` and sets `PID` to 0 (R26). -/
def writePreset (p : Preset) (s : State) : State :=
  { s with preset := p, status := { s.status with cfgValid := false, pid := 0 } }

/-- What a HOST write does to a register other than `CMD` (R18, R21 to R26); a read-only register takes no change (R25). A
write to `CMD` stores nothing (R19): the command it issues is executed by `Machine/Bus.lean`. -/
def writeReg (r : Reg) (v : Word) (s : State) : State :=
  match r with
  | .ctrl => invalidate { s with ctrl := ctrlOfWord v }
  | .len => invalidate { s with len := v.extractLsb' 0 25 }
  | .pcfg => writePreset (pcfgOfWord v s.preset) s
  | .pDrive => writePreset { s.preset with drive := v } s
  | .pNvol => writePreset { s.preset with nvol := v } s
  | .pFreq => writePreset { s.preset with freq := v } s
  | .pQ => writePreset { s.preset with q := v } s
  | .pGain => writePreset { s.preset with gain := v } s
  | .lfsr => { s with lfsr := lfsrOfWord v }
  | .acc => { s with acc := v }
  | .cmd | .status | .blk | .idx | .ph | .hold | .norm | .a0 | .a1 | .a2 | .b1 | .b2 | .z1 | .z2 => s

end Sys2Proof.Machine
end

