-- ==== Sys2Proof/Machine/Bus.lean ====
section
/-! DEFINITION. HOST transactions (20_memory.md R41 to R47, R50), command issue (R19, R60, R64) and reset (R180). -/

namespace Sys2Proof.Machine

/-- The first address of the PCM window (R42). -/
def pcmBase : Nat := 0x10000000

/-- The first address of the SMP window (R42). -/
def smpBase : Nat := 0x20000000

/-- What a transaction reaches, if it is allowed (R42, R45, R46): none is a BusError (R47). -/
def busTarget (p : Params) (addr : Word) (size : AccessSize) : Option BusTarget :=
  let a := addr.toNat
  let n := AccessSize.bytes size
  if a % n ≠ 0 then none
  else if pcmBase ≤ a ∧ a + n ≤ pcmBase + p.pcmBytes then some (.pcm (a - pcmBase))
  else if n ≠ 4 then none
  else if smpBase ≤ a ∧ a + n ≤ smpBase + 4 * smpWords p then some (.smp (a - smpBase))
  else (registerMap[a / 4]?).map .reg

/-- A command word is executed (R19, R60): a legal one as its command, an illegal one raises IllegalCommand (R64). -/
def command (cw : Word) (s : State) : Host.Outcome State Fault Refusal :=
  match decode cw with
  | .ok i => exec i s
  | .error _ => .next (raise .illegalCommand s)

/-- A transaction's response, recorded in the state it leaves (R41; log 2). -/
def answer (r : BusResponse) : Host.Outcome State Fault Refusal → Host.Outcome State Fault Refusal
  | .next t => .next { t with resp := some r }
  | .fault f => .fault f
  | .refused r => .refused r

/-- `HostWrite(addr, n, v)` (R41 to R47). A write to `CMD` is OK when the command has ended, whatever its result (R50; log 18). -/
def hostWrite (addr : Word) (size : AccessSize) (v : Word) (s : State) : Host.Outcome State Fault Refusal :=
  match busTarget s.par addr size with
  | none => .next { s with resp := some (.busError none) }
  | some (.pcm a) => .next { s with pcm := storeBytes s.pcm a v size, resp := some (.ok none) }
  | some (.smp a) => .next { s with smp := storeBytes s.smp a v size, resp := some (.ok none) }
  | some (.reg .cmd) => answer (.ok none) (command v s)
  | some (.reg r) => .next { writeReg r v s with resp := some (.ok none) }

/-- The low bytes of a word that a transaction of a size carries. -/
def clip (size : AccessSize) (v : Word) : Word := BitVec.ofNat 32 (v.toNat % 2 ^ (8 * AccessSize.bytes size))

/-- The data of an allowed read: no read has a side effect (R45, R46). -/
def readTarget (s : State) (size : AccessSize) : BusTarget → Word
  | .pcm a => joinBytes (pcmByte s) a size
  | .smp a => joinBytes (smpByte s) a size
  | .reg r => readReg s r

/-- `HostRead(addr, n)` (R41 to R47); a refused read's data is undefined (log 6). -/
def hostRead (addr : Word) (size : AccessSize) (s : State) : State :=
  match busTarget s.par addr size with
  | none => { s with resp := some (.busError (some (clip size (Config.refusedReadData s.undef)))), undef := s.undef + 1 }
  | some t => { s with resp := some (.ok (some (readTarget s size t))) }

/-- `Reset` (R180): every register as R30 says, both memories unspecified again (a new epoch, log 5), the parameters
unchanged. -/
def hostReset (s : State) : State :=
  { State.resetWith s.par with epoch := s.epoch + 1, undef := s.undef, inbox := s.inbox }

/-- One event of the HOST (R41, R50). -/
def takeEvent (e : HostEvent) (s : State) : Host.Outcome State Fault Refusal :=
  match e with
  | .write addr size v => hostWrite addr size v s
  | .read addr size => .next (hostRead addr size s)
  | .reset => .next (hostReset s)

/-- The next event of the HOST, in the order issued (R51); with none waiting the CORE idles (R173; log 1). -/
def nextEvent (s : State) : Host.Outcome State Fault Refusal :=
  match s.inbox with
  | [] => .next s
  | e :: rest => takeEvent e { s with inbox := rest }

/-- The event that issues a command word: the 4-byte write to `CMD` (R19, R66). -/
def issue (cw : Word) : HostEvent := .write 0x00000000 .four cw

/-- The event that issues the low `nbits` bits of `w` as a command word. -/
def fetchEvent (nbits w : Nat) : HostEvent := issue (BitVec.ofNat 32 (w % 2 ^ nbits))

end Sys2Proof.Machine
end

