-- ==== Sys2Proof/Machine/Step.lean ====
section
/-! DEFINITION. One step: one event of the HOST (R50, R51). -/

namespace Sys2Proof.Machine

/-- One step of the machine. -/
def step (s : State) : Host.Outcome State Fault Refusal := nextEvent s

/-- `s` with the HOST's next event the write of this command word to `CMD` (log 1): the events already waiting come after
it. -/
def State.withFetchWord (s : State) (nbits w : Nat) : State := { s with inbox := fetchEvent nbits w :: s.inbox }

end Sys2Proof.Machine
end

