-- ==== Sys2Proof/Machine/Accuracy.lean ====
section
/-! DEFINITION. The accuracy of the two open functions (47_numerics.md R148 item 7, R149 item 4): the real value of a binary32 pattern
and the open error bounds `ATAN_ERR`, `TAN_ERR`. No step computes with them: they are what a claim about `ATAN` or `TAN` may name
(U4). -/

namespace Sys2Proof.Machine

/-- The real number a finite value stands for (R140). -/
noncomputable def realOf (a : F32) : ℝ := (fInt a : ℝ) / 2 ^ 149

/-- `ATAN_ERR` (R148 item 7): on finite arguments any bound of the error of `ATAN`, as the actual error and an open excess; elsewhere
the real arctangent is no value to compare with, and the bound is open (log 9). -/
noncomputable def atanErr (x : F32) : ℝ :=
  if isFinite x then |realOf (atan32 x) - Real.arctan (realOf x)| + Config.atanErrSlack x else Config.atanErrSlack x

/-- `TAN_ERR` (R149 item 4): on the range `0x00000001 .. 0x3FC90FDA` any bound of the error of `TAN`, as the actual error and an open
excess; elsewhere the machine assumes nothing, and the bound is open (log 9). -/
noncomputable def tanErr (x : F32) : ℝ :=
  if 1 ≤ x.toNat ∧ x.toNat ≤ tanArgMax then |realOf (tan32 x) - Real.tan (realOf x)| + Config.tanErrSlack x
  else Config.tanErrSlack x

end Sys2Proof.Machine
end

