-- ==== Sys2Proof/Machine/Script.lean ====
section
/-! DEFINITION. The host script (30_encoding.md R66, R67): what transactions each line is. The core sees only the
expansion. -/

namespace Sys2Proof.Machine

/-- The address of a register: four bytes apart in the order of the register map (R24, R42). -/
def regAddr (r : Reg) : Word := BitVec.ofNat 32 (4 * registerMap.idxOf r)

/-- The address of a PCM byte (R42), a 32-bit number (log 23). -/
def pcmAddr (a : Nat) : Word := BitVec.ofNat 32 (pcmBase + a)

/-- The address of a sample word (R42), a 32-bit number (log 23). -/
def smpAddr (i : Nat) : Word := BitVec.ofNat 32 (smpBase + 4 * i)

/-- `WR <reg>, <v>`. -/
def writeLine (r : Reg) (v : Word) : HostEvent := .write (regAddr r) .four v

/-- `w` of `OPTS`: 0 for width 8, 1 for 16 (R67). -/
def widthCode : ContainerWidth → Word
  | .w8 => 0
  | .w16 => 1

/-- `r` of `OPTS` and `PSET`: 0, 1, 2, 3 for rate 8000, 11025, 22050, 44100 (R67). -/
def rateCode : RateName → Word
  | .hz8000 => 0
  | .hz11025 => 1
  | .hz22050 => 2
  | .hz44100 => 3

/-- `t` of `PSET`: 0, 1, 2, 3, 4 for none, lowpass, highpass, bandpass, notch (R67). -/
def filterCode : FilterName → Word
  | .none => 0
  | .lowpass => 1
  | .highpass => 2
  | .bandpass => 3
  | .notch => 4

/-- The word that `OPTS` writes: `en | (w << 1) | (r << 2) | (noiseoff << 4) | (vol << 8)` (R67). The bits of `vol` that
the shift takes above bit 31 are dropped (DESIGN CHOICE, log 25). -/
def optsWord (width : ContainerWidth) (rate : RateName) (vol : Word) (noiseoff en : Bool) : Word :=
  bitAt 0 en ||| (widthCode width <<< 1) ||| (rateCode rate <<< 2) ||| bitAt 4 noiseoff ||| (vol <<< 8)

/-- The word that `PSET` writes: `bits | (r << 5) | (nafter << 7) | (t << 8)` (R67). -/
def psetWord (bits : Word) (trate : RateName) (nafter : Bool) (ftype : FilterName) : Word :=
  bits ||| (rateCode trate <<< 5) ||| bitAt 7 nafter ||| (filterCode ftype <<< 8)

/-- The transactions of a script line (R66) or a pseudo-instruction (R67). -/
def expand : ScriptLine → List HostEvent
  | .wr r v => [writeLine r v]
  | .rd r => [.read (regAddr r) .four]
  | .wrb a v => [.write (pcmAddr a) .one v]
  | .wrh a v => [.write (pcmAddr a) .two v]
  | .rdb a => [.read (pcmAddr a) .one]
  | .rdh a => [.read (pcmAddr a) .two]
  | .wrs i v => [.write (smpAddr i) .four v]
  | .rds i => [.read (smpAddr i) .four]
  | .cmd i => [issue (encode i)]
  | .wrf r neg num den => [writeLine r (rn32 neg num den)]
  | .wrsf i neg num den => [.write (smpAddr i) .four (rn32 neg num den)]
  | .fxnone => [issue (encode (.loadp 0))]
  | .opts width rate vol noiseoff en => [writeLine .ctrl (optsWord width rate vol noiseoff en)]
  | .pset bits trate nafter ftype => [writeLine .pcfg (psetWord bits trate nafter ftype)]
  | .call len => [writeLine .len len, issue (encode .process)]

/-- The events of a script, in order (R51). -/
def script (lines : List ScriptLine) : List HostEvent := lines.flatMap expand

end Sys2Proof.Machine
end

