-- ==== Sys2Proof/Safety.lean ====
section
/-! DEFINITION. What the claims speak of: the invariant of the reachable states, and the document's own block loop, to which
the sequencer is held. -/

namespace Sys2Proof.Machine

/-- Both memories are in canonical form and list only addresses that exist (R27, R28, R42). -/
structure MemoriesOk (s : State) : Prop where
  pcmWf : Memory.wf s.pcm
  pcmWithin : Memory.within s.par.pcmBytes s.pcm
  smpWf : Memory.wf s.smp
  smpWithin : Memory.within (4 * smpWords s.par) s.smp

/-- What `STATUS.CFG_VALID = 1` promises: the derived-state invariant of R86, with the sequencer's position of R13 and
R14. -/
structure ConfiguredOk (s : State) : Prop where
  lengthOk : lenOk s = true
  parametersOk : cfgOk s = true
  derivedCurrent : s.drv = derive s
  blockPositive : 1 ≤ s.drv.blk.toNat
  indexBounded : s.seq.idx.toNat ≤ nsmp s
  phaseInBlock : s.seq.ph.toNat = s.seq.idx.toNat % s.drv.blk.toNat

/-- The invariant that every step keeps: the parameters are legal (R3), the generator is not 0 (R18), the memories are
well-formed, `CFG_VALID` keeps its promise (R86), and a nonzero `PID` names the record the active preset equals (R20). -/
structure MachineInv (s : State) : Prop where
  paramsLegal : paramsOk s.par = true
  lfsrNonzero : s.lfsr ≠ 0
  memories : MemoriesOk s
  configured : s.status.cfgValid = true → ConfiguredOk s
  presetNamed : s.status.pid ≠ 0 → romRecord s.par s.status.pid.toNat = some s.preset

/-- `S[j] <- v` for `j = from, from + 1, ...`, so many slots (R123). -/
def fillSlots (start : Nat) (v : F32) : Nat → State → State
  | 0, s => s
  | n + 1, s => fillSlots (start + 1) v n (setSmpWord start v s)

/-- The document's loop (R123): for `b = 0, B, 2B, ...` while `b < n`: run the chain on `S[b]` and write the value into the
slots `b .. min(b + B, n) - 1`. At most `fuel` blocks. -/
def blockLoop (blockSize n : Nat) : Nat → Nat → State → State
  | 0, _, s => s
  | fuel + 1, b, s =>
    if b < n then
      let r := chainValue (smpWord s b) s
      blockLoop blockSize n fuel (b + blockSize) (fillSlots b r.1 (min (b + blockSize) n - b) r.2)
    else s

/-- The next state of an outcome, if it is one. -/
def nextOf : Host.Outcome State Fault Refusal → Option State
  | .next t => some t
  | .fault _ => none
  | .refused _ => none

/-- The state after a list of commands, each of which must answer a next state. -/
def runCommands : List Instr → State → Option State
  | [], s => some s
  | i :: is, s => (nextOf (exec i s)).bind (runCommands is)

/-- The state after a list of HOST events taken in order (R51), each of which must answer a next state. -/
def runEvents : List HostEvent → State → Option State
  | [], s => some s
  | e :: es, s => (nextOf (takeEvent e s)).bind (runEvents es)

/-- A transaction that R45 and R46 allow: aligned, inside one window, of a size the window takes. -/
def transactionAllowed (p : Params) (addr : Word) (size : AccessSize) : Prop :=
  let a := addr.toNat
  let n := AccessSize.bytes size
  a % n = 0 ∧
    ((0x10000000 ≤ a ∧ a + n ≤ 0x10000000 + p.pcmBytes) ∨
      (n = 4 ∧ (a < 0x60 ∨ (0x20000000 ≤ a ∧ a + 4 ≤ 0x20000000 + 4 * p.pcmBytes))))

end Sys2Proof.Machine
end

