-- ==== Sys2Proof/Certificates/Slice0/Obligations.lean ====
section
/-! DEFINITION. The statements for the provers, one definition each, listed in OBLIGATIONS.json. They come from the numbered
rules of spec/, file by file. Where a statement is about a next state, everything it does not name is unchanged: it gives the
whole next state, or the next state but for the memory it then describes byte by byte. -/

open Sys2Proof Sys2Proof.Machine

/-! ### Command words (30_encoding.md) -/

/-- Every well-formed command is what its word decodes to: no operand bit of an encoding is dropped (R61 to R63). -/
def Obligations.EncodedCommandDecodesToItself : Prop :=
  ∀ i : Instr, i.wellFormed = true → decode (encode i) = .ok i

/-- Every legal word is the word of the command it decodes to, and that command is well-formed (R61 to R64). -/
def Obligations.LegalWordIsTheWordOfItsCommand : Prop :=
  ∀ (cw : Word) (i : Instr), decode cw = .ok i → encode i = cw ∧ i.wellFormed = true

/-- R63: a word is a command exactly when `CW & mask = match` for that command's row, and no word satisfies two rows. -/
def Obligations.WordIsCommandWhenMaskedMatch : Prop :=
  (∀ (cw : Word) (i : Instr), decode cw = .ok i ↔
    (cw &&& 0xFFFFFFFF = 0x00 ∧ i = .nop) ∨ (cw &&& 0xFFFFFFFF = 0x01 ∧ i = .clrerr) ∨
    (cw &&& 0xFFFF00FF = 0x02 ∧ i = .loadp ((cw >>> 8).toNat % 2 ^ 8)) ∨ (cw &&& 0xFFFFFFFF = 0x03 ∧ i = .setup) ∨
    (cw &&& 0xFFFFFFFF = 0x10 ∧ i = .decode) ∨ (cw &&& 0xFFFFFFFF = 0x11 ∧ i = .encode) ∨
    (cw &&& 0x000000FF = 0x12 ∧ i = .lds (cw >>> 8).toNat) ∨ (cw &&& 0x000000FF = 0x13 ∧ i = .sts (cw >>> 8).toNat) ∨
    (cw &&& 0xFFFFFFFF = 0x20 ∧ i = .dist) ∨ (cw &&& 0xFFFFFFFF = 0x28 ∧ i = .bcr) ∨
    (cw &&& 0xFFFFFFFF = 0x30 ∧ i = .ndraw) ∨ (cw &&& 0xFFFFFFFF = 0x31 ∧ i = .noise) ∨
    (cw &&& 0xFFFFFFFF = 0x38 ∧ i = .bqclr) ∨ (cw &&& 0xFFFFFFFF = 0x39 ∧ i = .bq) ∨
    (cw &&& 0xFFFFFFFF = 0x40 ∧ i = .gain) ∨ (cw &&& 0xFFFFFFFF = 0x41 ∧ i = .chain) ∨
    (cw &&& 0xFFFFFFFF = 0x42 ∧ i = .step) ∨ (cw &&& 0xFFFFFFFF = 0x43 ∧ i = .run) ∨
    (cw &&& 0xFFFFFFFF = 0x44 ∧ i = .process)) ∧
  ∀ (cw : Word) (j k : Fin opcodeMap.length), opcodeMap[j].selects cw = true → opcodeMap[k].selects cw = true → j = k

/-- R64: the illegal words are those with an unused opcode, format-N words with a bit above 7 set, and `LOADP` words with a
bit above 15 set; such a word, written to `CMD`, raises IllegalCommand and changes nothing else. That the write itself is
answered OK (R50) is the model's reading of log 18, and that the answer is recorded in `resp` its choice of log 2. -/
def Obligations.IllegalWordRaisesIllegalCommand : Prop :=
  (∀ cw : Word, (∃ e, decode cw = .error e) ↔
    ((cw &&& 0xFF) ∉ ([0x00, 0x01, 0x02, 0x03, 0x10, 0x11, 0x12, 0x13, 0x20, 0x28, 0x30, 0x31, 0x38, 0x39, 0x40, 0x41, 0x42,
        0x43, 0x44] : List Word)) ∨
    ((cw &&& 0xFF) ∈ ([0x00, 0x01, 0x03, 0x10, 0x11, 0x20, 0x28, 0x30, 0x31, 0x38, 0x39, 0x40, 0x41, 0x42, 0x43,
        0x44] : List Word) ∧ cw >>> 8 ≠ 0) ∨
    (cw &&& 0xFF = 0x02 ∧ cw >>> 16 ≠ 0)) ∧
  ∀ (s : State) (cw : Word), (∃ e, decode cw = .error e) →
    takeEvent (issue cw) s = .next { s with
      status := { s.status with result := .illegalCommand, eCmd := true }, resp := some (.ok none) }

/-- Words written out from the encoding lines of the rules decode to their commands, one of each family, and three words that
V-E calls illegal are refused. -/
def Obligations.WordsOfTheEncodingTableDecode : Prop :=
  decode 0x00000000 = .ok .nop ∧ decode 0x00000602 = .ok (.loadp 6) ∧ decode 0x00000010 = .ok .decode ∧
  decode 0x00000312 = .ok (.lds 3) ∧ decode 0xFFFFFF12 = .ok (.lds 16777215) ∧ decode 0x00004013 = .ok (.sts 64) ∧
  decode 0x00000020 = .ok .dist ∧ decode 0x00000028 = .ok .bcr ∧ decode 0x00000031 = .ok .noise ∧
  decode 0x00000039 = .ok .bq ∧ decode 0x00000044 = .ok .process ∧
  decode 0x00010002 = .error (.reservedBits "LOADP") ∧ decode 0x80000044 = .error (.reservedBits "PROCESS") ∧
  decode 0x00000021 = .error (.unusedOpcode 0x21)

/-! ### The step (20_memory.md) -/

/-- A step takes the HOST's next event, whatever it is (R41, R50, R51; that the events wait in `inbox` is the model's choice,
log 1), and runs the decoded command: when that event writes a command's word to `CMD`, the step is `exec` of the command on the
state with the event taken, answered OK (R19, R50). -/
def Obligations.StepExecutesTheIssuedCommand : Prop :=
  (∀ (s : State) (e : HostEvent) (rest : List HostEvent), s.inbox = e :: rest →
    step s = takeEvent e { s with inbox := rest }) ∧
  ∀ (s : State) (cw : Word) (i : Instr) (rest : List HostEvent),
    s.inbox = .write 0x00000000 .four cw :: rest → decode cw = .ok i →
    i.wellFormed = true ∧
      ∃ t, exec i { s with inbox := rest } = .next t ∧ step s = .next { t with resp := some (.ok none) }

/-- With no event of the HOST waiting, a step changes nothing (the model's choice, log 1, for R173: the CORE is idle between
commands and that idleness has no architectural content). -/
def Obligations.IdleStepChangesNothing : Prop :=
  ∀ s : State, s.inbox = [] → step s = .next s

/-- Every step answers a next state, from every state: nothing faults, and nothing is refused (R2, R160, R163, R169). -/
def Obligations.EveryStepAnswersANextState : Prop :=
  ∀ s : State, ∃ t, step s = .next t

/-- The parameters of the core never change (R3, R10, R29: `PRESET_ROM` is read-only). -/
def Obligations.StepKeepsTheParameters : Prop :=
  ∀ s t : State, step s = .next t → t.par = s.par

/-! ### Results (60_exceptions.md) -/

/-- R163: a command that does not end OK changed nothing but `STATUS.RESULT` and the one sticky flag of its code. -/
def Obligations.FailingCommandChangesOnlyStatus : Prop :=
  ∀ (i : Instr) (s t : State), exec i s = .next t → t.status.result ≠ .ok →
    t = { s with status :=
      { s.status with
        result := t.status.result
        eLen := s.status.eLen || t.status.result == .invalidBufferLength
        eCfg := s.status.eCfg || t.status.result == .invalidConfiguration
        eCmd := s.status.eCmd || t.status.result == .illegalCommand
        eSeq := s.status.eSeq || t.status.result == .notConfigured
        eIdx := s.status.eIdx || t.status.result == .indexOutOfRange } }

/-- R161: which result each word written to `CMD` ends with, the first failing check of its command's pseudocode deciding. -/
def Obligations.CommandEndsWithTheFirstFailingCheck : Prop :=
  ∀ (cw : Word) (s t : State), takeEvent (issue cw) s = .next t →
    t.status.result =
      match decode cw with
      | .error _ => .illegalCommand
      | .ok .nop | .ok .clrerr | .ok .ndraw | .ok .bqclr => .ok
      | .ok (.loadp id) => if s.par.rom.length < id then .invalidConfiguration else .ok
      | .ok .setup =>
        if lenOk s = false then .invalidBufferLength else if cfgOk s = false then .invalidConfiguration else .ok
      | .ok .decode | .ok .encode => if lenOk s = false then .invalidBufferLength else .ok
      | .ok (.lds idx) | .ok (.sts idx) => if s.par.pcmBytes ≤ idx then .indexOutOfRange else .ok
      | .ok .dist | .ok .bcr | .ok .noise | .ok .bq | .ok .gain | .ok .chain | .ok .run =>
        if s.status.cfgValid = false then .notConfigured else .ok
      | .ok .step =>
        if s.status.cfgValid = false then .notConfigured
        else if nsmp s ≤ s.seq.idx.toNat then .indexOutOfRange else .ok
      | .ok .process =>
        if s.ctrl.en = false then .ok
        else if lenOk s = false then .invalidBufferLength
        else if cfgOk s = false then .invalidConfiguration else .ok

/-- A sticky flag that is set stays set through every step but `CLRERR` and `Reset` (R20, R81, R167). -/
def Obligations.StickyFlagsClearOnlyByClrerrOrReset : Prop :=
  ∀ (s t : State) (e : HostEvent) (rest : List HostEvent), s.inbox = e :: rest → e ≠ .reset → e ≠ issue 0x00000001 →
    step s = .next t →
    (s.status.eLen = true → t.status.eLen = true) ∧ (s.status.eCfg = true → t.status.eCfg = true) ∧
    (s.status.eCmd = true → t.status.eCmd = true) ∧ (s.status.eSeq = true → t.status.eSeq = true) ∧
    (s.status.eIdx = true → t.status.eIdx = true) ∧ (s.status.nanf = true → t.status.nanf = true)

/-! ### Status management, presets and set-up (41_preset_setup.md) -/

/-- R80: `NOP` sets `RESULT` to OK and changes nothing else. -/
def Obligations.NopOnlySetsResultOk : Prop :=
  decode 0x00000000 = .ok .nop ∧
  ∀ s : State, exec .nop s = .next { s with status := { s.status with result := .ok } }

/-- R81: `CLRERR` clears the six sticky bits and sets `RESULT` to OK, `CFG_VALID` and `PID` unchanged. -/
def Obligations.ClrerrClearsTheStickyBits : Prop :=
  decode 0x00000001 = .ok .clrerr ∧
  ∀ s : State, exec .clrerr s = .next { s with status :=
    { result := .ok, cfgValid := s.status.cfgValid, eLen := false, eCfg := false, eCmd := false, eSeq := false, eIdx := false,
      nanf := false, pid := s.status.pid } }

/-- R82: `LOADP 0` deselects; `LOADP id` copies record `id`, selects it and names it in `PID`; above `N_PRESETS` it raises
InvalidConfiguration. Both successes clear `CFG_VALID`. -/
def Obligations.LoadpCopiesTheNamedRecord : Prop :=
  (∀ id < 256, decode (0x02 ||| (BitVec.ofNat 32 id <<< 8)) = .ok (.loadp id)) ∧
  (∀ s : State, exec (.loadp 0) s = .next { s with
    ctrl := { s.ctrl with en := false }, status := { s.status with result := .ok, cfgValid := false } }) ∧
  (∀ (s : State) (id : Nat) (r : Preset), 1 ≤ id → s.par.rom[id - 1]? = some r →
    exec (.loadp id) s = .next { s with
      preset := r, ctrl := { s.ctrl with en := true },
      status := { s.status with result := .ok, cfgValid := false, pid := BitVec.ofNat 8 id } }) ∧
  ∀ (s : State) (id : Nat), s.par.rom.length < id →
    exec (.loadp id) s = .next { s with status := { s.status with result := .invalidConfiguration, eCfg := true } }

/-- R85: a valid `SETUP` loads `BLK`, `NORM` and the coefficients, zeroes `Z1, Z2, HOLD, PH, IDX` and sets `CFG_VALID`; else it
raises, the length first. What is checked is spelled out: the length condition of R31 and the nine conditions of R84, the block
size being that of `BlockSizeFollowsTheRateTable`; so is what is loaded: `NORM` by R90, the coefficients by R110 to R113. -/
def Obligations.SetupLoadsTheDerivedState : Prop :=
  decode 0x00000003 = .ok .setup ∧
  (∀ s : State, lenOk s = true → cfgOk s = true →
    exec .setup s = .next { s with
      drv := { blk := BitVec.ofNat 3 (blk0 s), norm := dnorm s.preset.drive, coef := bqcoef s.preset }
      filt := { z1 := 0x00000000, z2 := 0x00000000 }
      seq := { idx := 0, ph := 0, hold := 0x00000000 }
      status := { s.status with result := .ok, cfgValid := true } }) ∧
  (∀ s : State, lenOk s = false →
    exec .setup s = .next { s with status := { s.status with result := .invalidBufferLength, eLen := true } }) ∧
  (∀ s : State, lenOk s = true → cfgOk s = false →
    exec .setup s = .next { s with status := { s.status with result := .invalidConfiguration, eCfg := true } }) ∧
  (∀ s : State, lenOk s = true ↔
    s.len.toNat ≤ s.par.pcmBytes ∧ (s.ctrl.width = true → s.len.toNat % 2 = 0)) ∧
  (∀ s : State, cfgOk s = true ↔
    1 ≤ blk0 s ∧ (2 ≤ s.preset.bits.toNat ∧ s.preset.bits.toNat ≤ 16) ∧
    (fle 0x00000000 s.preset.drive = true ∧ fle s.preset.drive 0x3F800000 = true) ∧
    (fle 0x00000000 s.preset.nvol = true ∧ fle s.preset.nvol 0x3F800000 = true) ∧
    isFinite s.preset.gain = true ∧ s.ctrl.vol.toNat ≤ 100 ∧ s.preset.ftype.toNat ≤ 4 ∧
    (s.preset.ftype = 0 ∨
      (flt 0x00000000 s.preset.freq = true ∧ flt s.preset.freq 0x3F000000 = true) ∧
      (flt 0x00000000 s.preset.q = true ∧ isFinite s.preset.q = true))) ∧
  (∀ d : F32, dnorm d =
    if feq d 0x00000000 then 0x00000000 else fdiv 0x3F800000 (atan32 (fmul d 0x42C80000))) ∧
  ∀ p : Preset,
    let k := tan32 (fmul 0x40490FDB p.freq)
    let kq := fdiv k p.q
    let kk := fmul k k
    let bn := fdiv 0x3F800000 (fadd (fadd 0x3F800000 kq) kk)
    let b1 := fmul (fmul 0x40000000 (fsub kk 0x3F800000)) bn
    let b2 := fmul (fadd (fsub 0x3F800000 kq) kk) bn
    (p.ftype = 0 → bqcoef p = ⟨0x00000000, 0x00000000, 0x00000000, 0x00000000, 0x00000000⟩) ∧
    (p.ftype = 1 → bqcoef p = ⟨fmul kk bn, fmul 0x40000000 (fmul kk bn), fmul kk bn, b1, b2⟩) ∧
    (p.ftype = 2 → bqcoef p = ⟨bn, fmul 0xC0000000 bn, bn, b1, b2⟩) ∧
    (p.ftype = 3 → bqcoef p = ⟨fmul kq bn, 0x00000000, fneg (fmul kq bn), b1, b2⟩) ∧
    (p.ftype = 4 → bqcoef p = ⟨fmul (fadd 0x3F800000 kk) bn, b1, fmul (fadd 0x3F800000 kk) bn, b1, b2⟩)

/-- R83: the block size is the truncated quotient of the rates, by the table; with the permitted policy `clamp` a 0 of the
table is a 1. -/
def Obligations.BlockSizeFollowsTheRateTable : Prop :=
  ∀ s : State, blk0 s =
    let b := match s.ctrl.crate.toNat, s.preset.trate.toNat with
      | 0, 0 => 1
      | 1, 0 => 1 | 1, 1 => 1
      | 2, 0 => 2 | 2, 1 => 2 | 2, 2 => 1
      | 3, 0 => 5 | 3, 1 => 4 | 3, 2 => 2 | 3, 3 => 1
      | _, _ => 0
    match s.par.blkPolicy with
    | .fail => b
    | .clamp => max 1 b

/-! ### The codec (40_codec.md) -/

/-- R72: `DECODE` writes the `nsmp()` samples of the buffer into the sample array and changes nothing else; a bad length is
InvalidBufferLength. The number of samples is `LEN` divided by the sample's bytes (R31). -/
def Obligations.DecodeFillsTheSampleArray : Prop :=
  decode 0x00000010 = .ok .decode ∧
  (∀ s : State, nsmp s = s.len.toNat / (if s.ctrl.width then 2 else 1)) ∧
  (∀ s : State, lenOk s = true →
    ∃ t, exec .decode s = .next t ∧
      t = { s with smp := t.smp, status := { s.status with result := .ok } } ∧
      (∀ i < nsmp s, smpWord t i =
        fdiv (i2f (if s.ctrl.width then (pcmByte s (2 * i + 1) ++ pcmByte s (2 * i)).toInt else (pcmByte s i).toInt))
          (i2f (if s.ctrl.width then 32767 else 127))) ∧
      ∀ a, 4 * nsmp s ≤ a → smpByte t a = smpByte s a) ∧
  ∀ s : State, lenOk s = false →
    exec .decode s = .next { s with status := { s.status with result := .invalidBufferLength, eLen := true } }

/-- R74: `ENCODE` writes the `LEN` bytes of the buffer from the sample array, sets `NANF` if a product is a NaN, and changes
nothing else; a bad length is InvalidBufferLength. The number of samples is `LEN` divided by the sample's bytes (R31). -/
def Obligations.EncodeRewritesTheBuffer : Prop :=
  decode 0x00000011 = .ok .encode ∧
  (∀ s : State, nsmp s = s.len.toNat / (if s.ctrl.width then 2 else 1)) ∧
  (∀ s : State, lenOk s = true →
    ∃ t, exec .encode s = .next t ∧
      t = { s with pcm := t.pcm, status := { s.status with result := .ok, nanf := t.status.nanf } } ∧
      (t.status.nanf = true ↔ s.status.nanf = true ∨
        ∃ i < nsmp s, isNan (fmul (smpWord s i) (i2f (if s.ctrl.width then 32767 else 127))) = true) ∧
      (s.ctrl.width = false → ∀ i < nsmp s,
        pcmByte t i = BitVec.ofInt 8 (satTo (-128) 127 (fmul (smpWord s i) (i2f 127)))) ∧
      (s.ctrl.width = true → ∀ i < nsmp s,
        pcmByte t (2 * i + 1) ++ pcmByte t (2 * i) =
          BitVec.ofInt 16 (satTo (-32768) 32767 (fmul (smpWord s i) (i2f 32767)))) ∧
      ∀ a, s.len.toNat ≤ a → pcmByte t a = pcmByte s a) ∧
  ∀ s : State, lenOk s = false →
    exec .encode s = .next { s with status := { s.status with result := .invalidBufferLength, eLen := true } }

/-- R75: `LDS idx` copies sample word `idx` into `ACC`; an index not below `SMP_WORDS` is IndexOutOfRange. -/
def Obligations.LdsCopiesTheWordToAcc : Prop :=
  (∀ idx < 2 ^ 24, decode (0x12 ||| (BitVec.ofNat 32 idx <<< 8)) = .ok (.lds idx)) ∧
  (∀ (s : State) (idx : Nat), idx < s.par.pcmBytes →
    exec (.lds idx) s = .next { s with acc := smpWord s idx, status := { s.status with result := .ok } }) ∧
  ∀ (s : State) (idx : Nat), s.par.pcmBytes ≤ idx →
    exec (.lds idx) s = .next { s with status := { s.status with result := .indexOutOfRange, eIdx := true } }

/-- R76: `STS idx` copies `ACC` into sample word `idx` and leaves every other byte of both memories alone; an index not below
`SMP_WORDS` is IndexOutOfRange. -/
def Obligations.StsCopiesAccToTheWord : Prop :=
  (∀ idx < 2 ^ 24, decode (0x13 ||| (BitVec.ofNat 32 idx <<< 8)) = .ok (.sts idx)) ∧
  (∀ (s : State) (idx : Nat), idx < s.par.pcmBytes →
    ∃ t, exec (.sts idx) s = .next t ∧
      t = { s with smp := t.smp, status := { s.status with result := .ok } } ∧
      smpWord t idx = s.acc ∧ ∀ a, (a < 4 * idx ∨ 4 * idx + 4 ≤ a) → smpByte t a = smpByte s a) ∧
  ∀ (s : State) (idx : Nat), s.par.pcmBytes ≤ idx →
    exec (.sts idx) s = .next { s with status := { s.status with result := .indexOutOfRange, eIdx := true } }

/-- R77: for every integer of either width, encoding its decoded sample gives it back; so `DECODE` then `ENCODE` leaves every
PCM byte as it was. -/
def Obligations.CodecRoundTripIsTheIdentity : Prop :=
  (∀ n : Int, -128 ≤ n → n ≤ 127 → satTo (-128) 127 (fmul (fdiv (i2f n) (i2f 127)) (i2f 127)) = n) ∧
  (∀ n : Int, -32768 ≤ n → n ≤ 32767 → satTo (-32768) 32767 (fmul (fdiv (i2f n) (i2f 32767)) (i2f 32767)) = n) ∧
  ∀ s : State, lenOk s = true →
    ∃ t u, exec .decode s = .next t ∧ exec .encode t = .next u ∧ ∀ a, pcmByte u a = pcmByte s a

/-- The encoder clamps and truncates toward zero (R73, R147): a NaN product gives 0, an infinite one a bound, and a finite one
its integer part brought into the range. -/
def Obligations.EncoderTruncatesAndClamps : Prop :=
  ∀ (lo hi : Int) (v : F32), ((lo = -128 ∧ hi = 127) ∨ (lo = -32768 ∧ hi = 32767)) →
    (isNan v = true → satTo lo hi v = 0) ∧
    (v = 0x7F800000 → satTo lo hi v = hi) ∧
    (v = 0xFF800000 → satTo lo hi v = lo) ∧
    (isFinite v = true → satTo lo hi v = max lo (min hi (Int.tdiv (fInt v) (2 ^ 149))))

/-! ### The units on `ACC` (42_waveshaper.md to 45_biquad_filter.md, 46_decimator_pipeline.md R120) -/

/-- R92: `DIST` replaces `ACC` by the distortion formula of R91, or keeps it when the drive is zero; without `CFG_VALID` it
raises NotConfigured. -/
def Obligations.DistAppliesTheWaveshaper : Prop :=
  decode 0x00000020 = .ok .dist ∧
  (∀ s : State, s.status.cfgValid = true → feq s.preset.drive 0x00000000 = true →
    exec .dist s = .next { s with status := { s.status with result := .ok } }) ∧
  (∀ s : State, s.status.cfgValid = true → feq s.preset.drive 0x00000000 = false →
    exec .dist s = .next { s with
      acc := fmul (fmul (atan32 (fmul (fmul s.preset.drive 0x42C80000) s.acc)) s.drv.norm)
        (fsub 0x3F800000 (fadd (fmul s.preset.drive s.preset.drive) (fsub 0x3F666666 s.preset.drive)))
      status := { s.status with result := .ok } }) ∧
  ∀ s : State, s.status.cfgValid = false →
    exec .dist s = .next { s with status := { s.status with result := .notConfigured, eSeq := true } }

/-- R97: `BCR` replaces `ACC` by `floor(ACC * mul) / mul` with `mul = 2^(BITS-1) - 1`; without `CFG_VALID` it raises
NotConfigured. -/
def Obligations.BcrAppliesTheQuantizer : Prop :=
  decode 0x00000028 = .ok .bcr ∧
  (∀ s : State, s.status.cfgValid = true →
    exec .bcr s = .next { s with
      acc := fdiv (ffloor (fmul s.acc (i2f (2 ^ (s.preset.bits.toNat - 1) - 1)))) (i2f (2 ^ (s.preset.bits.toNat - 1) - 1))
      status := { s.status with result := .ok } }) ∧
  ∀ s : State, s.status.cfgValid = false →
    exec .bcr s = .next { s with status := { s.status with result := .notConfigured, eSeq := true } }

/-- R98: for every `BITS` from 2 to 16, the grid value `n / mul` of every integer `n` with `|n| <= mul + 1` is its own
quantization, and so quantizing any `x` with `|x * mul| <= mul + 1` twice is quantizing it once, bit for bit. -/
def Obligations.QuantizationIsIdempotent : Prop :=
  ∀ bits : BitVec 5, 2 ≤ bits.toNat → bits.toNat ≤ 16 →
    (∀ n : Int, -(2 ^ (bits.toNat - 1)) ≤ n → n ≤ 2 ^ (bits.toNat - 1) →
      bitcrushAt bits (fdiv (i2f n) (crushScale bits)) = fdiv (i2f n) (crushScale bits)) ∧
    ∀ x : F32, fle (i2f (-(2 ^ (bits.toNat - 1)))) (fmul x (crushScale bits)) = true →
      fle (fmul x (crushScale bits)) (i2f (2 ^ (bits.toNat - 1))) = true →
      bitcrushAt bits (bitcrushAt bits x) = bitcrushAt bits x

/-- R107: `NDRAW` advances the generator by sixteen shifts and puts the draw of its new state into `ACC`. -/
def Obligations.NdrawTakesOneDraw : Prop :=
  decode 0x00000030 = .ok .ndraw ∧
  ∀ s : State, exec .ndraw s = .next { s with
    lfsr := lfsrShifts 16 s.lfsr
    acc := fdiv (i2f (((lfsrShifts 16 s.lfsr).toNat : Int) - 32768)) 0x46FFFE00
    status := { s.status with result := .ok } }

/-- R108: `NOISE` keeps `ACC` and the generator when the effective noise volume is zero; else it takes one draw and mixes it by
the formula of R106; without `CFG_VALID` it raises NotConfigured. -/
def Obligations.NoiseMixesOneDraw : Prop :=
  decode 0x00000031 = .ok .noise ∧
  (∀ s : State, s.status.cfgValid = true → (s.ctrl.noiseOff = true ∨ feq s.preset.nvol 0x00000000 = true) →
    exec .noise s = .next { s with status := { s.status with result := .ok } }) ∧
  (∀ s : State, s.status.cfgValid = true → s.ctrl.noiseOff = false → feq s.preset.nvol 0x00000000 = false →
    exec .noise s = .next { s with
      lfsr := lfsrShifts 16 s.lfsr
      acc := fadd (fmul s.acc (fsub 0x3F800000 s.preset.nvol))
        (fmul (fmul (fdiv (i2f (((lfsrShifts 16 s.lfsr).toNat : Int) - 32768)) 0x46FFFE00)
          (fdiv (i2f s.ctrl.vol.toNat) 0x42C80000)) s.preset.nvol)
      status := { s.status with result := .ok } }) ∧
  ∀ s : State, s.status.cfgValid = false →
    exec .noise s = .next { s with status := { s.status with result := .notConfigured, eSeq := true } }

/-- R116: `BQCLR` zeroes `Z1` and `Z2` and changes nothing else. -/
def Obligations.BqclrZeroesTheFilterState : Prop :=
  decode 0x00000038 = .ok .bqclr ∧
  ∀ s : State, exec .bqclr s = .next { s with
    filt := { z1 := 0x00000000, z2 := 0x00000000 }, status := { s.status with result := .ok } }

/-- R117: `BQ` keeps `ACC`, `Z1`, `Z2` when the type is none; else it makes one step of the recurrence of R114; without
`CFG_VALID` it raises NotConfigured. -/
def Obligations.BqStepsTheFilterOnce : Prop :=
  decode 0x00000039 = .ok .bq ∧
  (∀ s : State, s.status.cfgValid = true → s.preset.ftype = 0 →
    exec .bq s = .next { s with status := { s.status with result := .ok } }) ∧
  (∀ (s : State) (y : F32), s.status.cfgValid = true → s.preset.ftype ≠ 0 →
    y = fadd (fmul s.acc s.drv.coef.a0) s.filt.z1 →
    exec .bq s = .next { s with
      acc := y
      filt := { z1 := fsub (fadd (fmul s.acc s.drv.coef.a1) s.filt.z2) (fmul s.drv.coef.b1 y)
                z2 := fsub (fmul s.acc s.drv.coef.a2) (fmul s.drv.coef.b2 y) }
      status := { s.status with result := .ok } }) ∧
  ∀ s : State, s.status.cfgValid = false →
    exec .bq s = .next { s with status := { s.status with result := .notConfigured, eSeq := true } }

/-- The coefficients of R110 to R113 for the worked values of R119 (`k` = 1.0, and the reference `k` of 0.1), every type. -/
def Obligations.WorkedBiquadCoefficients : Prop :=
  coefsOf 1 0x3F800000 0x3F000000 = ⟨0x3E800000, 0x3F000000, 0x3E800000, 0x00000000, 0x00000000⟩ ∧
  coefsOf 2 0x3F800000 0x3F000000 = ⟨0x3E800000, 0xBF000000, 0x3E800000, 0x00000000, 0x00000000⟩ ∧
  coefsOf 3 0x3F800000 0x3F000000 = ⟨0x3F000000, 0x00000000, 0xBF000000, 0x00000000, 0x00000000⟩ ∧
  coefsOf 4 0x3F800000 0x3F000000 = ⟨0x3F000000, 0x00000000, 0x3F000000, 0x00000000, 0x00000000⟩ ∧
  coefsOf 1 0x3F800000 0x3F800000 = ⟨0x3EAAAAAB, 0x3F2AAAAB, 0x3EAAAAAB, 0x00000000, 0x3EAAAAAB⟩ ∧
  coefsOf 2 0x3F800000 0x3F800000 = ⟨0x3EAAAAAB, 0xBF2AAAAB, 0x3EAAAAAB, 0x00000000, 0x3EAAAAAB⟩ ∧
  coefsOf 3 0x3F800000 0x3F800000 = ⟨0x3EAAAAAB, 0x00000000, 0xBEAAAAAB, 0x00000000, 0x3EAAAAAB⟩ ∧
  coefsOf 4 0x3F800000 0x3F800000 = ⟨0x3F2AAAAB, 0x00000000, 0x3F2AAAAB, 0x00000000, 0x3EAAAAAB⟩ ∧
  coefsOf 1 0x3EA65BE0 0x3F3504F3 = ⟨0x3D8A25FE, 0x3E0A25FE, 0x3D8A25FE, 0xBF924D2F, 0x3ED35ABB⟩ ∧
  coefsOf 3 0x3EA65BE0 0x3F3504F3 = ⟨0x3E9652A3, 0x00000000, 0xBE9652A3, 0xBF924D2F, 0x3ED35ABB⟩ ∧
  fmul 0x40490FDB 0x3E800000 = 0x3F490FDB ∧ fmul 0x40490FDB 0x3DCCCCCD = 0x3EA0D97C

/-- R120: `GAIN` multiplies `ACC` by `P_GAIN`; without `CFG_VALID` it raises NotConfigured. -/
def Obligations.GainMultipliesAcc : Prop :=
  decode 0x00000040 = .ok .gain ∧
  (∀ s : State, s.status.cfgValid = true →
    exec .gain s = .next { s with acc := fmul s.acc s.preset.gain, status := { s.status with result := .ok } }) ∧
  ∀ s : State, s.status.cfgValid = false →
    exec .gain s = .next { s with status := { s.status with result := .notConfigured, eSeq := true } }

/-! ### The chain, the sequencer and the whole call (46_decimator_pipeline.md) -/

/-- R122: `CHAIN` is the command sequence `NOISE; BCR; DIST; BQ; GAIN`, or `BCR; NOISE; DIST; BQ; GAIN` when `NAFTER` is set;
without `CFG_VALID` it raises NotConfigured. -/
def Obligations.ChainIsTheSequenceOfUnitCommands : Prop :=
  decode 0x00000041 = .ok .chain ∧
  (∀ s : State, s.status.cfgValid = true → s.preset.nafter = false →
    ∃ t, exec .chain s = .next t ∧ runCommands [.noise, .bcr, .dist, .bq, .gain] s = some t ∧
      t = { s with acc := t.acc, lfsr := t.lfsr, filt := t.filt, status := { s.status with result := .ok } }) ∧
  (∀ s : State, s.status.cfgValid = true → s.preset.nafter = true →
    ∃ t, exec .chain s = .next t ∧ runCommands [.bcr, .noise, .dist, .bq, .gain] s = some t ∧
      t = { s with acc := t.acc, lfsr := t.lfsr, filt := t.filt, status := { s.status with result := .ok } }) ∧
  ∀ s : State, s.status.cfgValid = false →
    exec .chain s = .next { s with status := { s.status with result := .notConfigured, eSeq := true } }

/-- R125: `STEP` at a block start (`PH = 0`) runs the chain once on `SMP[IDX]`, holds and writes its value; inside a block it
writes the held value; both advance `PH` and `IDX` and leave every other byte alone. It raises NotConfigured, then
IndexOutOfRange. -/
def Obligations.StepAdvancesTheSequencerBySlot : Prop :=
  decode 0x00000042 = .ok .step ∧
  (∀ (s : State) (r : F32 × State), s.status.cfgValid = true → s.seq.idx.toNat < nsmp s → s.seq.ph = 0 →
    r = chainValue (smpWord s s.seq.idx.toNat) s →
    ∃ t, exec .step s = .next t ∧
      t = { s with
            lfsr := r.2.lfsr
            filt := r.2.filt
            smp := t.smp
            seq := { idx := s.seq.idx + 1, ph := if s.drv.blk.toNat = 1 then 0 else 1, hold := r.1 }
            status := { s.status with result := .ok } } ∧
      smpWord t s.seq.idx.toNat = r.1 ∧
      ∀ a, (a < 4 * s.seq.idx.toNat ∨ 4 * s.seq.idx.toNat + 4 ≤ a) → smpByte t a = smpByte s a) ∧
  (∀ s : State, s.status.cfgValid = true → s.seq.idx.toNat < nsmp s → s.seq.ph ≠ 0 →
    ∃ t, exec .step s = .next t ∧
      t = { s with
            smp := t.smp
            seq := { idx := s.seq.idx + 1
                     ph := if s.seq.ph.toNat + 1 = s.drv.blk.toNat then 0 else s.seq.ph + 1
                     hold := s.seq.hold }
            status := { s.status with result := .ok } } ∧
      smpWord t s.seq.idx.toNat = s.seq.hold ∧
      ∀ a, (a < 4 * s.seq.idx.toNat ∨ 4 * s.seq.idx.toNat + 4 ≤ a) → smpByte t a = smpByte s a) ∧
  (∀ s : State, s.status.cfgValid = false →
    exec .step s = .next { s with status := { s.status with result := .notConfigured, eSeq := true } }) ∧
  ∀ s : State, s.status.cfgValid = true → nsmp s ≤ s.seq.idx.toNat →
    exec .step s = .next { s with status := { s.status with result := .indexOutOfRange, eIdx := true } }

/-- `RUN` completes whenever `CFG_VALID` is set, ends with `IDX = nsmp()` and, for a positive block size, `PH = nsmp() mod BLK`,
touches only the first `nsmp()` sample words, leaves in `HOLD` the value of the last slot, and on the empty array only zeroes the
five registers (R126). -/
def Obligations.RunWalksTheWholeArray : Prop :=
  decode 0x00000043 = .ok .run ∧
  (∀ s : State, s.status.cfgValid = true →
    ∃ t, exec .run s = .next t ∧
      t = { s with lfsr := t.lfsr, filt := t.filt, smp := t.smp, seq := t.seq, status := { s.status with result := .ok } } ∧
      t.seq.idx.toNat = nsmp s ∧
      (1 ≤ s.drv.blk.toNat → t.seq.ph.toNat = nsmp s % s.drv.blk.toNat) ∧
      (∀ a, 4 * nsmp s ≤ a → smpByte t a = smpByte s a) ∧
      (0 < nsmp s → t.seq.hold = smpWord t (nsmp s - 1)) ∧
      (nsmp s = 0 → t = { s with
        filt := { z1 := 0x00000000, z2 := 0x00000000 }
        seq := { idx := 0, ph := 0, hold := 0x00000000 }
        status := { s.status with result := .ok } })) ∧
  ∀ s : State, s.status.cfgValid = false →
    exec .run s = .next { s with status := { s.status with result := .notConfigured, eSeq := true } }

/-- R123: the sequencer of `RUN` computes the document's block loop: the same sample bytes, filter state and generator, from
the fresh filter state, for every block size. -/
def Obligations.RunRefinesTheDocumentsBlockLoop : Prop :=
  ∀ s : State, s.status.cfgValid = true → 1 ≤ s.drv.blk.toNat →
    ∃ t, exec .run s = .next t ∧
      (∀ a, smpByte t a =
        smpByte (blockLoop s.drv.blk.toNat (nsmp s) (nsmp s) 0 { s with filt := { z1 := 0x00000000, z2 := 0x00000000 } }) a) ∧
      t.filt = (blockLoop s.drv.blk.toNat (nsmp s) (nsmp s) 0 { s with filt := { z1 := 0x00000000, z2 := 0x00000000 } }).filt ∧
      t.lfsr = (blockLoop s.drv.blk.toNat (nsmp s) (nsmp s) 0 { s with filt := { z1 := 0x00000000, z2 := 0x00000000 } }).lfsr

/-- After `SETUP`, `nsmp()` consecutive `STEP` commands have the same effect as `RUN` (R125). -/
def Obligations.StepsAfterSetupEqualRun : Prop :=
  ∀ s : State, lenOk s = true → cfgOk s = true →
    ∃ u t, exec .setup s = .next u ∧ exec .run u = .next t ∧ runCommands (List.replicate (nsmp s) .step) u = some t

/-- `PROCESS` with `EN` clear is a passthrough; with `EN` set and a valid configuration it is `SETUP; DECODE; RUN; ENCODE`; else
it raises as `SETUP` does, with nothing else changed (R127). -/
def Obligations.ProcessIsTheWholeCall : Prop :=
  decode 0x00000044 = .ok .process ∧
  (∀ s : State, s.ctrl.en = false → exec .process s = .next { s with status := { s.status with result := .ok } }) ∧
  (∀ s : State, s.ctrl.en = true → lenOk s = true → cfgOk s = true →
    ∃ t, exec .process s = .next t ∧ runCommands [.setup, .decode, .run, .encode] s = some t ∧
      t = { s with
        drv := { blk := BitVec.ofNat 3 (blk0 s), norm := dnorm s.preset.drive, coef := bqcoef s.preset }
        filt := t.filt
        seq := { idx := BitVec.ofNat 25 (nsmp s), ph := BitVec.ofNat 3 (nsmp s % blk0 s), hold := t.seq.hold }
        lfsr := t.lfsr
        pcm := t.pcm
        smp := t.smp
        status := { s.status with result := .ok, cfgValid := true, nanf := t.status.nanf } } ∧
      (∀ a, s.len.toNat ≤ a → pcmByte t a = pcmByte s a) ∧ ∀ a, 4 * nsmp s ≤ a → smpByte t a = smpByte s a) ∧
  (∀ s : State, s.ctrl.en = true → lenOk s = false →
    exec .process s = .next { s with status := { s.status with result := .invalidBufferLength, eLen := true } }) ∧
  ∀ s : State, s.ctrl.en = true → lenOk s = true → cfgOk s = false →
    exec .process s = .next { s with status := { s.status with result := .invalidConfiguration, eCfg := true } }

/-- Block hold (R129 item 1): after a successful `PROCESS` every sample, and every encoded integer, equals that of the first
slot of its block, in the partial last block too. -/
def Obligations.ProcessHoldsEachBlock : Prop :=
  ∀ s : State, s.ctrl.en = true → lenOk s = true → cfgOk s = true →
    ∃ t, exec .process s = .next t ∧ ∀ j < nsmp s,
      smpWord t j = smpWord t (blk0 s * (j / blk0 s)) ∧ pcmInt t j = pcmInt t (blk0 s * (j / blk0 s))

/-- Silence (R129 item 4): with effective noise volume zero, all-zero PCM bytes in give all-zero PCM bytes out, for every
accepted configuration. R129 asks for a finite `NORM` and non-NaN coefficients; without them every value of the chain is a zero or a
NaN by R141, and the encoder sends both to 0 (R147, R74). -/
def Obligations.SilenceStaysSilence : Prop :=
  ∀ s : State, s.ctrl.en = true → lenOk s = true → cfgOk s = true → feq (nvEff s) 0x00000000 = true →
    (∀ a < s.len.toNat, pcmByte s a = 0) →
    ∃ t, exec .process s = .next t ∧ ∀ a < s.len.toNat, pcmByte t a = 0

/-- Draw count (R103, R129 item 6): a successful `PROCESS` advances the generator by one draw per block, `ceil(n / B)` in all,
or by none when the effective noise volume is zero. -/
def Obligations.ProcessDrawsOncePerBlock : Prop :=
  ∀ s : State, s.ctrl.en = true → lenOk s = true → cfgOk s = true →
    ∃ t, exec .process s = .next t ∧
      t.lfsr = if feq (nvEff s) 0x00000000 then s.lfsr
        else lfsrShifts (16 * ((nsmp s + blk0 s - 1) / blk0 s)) s.lfsr

/-- R109: a successful call's buffer is a function of the buffer, the parameters and, only if the effective noise volume is
nonzero, the generator: two states that agree on these give the same buffer, whatever else differs. -/
def Obligations.ProcessDependsOnlyOnItsArguments : Prop :=
  ∀ s u : State, s.ctrl.en = true → lenOk s = true → cfgOk s = true →
    u.par = s.par → u.ctrl = s.ctrl → u.len = s.len → u.preset = s.preset →
    (∀ a < s.len.toNat, pcmByte u a = pcmByte s a) →
    (feq (nvEff s) 0x00000000 = true ∨ u.lfsr = s.lfsr) →
    ∃ t v, exec .process s = .next t ∧ exec .process u = .next v ∧
      (∀ a < s.len.toNat, pcmByte v a = pcmByte t a) ∧
      (feq (nvEff s) 0x00000000 = true → t.lfsr = s.lfsr ∧ v.lfsr = u.lfsr)

/-! ### What changes what (10_state.md, 44_noise_gen.md) -/

/-- R103: the generator changes only by `Reset`, a HOST write to `LFSR`, `NDRAW`, or, with a nonzero effective noise volume,
`NOISE`, `CHAIN`, `STEP`, `RUN` and `PROCESS`. -/
def Obligations.OnlyDrawsAndHostWritesChangeTheGenerator : Prop :=
  ∀ s t : State, step s = .next t → t.lfsr ≠ s.lfsr →
    ∃ e rest, s.inbox = e :: rest ∧
      (e = .reset ∨ (∃ v, e = .write 0x00000028 .four v) ∨
        ∃ cw i, e = .write 0x00000000 .four cw ∧ decode cw = .ok i ∧
          (i = .ndraw ∨ (feq (nvEff s) 0x00000000 = false ∧
            (i = .noise ∨ i = .chain ∨ i = .step ∨ i = .run ∨ i = .process))))

/-- The commands that R11 says never read or write `ACC` behave the same whatever it holds, and keep it. -/
def Obligations.WholeArrayCommandsIgnoreAcc : Prop :=
  ∀ (i : Instr) (s t : State) (v : F32),
    (i = .nop ∨ i = .clrerr ∨ (∃ id, i = .loadp id) ∨ i = .setup ∨ i = .decode ∨ i = .encode ∨ i = .bqclr ∨ i = .step ∨
      i = .run ∨ i = .process) →
    exec i s = .next t → t.acc = s.acc ∧ exec i { s with acc := v } = .next { t with acc := v }

/-- R101: one shift is the feedback formula; it sends 0 to 0, and from any nonzero state the states repeat with period 65535 and pass
through every nonzero state in it; the first states from the seed are those listed. -/
def Obligations.GeneratorHasFullPeriod : Prop :=
  (∀ l : BitVec 16, lfsrShift l = (l >>> 1) ||| (((l ^^^ (l >>> 2) ^^^ (l >>> 3) ^^^ (l >>> 5)) &&& 1) <<< 15)) ∧
  lfsrShift 0 = 0 ∧
  (∀ l : BitVec 16, l ≠ 0 → lfsrShifts 65535 l = l) ∧
  (∀ l m : BitVec 16, l ≠ 0 → m ≠ 0 → ∃ k < 65535, lfsrShifts k l = m) ∧
  (List.range 17).map (fun k => lfsrShifts k 0xACE1) =
    [0xACE1, 0x5670, 0xAB38, 0x559C, 0x2ACE, 0x1567, 0x8AB3, 0x4559, 0x22AC, 0x9156, 0xC8AB, 0xE455, 0x722A, 0x3915, 0x1C8A,
      0x8E45, 0x4722]

/-- Every draw lies in [-1, 1], at the ends and at zero exactly where R102 says. -/
def Obligations.DrawLiesInTheUnitInterval : Prop :=
  (∀ l : BitVec 16, l ≠ 0 → fle 0xBF800000 (drawValue l) = true ∧ fle (drawValue l) 0x3F800000 = true) ∧
  drawValue 0x0001 = 0xBF800000 ∧ drawValue 0x8000 = 0x00000000 ∧ drawValue 0xFFFF = 0x3F800000

/-! ### The HOST's side (10_state.md R18 to R30, 20_memory.md R41 to R47) -/

/-- What every register reads. After a write of `v` (R18, R21 to R23, R25): `CTRL`, `LEN`, `PCFG` give `v` without their reserved
bits, `LFSR` the low 16 bits or 1 where they are zero, the float registers and `ACC` the pattern itself. In every state, with
nothing changed but the response (recorded in `resp`, log 2): `CMD` gives 0 (R19), `STATUS` the fields of R20 at their bits, `BUSY`
and the reserved bits 0, `CTRL` and `PCFG` theirs (R22, R21), and every other register its value, zero-extended (R11 to R18, R23,
R24). -/
def Obligations.RegistersReadBackWhatTheyStore : Prop :=
  (∀ (s : State) (v : Word),
    (∃ t, runEvents [.write 0x08 .four v, .read 0x08 .four] s = some t ∧ t.resp = some (.ok (some (v &&& 0x00007F1F)))) ∧
    (∃ t, runEvents [.write 0x0C .four v, .read 0x0C .four] s = some t ∧ t.resp = some (.ok (some (v &&& 0x01FFFFFF)))) ∧
    (∃ t, runEvents [.write 0x10 .four v, .read 0x10 .four] s = some t ∧ t.resp = some (.ok (some (v &&& 0x000007FF)))) ∧
    (∃ t, runEvents [.write 0x28 .four v, .read 0x28 .four] s = some t ∧
      t.resp = some (.ok (some (if v &&& 0x0000FFFF = 0 then 1 else v &&& 0x0000FFFF)))) ∧
    ∀ a ∈ ([0x14, 0x18, 0x1C, 0x20, 0x24, 0x2C] : List Word),
      ∃ t, runEvents [.write a .four v, .read a .four] s = some t ∧ t.resp = some (.ok (some v))) ∧
  ∀ s : State,
    (∀ p ∈ ([(0x00, 0), (0x30, s.drv.blk.setWidth 32), (0x34, s.seq.idx.setWidth 32), (0x38, s.seq.ph.setWidth 32),
        (0x3C, s.seq.hold), (0x40, s.drv.norm), (0x44, s.drv.coef.a0), (0x48, s.drv.coef.a1), (0x4C, s.drv.coef.a2),
        (0x50, s.drv.coef.b1), (0x54, s.drv.coef.b2), (0x58, s.filt.z1), (0x5C, s.filt.z2), (0x0C, s.len.setWidth 32),
        (0x14, s.preset.drive), (0x18, s.preset.nvol), (0x1C, s.preset.freq), (0x20, s.preset.q), (0x24, s.preset.gain),
        (0x28, s.lfsr.setWidth 32), (0x2C, s.acc)] : List (Word × Word)),
      takeEvent (.read p.1 .four) s = .next { s with resp := some (.ok (some p.2)) }) ∧
    (∃ w : Word, takeEvent (.read 0x08 .four) s = .next { s with resp := some (.ok (some w)) } ∧
      w.getLsbD 0 = s.ctrl.en ∧ w.getLsbD 1 = s.ctrl.width ∧ w.extractLsb' 2 2 = s.ctrl.crate ∧
      w.getLsbD 4 = s.ctrl.noiseOff ∧ w.extractLsb' 5 3 = 0 ∧ w.extractLsb' 8 7 = s.ctrl.vol ∧ w.extractLsb' 15 17 = 0) ∧
    (∃ w : Word, takeEvent (.read 0x10 .four) s = .next { s with resp := some (.ok (some w)) } ∧
      w.extractLsb' 0 5 = s.preset.bits ∧ w.extractLsb' 5 2 = s.preset.trate ∧ w.getLsbD 7 = s.preset.nafter ∧
      w.extractLsb' 8 3 = s.preset.ftype ∧ w.extractLsb' 11 21 = 0) ∧
    ∃ w : Word, takeEvent (.read 0x04 .four) s = .next { s with resp := some (.ok (some w)) } ∧
      w.extractLsb' 0 4 = (match s.status.result with
        | .ok => 0 | .invalidBufferLength => 1 | .invalidConfiguration => 2 | .illegalCommand => 3 | .notConfigured => 4
        | .indexOutOfRange => 5) ∧
      w.getLsbD 4 = s.status.cfgValid ∧ w.extractLsb' 5 3 = 0 ∧
      w.getLsbD 8 = s.status.eLen ∧ w.getLsbD 9 = s.status.eCfg ∧ w.getLsbD 10 = s.status.eCmd ∧
      w.getLsbD 11 = s.status.eSeq ∧ w.getLsbD 12 = s.status.eIdx ∧ w.getLsbD 13 = s.status.nanf ∧
      w.extractLsb' 14 10 = 0 ∧ w.extractLsb' 24 8 = s.status.pid

/-- What a HOST write to a register does, as the whole next state (R18, R21 to R26): it stores its field or fields and leaves
every other register and both memories alone, but that a write to `CTRL` or `LEN` clears `CFG_VALID`, and one to an active-preset
register `CFG_VALID` and `PID`. A write to `LFSR`, `ACC` or a memory touches no register but the one it names; one to a read-only
register changes nothing. (The answer is recorded in `resp`, log 2.) -/
def Obligations.ParameterWritesInvalidateTheSetup : Prop :=
  ∀ (s : State) (v : Word),
    takeEvent (.write 0x08 .four v) s = .next { s with
      ctrl := { en := v.getLsbD 0, width := v.getLsbD 1, crate := v.extractLsb' 2 2, noiseOff := v.getLsbD 4,
                vol := v.extractLsb' 8 7 }
      status := { s.status with cfgValid := false }
      resp := some (.ok none) } ∧
    takeEvent (.write 0x0C .four v) s = .next { s with
      len := v.extractLsb' 0 25, status := { s.status with cfgValid := false }, resp := some (.ok none) } ∧
    (∀ p ∈ ([(0x10, { s.preset with bits := v.extractLsb' 0 5, trate := v.extractLsb' 5 2, nafter := v.getLsbD 7,
                                    ftype := v.extractLsb' 8 3 }),
        (0x14, { s.preset with drive := v }), (0x18, { s.preset with nvol := v }), (0x1C, { s.preset with freq := v }),
        (0x20, { s.preset with q := v }), (0x24, { s.preset with gain := v })] : List (Word × Preset)),
      takeEvent (.write p.1 .four v) s = .next { s with
        preset := p.2, status := { s.status with cfgValid := false, pid := 0 }, resp := some (.ok none) }) ∧
    takeEvent (.write 0x28 .four v) s = .next { s with
      lfsr := if v.extractLsb' 0 16 = 0 then 1 else v.extractLsb' 0 16, resp := some (.ok none) } ∧
    takeEvent (.write 0x2C .four v) s = .next { s with acc := v, resp := some (.ok none) } ∧
    (∀ (a : Word) (n : AccessSize), 0x10000000 ≤ a.toNat →
      ∃ t, takeEvent (.write a n v) s = .next t ∧ t = { s with pcm := t.pcm, smp := t.smp, resp := t.resp }) ∧
    ∀ a ∈ ([0x04, 0x30, 0x34, 0x38, 0x3C, 0x40, 0x44, 0x48, 0x4C, 0x50, 0x54, 0x58, 0x5C] : List Word),
      takeEvent (.write a .four v) s = .next { s with resp := some (.ok none) }

/-- No read has a side effect and every allowed read is idempotent (R45, R46): it changes only the response, and the same read
again returns the same data. -/
def Obligations.ReadsHaveNoSideEffect : Prop :=
  ∀ (s : State) (a : Word) (n : AccessSize), transactionAllowed s.par a n →
    ∃ d, takeEvent (.read a n) s = .next { s with resp := some (.ok (some d)) } ∧
      takeEvent (.read a n) { s with resp := some (.ok (some d)) } = .next { s with resp := some (.ok (some d)) }

/-- R47, with the responses of R41: a transaction that R45 and R46 do not allow gets BusError and changes no state of the machine,
`STATUS` included. The rest is the model's: a refused read advances the counter of the undefined data (log 6), every answer is
recorded in `resp` (log 2), and an allowed write is answered OK, to `CMD` too whatever its command's result (R50; log 18). -/
def Obligations.DisallowedTransactionsGetBusError : Prop :=
  ∀ (s : State) (a : Word) (n : AccessSize),
    (¬ transactionAllowed s.par a n →
      (∀ v, takeEvent (.write a n v) s = .next { s with resp := some (.busError none) }) ∧
      ∃ d, takeEvent (.read a n) s = .next { s with resp := some (.busError (some d)), undef := s.undef + 1 }) ∧
    (transactionAllowed s.par a n → ∀ v, ∃ t, takeEvent (.write a n v) s = .next t ∧ t.resp = some (.ok none))

/-- R43 in both memory windows of R42. An allowed write of 1, 2 or 4 bytes in the PCM window, or of 4 in the SMP window, stores data
bits `8k+7 : 8k` at byte `k` and changes no other byte and nothing else; an allowed read gives the addressed bytes in that order
and changes nothing. So a 2-byte read of the upper half of a word written returns its upper bits. (Read data are zero-extended,
log 19; the answer is recorded in `resp`, log 2.) -/
def Obligations.MemoryWindowsAreLittleEndian : Prop :=
  (∀ (s : State) (a : Nat) (n : AccessSize), s.par.pcmBytes ≤ 2 ^ 24 → a % AccessSize.bytes n = 0 →
    a + AccessSize.bytes n ≤ s.par.pcmBytes →
    (∀ v : Word, ∃ t, takeEvent (.write (BitVec.ofNat 32 (0x10000000 + a)) n v) s = .next t ∧
      t = { s with pcm := t.pcm, resp := some (.ok none) } ∧
      (∀ k < AccessSize.bytes n, pcmByte t (a + k) = v.extractLsb' (8 * k) 8) ∧
      ∀ x, (x < a ∨ a + AccessSize.bytes n ≤ x) → pcmByte t x = pcmByte s x) ∧
    takeEvent (.read (BitVec.ofNat 32 (0x10000000 + a)) n) s = .next { s with
      resp := some (.ok (some (match n with
        | .one => (pcmByte s a).setWidth 32
        | .two => (pcmByte s (a + 1) ++ pcmByte s a).setWidth 32
        | .four => (pcmByte s (a + 3) ++ pcmByte s (a + 2) ++ pcmByte s (a + 1) ++ pcmByte s a).setWidth 32))) }) ∧
  (∀ (s : State) (a : Nat) (v : Word), s.par.pcmBytes ≤ 2 ^ 24 → a % 4 = 0 → a + 4 ≤ s.par.pcmBytes →
    ∃ t, runEvents [.write (BitVec.ofNat 32 (0x10000000 + a)) .four v, .read (BitVec.ofNat 32 (0x10000000 + a + 2)) .two] s
      = some t ∧ t.resp = some (.ok (some (v >>> 16)))) ∧
  ∀ (s : State) (i : Nat), s.par.pcmBytes ≤ 2 ^ 24 → i < s.par.pcmBytes →
    (∀ v : Word, ∃ t, takeEvent (.write (BitVec.ofNat 32 (0x20000000 + 4 * i)) .four v) s = .next t ∧
      t = { s with smp := t.smp, resp := some (.ok none) } ∧ smpWord t i = v ∧
      (∀ k < 4, smpByte t (4 * i + k) = v.extractLsb' (8 * k) 8) ∧
      ∀ x, (x < 4 * i ∨ 4 * i + 4 ≤ x) → smpByte t x = smpByte s x) ∧
    takeEvent (.read (BitVec.ofNat 32 (0x20000000 + 4 * i)) .four) s = .next { s with
      resp := some (.ok (some (smpWord s i))) } ∧
    smpWord s i =
      (smpByte s (4 * i + 3) ++ smpByte s (4 * i + 2) ++ smpByte s (4 * i + 1) ++ smpByte s (4 * i)).setWidth 32

/-- Every register reads its value of R30 in the machine's reset state, by the HOST's read too, and after a `Reset` event, which
leaves the parameters as before (R30, R180). The rest is the
model's: both memories list no byte, which stands for R180's unspecified contents (log 5, log 13), and the events still waiting
stay in `inbox` (log 1). -/
def Obligations.ResetRestoresEveryRegister : Prop :=
  (∀ r : Reg, readReg State.reset r = if r = .lfsr then 0x0000ACE1 else 0x00000000) ∧
  (∀ k < 24, takeEvent (.read (BitVec.ofNat 32 (4 * k)) .four) State.reset = .next { State.reset with
    resp := some (.ok (some (if k = 10 then 0x0000ACE1 else 0x00000000))) }) ∧
  ∀ s : State, ∃ t, takeEvent .reset s = .next t ∧ t.par = s.par ∧ t.inbox = s.inbox ∧ t.pcm = [] ∧ t.smp = [] ∧
    ∀ r : Reg, readReg t r = if r = .lfsr then 0x0000ACE1 else 0x00000000

/-! ### The invariant of the reachable states -/

/-- The invariant holds right after reset, whatever the open parameters are (R3, R30). -/
def Obligations.InvariantHoldsAtReset : Prop :=
  MachineInv State.reset

/-- Every step keeps the invariant, from every state: legal parameters, a nonzero generator (R18), well-formed memories, the
derived-state invariant of R86 with the sequencer's position (R13, R14), and the meaning of `PID` (R20). -/
def Obligations.EveryStepKeepsTheInvariant : Prop :=
  ∀ s t : State, MachineInv s → step s = .next t → MachineInv t

/-! ### Numerics (47_numerics.md) -/

/-- R141: each of the four operations on finite operands, when its exact result is below `(2 - 2^-24) * 2^127` in magnitude (here
`(2^25 - 1) * 2^252` units of 2^-149; at the bound itself log 10), has a finite result; and when its result is finite, it gives the `f32` nearest to the exact result,
and of two equally near ones the one whose fraction bit 0 is 0. Distances are in units of 2^-149 (sum), 2^-298 (product), and
scaled by the divisor (quotient). -/
def Obligations.ArithmeticRoundsToNearestEven : Prop :=
  (∀ a b : F32, isFinite a = true → isFinite b = true →
    (|fInt a + fInt b| < (2 ^ 25 - 1) * 2 ^ 252 → isFinite (fadd a b) = true) ∧
    (|fInt a - fInt b| < (2 ^ 25 - 1) * 2 ^ 252 → isFinite (fsub a b) = true) ∧
    (|fInt a * fInt b| < (2 ^ 25 - 1) * 2 ^ 401 → isFinite (fmul a b) = true) ∧
    (fInt b ≠ 0 → |fInt a * 2 ^ 149| < (2 ^ 25 - 1) * 2 ^ 252 * |fInt b| → isFinite (fdiv a b) = true)) ∧
  ∀ a b c : F32, isFinite a = true → isFinite b = true → isFinite c = true →
    (isFinite (fadd a b) = true →
      |fInt a + fInt b - fInt (fadd a b)| ≤ |fInt a + fInt b - fInt c| ∧
      (|fInt a + fInt b - fInt (fadd a b)| = |fInt a + fInt b - fInt c| → fInt c ≠ fInt (fadd a b) →
        (fadd a b).getLsbD 0 = false)) ∧
    (isFinite (fsub a b) = true →
      |fInt a - fInt b - fInt (fsub a b)| ≤ |fInt a - fInt b - fInt c| ∧
      (|fInt a - fInt b - fInt (fsub a b)| = |fInt a - fInt b - fInt c| → fInt c ≠ fInt (fsub a b) →
        (fsub a b).getLsbD 0 = false)) ∧
    (isFinite (fmul a b) = true →
      |fInt a * fInt b - fInt (fmul a b) * 2 ^ 149| ≤ |fInt a * fInt b - fInt c * 2 ^ 149| ∧
      (|fInt a * fInt b - fInt (fmul a b) * 2 ^ 149| = |fInt a * fInt b - fInt c * 2 ^ 149| → fInt c ≠ fInt (fmul a b) →
        (fmul a b).getLsbD 0 = false)) ∧
    (isFinite (fdiv a b) = true → fInt b ≠ 0 →
      |fInt a * 2 ^ 149 - fInt (fdiv a b) * fInt b| ≤ |fInt a * 2 ^ 149 - fInt c * fInt b| ∧
      (|fInt a * 2 ^ 149 - fInt (fdiv a b) * fInt b| = |fInt a * 2 ^ 149 - fInt c * fInt b| → fInt c ≠ fInt (fdiv a b) →
        (fdiv a b).getLsbD 0 = false))

/-- The special operands of R141: a NaN operand gives the canonical NaN, so do the four invalid combinations; dividing by a zero
or an infinity, an infinity with an operand that makes no invalid combination, exact zero results, the sign of every product and
quotient that is no NaN (so of one that underflows to a zero too), and an exact result beyond `(2 - 2^-24) * 2^127` (here
`(2^25 - 1) * 2^252` units of 2^-149) are as tabled. -/
def Obligations.SpecialOperandsGiveTheTabledResults : Prop :=
  (∀ a b : F32, isNan a = true ∨ isNan b = true →
    fadd a b = 0x7FC00000 ∧ fsub a b = 0x7FC00000 ∧ fmul a b = 0x7FC00000 ∧ fdiv a b = 0x7FC00000) ∧
  (∀ i ∈ ([0x7F800000, 0xFF800000] : List F32), fadd i (fneg i) = 0x7FC00000 ∧ fsub i i = 0x7FC00000 ∧
    ∀ z ∈ ([0x00000000, 0x80000000] : List F32), fmul z i = 0x7FC00000 ∧ fmul i z = 0x7FC00000) ∧
  (∀ x ∈ ([0x00000000, 0x80000000] : List F32), ∀ y ∈ ([0x00000000, 0x80000000] : List F32), fdiv x y = 0x7FC00000) ∧
  (∀ x ∈ ([0x7F800000, 0xFF800000] : List F32), ∀ y ∈ ([0x7F800000, 0xFF800000] : List F32), fdiv x y = 0x7FC00000) ∧
  (∀ x : F32, isFinite x = true →
    (fInt x ≠ 0 → ∀ z ∈ ([0x00000000, 0x80000000] : List F32), fdiv x z = 0x7F800000 ||| ((x ^^^ z) &&& 0x80000000)) ∧
    ∀ i ∈ ([0x7F800000, 0xFF800000] : List F32), fdiv x i = (x ^^^ i) &&& 0x80000000) ∧
  (∀ i ∈ ([0x7F800000, 0xFF800000] : List F32),
    fadd i i = i ∧ fsub i (fneg i) = i ∧
    (∀ j ∈ ([0x7F800000, 0xFF800000] : List F32), fmul i j = 0x7F800000 ||| ((i ^^^ j) &&& 0x80000000)) ∧
    ∀ x : F32, isFinite x = true →
      fadd i x = i ∧ fadd x i = i ∧ fsub i x = i ∧ fsub x i = fneg i ∧
      fdiv i x = 0x7F800000 ||| ((i ^^^ x) &&& 0x80000000) ∧
      (fInt x ≠ 0 → fmul i x = 0x7F800000 ||| ((i ^^^ x) &&& 0x80000000) ∧
        fmul x i = 0x7F800000 ||| ((i ^^^ x) &&& 0x80000000))) ∧
  (∀ a b : F32,
    (isNan (fmul a b) = false → (fmul a b).getLsbD 31 = (a ^^^ b).getLsbD 31) ∧
    (isNan (fdiv a b) = false → (fdiv a b).getLsbD 31 = (a ^^^ b).getLsbD 31)) ∧
  (fadd 0x80000000 0x80000000 = 0x80000000 ∧ fsub 0x80000000 0x00000000 = 0x80000000) ∧
  ∀ a b : F32, isFinite a = true → isFinite b = true →
    (fInt a + fInt b = 0 → ¬ (a = 0x80000000 ∧ b = 0x80000000) → fadd a b = 0x00000000) ∧
    (fInt a - fInt b = 0 → ¬ (a = 0x80000000 ∧ b = 0x00000000) → fsub a b = 0x00000000) ∧
    (fInt a * fInt b = 0 → fmul a b = (a ^^^ b) &&& 0x80000000) ∧
    (fInt a = 0 → fInt b ≠ 0 → fdiv a b = (a ^^^ b) &&& 0x80000000) ∧
    ((2 ^ 25 - 1) * 2 ^ 252 < fInt a + fInt b → fadd a b = 0x7F800000) ∧
    (fInt a + fInt b < -((2 ^ 25 - 1) * 2 ^ 252) → fadd a b = 0xFF800000) ∧
    ((2 ^ 25 - 1) * 2 ^ 252 < fInt a - fInt b → fsub a b = 0x7F800000) ∧
    (fInt a - fInt b < -((2 ^ 25 - 1) * 2 ^ 252) → fsub a b = 0xFF800000) ∧
    ((2 ^ 25 - 1) * 2 ^ 401 < |fInt a * fInt b| → fmul a b = 0x7F800000 ||| ((a ^^^ b) &&& 0x80000000)) ∧
    (fInt b ≠ 0 → (2 ^ 25 - 1) * 2 ^ 252 * |fInt b| < |fInt a * 2 ^ 149| →
      fdiv a b = 0x7F800000 ||| ((a ^^^ b) &&& 0x80000000))

/-- R145: on finite values the comparisons are those of the values; a NaN operand makes each false; infinities are the ends of
the order of the extended reals, equal only to themselves. -/
def Obligations.ComparisonsFollowTheValues : Prop :=
  ∀ a b : F32,
    (isFinite a = true → isFinite b = true →
      (feq a b = true ↔ fInt a = fInt b) ∧ (flt a b = true ↔ fInt a < fInt b) ∧ (fle a b = true ↔ fInt a ≤ fInt b)) ∧
    (isNan a = true ∨ isNan b = true → feq a b = false ∧ flt a b = false ∧ fle a b = false) ∧
    (isNan a = false → fle a 0x7F800000 = true ∧ fle 0xFF800000 a = true) ∧
    (isFinite a = true → flt a 0x7F800000 = true ∧ flt 0xFF800000 a = true ∧
      ∀ i ∈ ([0x7F800000, 0xFF800000] : List F32), feq a i = false ∧ feq i a = false) ∧
    (isFinite a = true → fle 0x7F800000 a = false ∧ fle a 0xFF800000 = false) ∧
    (flt 0x7F800000 a = false ∧ flt a 0xFF800000 = false) ∧
    (feq 0x7F800000 0x7F800000 = true ∧ feq 0xFF800000 0xFF800000 = true ∧ feq 0x7F800000 0xFF800000 = false ∧
      feq 0xFF800000 0x7F800000 = false ∧ flt 0xFF800000 0x7F800000 = true ∧ fle 0x7F800000 0xFF800000 = false)

/-- R143: the floor of a finite value is the largest integer not above it, exactly; zeros and infinities are kept, a NaN gives the
canonical NaN, a value between 0 and 1 gives `+0.0` and one between -1 and 0 gives `-1.0`. -/
def Obligations.FloorIsTheLargestIntegerNotAbove : Prop :=
  ∀ a : F32,
    (isFinite a = true → isFinite (ffloor a) = true ∧ fInt (ffloor a) = fInt a / 2 ^ 149 * 2 ^ 149) ∧
    (a = 0x00000000 ∨ a = 0x80000000 ∨ a = 0x7F800000 ∨ a = 0xFF800000 → ffloor a = a) ∧
    (isNan a = true → ffloor a = 0x7FC00000) ∧
    (flt 0x00000000 a = true → flt a 0x3F800000 = true → ffloor a = 0x00000000) ∧
    (flt 0xBF800000 a = true → flt a 0x00000000 = true → ffloor a = 0xBF800000)

/-- `ATAN` has the properties 2 to 7 of R148, whatever the open function and the open error bound are (log 7, log 9); item 7 is
stated where the real arctangent of the argument is defined, for finite ones. -/
def Obligations.AtanHasItsStatedProperties : Prop :=
  atan32 0x00000000 = 0x00000000 ∧ atan32 0x80000000 = 0x80000000 ∧
  (∀ x : F32, isNan x = false → atan32 (fneg x) = fneg (atan32 x)) ∧
  (∀ x y : F32, isNan x = false → isNan y = false → fle x y = true → fle (atan32 x) (atan32 y) = true) ∧
  (∀ x : F32, flt 0x00000000 x = true → flt 0x00000000 (atan32 x) = true) ∧
  (∀ x : F32, isNan x = false → fle (atan32 x) 0x3FC90FDB = true ∧ fle 0xBFC90FDB (atan32 x) = true) ∧
  atan32 0x7F800000 = 0x3FC90FDB ∧ atan32 0xFF800000 = 0xBFC90FDB ∧
  (∀ x : F32, isNan x = true → atan32 x = 0x7FC00000) ∧
  ∀ x : F32, isFinite x = true → |realOf (atan32 x) - Real.arctan (realOf x)| ≤ atanErr x

/-- `TAN` has the properties 2 to 4 of R149, whatever the open function and the open error bound are (log 8, log 9), and `SETUP`
evaluates it only inside the range: for every frequency it accepts, `PI32 * f` is in `0x00000001 .. 0x3FC90FDA`. -/
def Obligations.TanHasItsStatedProperties : Prop :=
  (∀ x : F32, 1 ≤ x.toNat → x.toNat ≤ 0x3FC90FDA → isFinite (tan32 x) = true ∧ flt 0x00000000 (tan32 x) = true) ∧
  (∀ x y : F32, 1 ≤ x.toNat → x.toNat ≤ y.toNat → y.toNat ≤ 0x3FC90FDA → fle (tan32 x) (tan32 y) = true) ∧
  (∀ x : F32, isNan x = true → tan32 x = 0x7FC00000) ∧
  (∀ x : F32, 1 ≤ x.toNat → x.toNat ≤ 0x3FC90FDA → |realOf (tan32 x) - Real.tan (realOf x)| ≤ tanErr x) ∧
  ∀ f : F32, flt 0x00000000 f = true → flt f 0x3F000000 = true →
    1 ≤ (fmul 0x40490FDB f).toNat ∧ (fmul 0x40490FDB f).toNat ≤ 0x3FC90FDA
end

