-- ==== Sys2Proof/Laws/Accuracy.lean ====
section
/-! SUPPORT. What the open error bounds promise, whatever their open excess is, and that their form leaves no bound out (R148 item 7,
R149 item 4). -/

namespace Sys2Proof.Machine

theorem atan_error_le {x : F32} (h : isFinite x = true) : |realOf (atan32 x) - Real.arctan (realOf x)| ≤ atanErr x := by
  rw [atanErr, if_pos h]
  exact le_add_of_nonneg_right (Config.atanErrSlack x).2

theorem tan_error_le {x : F32} (h : 1 ≤ x.toNat) (h' : x.toNat ≤ tanArgMax) :
    |realOf (tan32 x) - Real.tan (realOf x)| ≤ tanErr x := by
  rw [tanErr, if_pos ⟨h, h'⟩]
  exact le_add_of_nonneg_right (Config.tanErrSlack x).2

/-- Every bound of an error is the error and some excess: the form of `atanErr` and `tanErr` leaves no bound out. -/
theorem bound_eq_error_add_excess {error bound : ℝ} (h : error ≤ bound) : ∃ excess : NNReal, bound = error + excess :=
  ⟨⟨bound - error, sub_nonneg.2 h⟩, (add_sub_cancel error bound).symm⟩

end Sys2Proof.Machine
end

