-- ==== Sys2Proof/Laws/State.lean ====
section
/-! SUPPORT. One lemma per field per named update of the state, so that no later proof unfolds an update. -/

namespace Sys2Proof.Machine

@[simp] theorem setPcmByte_par (a : Nat) (b : Byte) (s : State) : (setPcmByte a b s).par = s.par := rfl
@[simp] theorem setPcmByte_status (a : Nat) (b : Byte) (s : State) : (setPcmByte a b s).status = s.status := rfl
@[simp] theorem setPcmByte_ctrl (a : Nat) (b : Byte) (s : State) : (setPcmByte a b s).ctrl = s.ctrl := rfl
@[simp] theorem setPcmByte_len (a : Nat) (b : Byte) (s : State) : (setPcmByte a b s).len = s.len := rfl
@[simp] theorem setPcmByte_preset (a : Nat) (b : Byte) (s : State) : (setPcmByte a b s).preset = s.preset := rfl
@[simp] theorem setPcmByte_drv (a : Nat) (b : Byte) (s : State) : (setPcmByte a b s).drv = s.drv := rfl
@[simp] theorem setPcmByte_filt (a : Nat) (b : Byte) (s : State) : (setPcmByte a b s).filt = s.filt := rfl
@[simp] theorem setPcmByte_seq (a : Nat) (b : Byte) (s : State) : (setPcmByte a b s).seq = s.seq := rfl
@[simp] theorem setPcmByte_lfsr (a : Nat) (b : Byte) (s : State) : (setPcmByte a b s).lfsr = s.lfsr := rfl
@[simp] theorem setPcmByte_acc (a : Nat) (b : Byte) (s : State) : (setPcmByte a b s).acc = s.acc := rfl
@[simp] theorem setPcmByte_pcm (a : Nat) (b : Byte) (s : State) : (setPcmByte a b s).pcm = Memory.set s.pcm a b := rfl
@[simp] theorem setPcmByte_smp (a : Nat) (b : Byte) (s : State) : (setPcmByte a b s).smp = s.smp := rfl
@[simp] theorem setPcmByte_epoch (a : Nat) (b : Byte) (s : State) : (setPcmByte a b s).epoch = s.epoch := rfl
@[simp] theorem setPcmByte_undef (a : Nat) (b : Byte) (s : State) : (setPcmByte a b s).undef = s.undef := rfl
@[simp] theorem setPcmByte_inbox (a : Nat) (b : Byte) (s : State) : (setPcmByte a b s).inbox = s.inbox := rfl
@[simp] theorem setPcmByte_resp (a : Nat) (b : Byte) (s : State) : (setPcmByte a b s).resp = s.resp := rfl

@[simp] theorem setSmpWord_par (i : Nat) (v : F32) (s : State) : (setSmpWord i v s).par = s.par := rfl
@[simp] theorem setSmpWord_status (i : Nat) (v : F32) (s : State) : (setSmpWord i v s).status = s.status := rfl
@[simp] theorem setSmpWord_ctrl (i : Nat) (v : F32) (s : State) : (setSmpWord i v s).ctrl = s.ctrl := rfl
@[simp] theorem setSmpWord_len (i : Nat) (v : F32) (s : State) : (setSmpWord i v s).len = s.len := rfl
@[simp] theorem setSmpWord_preset (i : Nat) (v : F32) (s : State) : (setSmpWord i v s).preset = s.preset := rfl
@[simp] theorem setSmpWord_drv (i : Nat) (v : F32) (s : State) : (setSmpWord i v s).drv = s.drv := rfl
@[simp] theorem setSmpWord_filt (i : Nat) (v : F32) (s : State) : (setSmpWord i v s).filt = s.filt := rfl
@[simp] theorem setSmpWord_seq (i : Nat) (v : F32) (s : State) : (setSmpWord i v s).seq = s.seq := rfl
@[simp] theorem setSmpWord_lfsr (i : Nat) (v : F32) (s : State) : (setSmpWord i v s).lfsr = s.lfsr := rfl
@[simp] theorem setSmpWord_acc (i : Nat) (v : F32) (s : State) : (setSmpWord i v s).acc = s.acc := rfl
@[simp] theorem setSmpWord_pcm (i : Nat) (v : F32) (s : State) : (setSmpWord i v s).pcm = s.pcm := rfl
@[simp] theorem setSmpWord_smp (i : Nat) (v : F32) (s : State) : (setSmpWord i v s).smp = storeBytes s.smp (4 * i) v .four := rfl
@[simp] theorem setSmpWord_epoch (i : Nat) (v : F32) (s : State) : (setSmpWord i v s).epoch = s.epoch := rfl
@[simp] theorem setSmpWord_undef (i : Nat) (v : F32) (s : State) : (setSmpWord i v s).undef = s.undef := rfl
@[simp] theorem setSmpWord_inbox (i : Nat) (v : F32) (s : State) : (setSmpWord i v s).inbox = s.inbox := rfl
@[simp] theorem setSmpWord_resp (i : Nat) (v : F32) (s : State) : (setSmpWord i v s).resp = s.resp := rfl

@[simp] theorem raise_par (c : ResultCode) (s : State) : (raise c s).par = s.par := rfl
@[simp] theorem raise_status (c : ResultCode) (s : State) : (raise c s).status = setSticky c { s.status with result := c } := rfl
@[simp] theorem raise_ctrl (c : ResultCode) (s : State) : (raise c s).ctrl = s.ctrl := rfl
@[simp] theorem raise_len (c : ResultCode) (s : State) : (raise c s).len = s.len := rfl
@[simp] theorem raise_preset (c : ResultCode) (s : State) : (raise c s).preset = s.preset := rfl
@[simp] theorem raise_drv (c : ResultCode) (s : State) : (raise c s).drv = s.drv := rfl
@[simp] theorem raise_filt (c : ResultCode) (s : State) : (raise c s).filt = s.filt := rfl
@[simp] theorem raise_seq (c : ResultCode) (s : State) : (raise c s).seq = s.seq := rfl
@[simp] theorem raise_lfsr (c : ResultCode) (s : State) : (raise c s).lfsr = s.lfsr := rfl
@[simp] theorem raise_acc (c : ResultCode) (s : State) : (raise c s).acc = s.acc := rfl
@[simp] theorem raise_pcm (c : ResultCode) (s : State) : (raise c s).pcm = s.pcm := rfl
@[simp] theorem raise_smp (c : ResultCode) (s : State) : (raise c s).smp = s.smp := rfl
@[simp] theorem raise_epoch (c : ResultCode) (s : State) : (raise c s).epoch = s.epoch := rfl
@[simp] theorem raise_undef (c : ResultCode) (s : State) : (raise c s).undef = s.undef := rfl
@[simp] theorem raise_inbox (c : ResultCode) (s : State) : (raise c s).inbox = s.inbox := rfl
@[simp] theorem raise_resp (c : ResultCode) (s : State) : (raise c s).resp = s.resp := rfl

@[simp] theorem done_par (s : State) : (done s).par = s.par := rfl
@[simp] theorem done_status (s : State) : (done s).status = { s.status with result := .ok } := rfl
@[simp] theorem done_ctrl (s : State) : (done s).ctrl = s.ctrl := rfl
@[simp] theorem done_len (s : State) : (done s).len = s.len := rfl
@[simp] theorem done_preset (s : State) : (done s).preset = s.preset := rfl
@[simp] theorem done_drv (s : State) : (done s).drv = s.drv := rfl
@[simp] theorem done_filt (s : State) : (done s).filt = s.filt := rfl
@[simp] theorem done_seq (s : State) : (done s).seq = s.seq := rfl
@[simp] theorem done_lfsr (s : State) : (done s).lfsr = s.lfsr := rfl
@[simp] theorem done_acc (s : State) : (done s).acc = s.acc := rfl
@[simp] theorem done_pcm (s : State) : (done s).pcm = s.pcm := rfl
@[simp] theorem done_smp (s : State) : (done s).smp = s.smp := rfl
@[simp] theorem done_epoch (s : State) : (done s).epoch = s.epoch := rfl
@[simp] theorem done_undef (s : State) : (done s).undef = s.undef := rfl
@[simp] theorem done_inbox (s : State) : (done s).inbox = s.inbox := rfl
@[simp] theorem done_resp (s : State) : (done s).resp = s.resp := rfl

@[simp] theorem drawU_par (s : State) : (drawU s).2.par = s.par := rfl
@[simp] theorem drawU_status (s : State) : (drawU s).2.status = s.status := rfl
@[simp] theorem drawU_ctrl (s : State) : (drawU s).2.ctrl = s.ctrl := rfl
@[simp] theorem drawU_len (s : State) : (drawU s).2.len = s.len := rfl
@[simp] theorem drawU_preset (s : State) : (drawU s).2.preset = s.preset := rfl
@[simp] theorem drawU_drv (s : State) : (drawU s).2.drv = s.drv := rfl
@[simp] theorem drawU_filt (s : State) : (drawU s).2.filt = s.filt := rfl
@[simp] theorem drawU_seq (s : State) : (drawU s).2.seq = s.seq := rfl
@[simp] theorem drawU_lfsr (s : State) : (drawU s).2.lfsr = lfsrShifts 16 s.lfsr := rfl
@[simp] theorem drawU_acc (s : State) : (drawU s).2.acc = s.acc := rfl
@[simp] theorem drawU_pcm (s : State) : (drawU s).2.pcm = s.pcm := rfl
@[simp] theorem drawU_smp (s : State) : (drawU s).2.smp = s.smp := rfl
@[simp] theorem drawU_epoch (s : State) : (drawU s).2.epoch = s.epoch := rfl
@[simp] theorem drawU_undef (s : State) : (drawU s).2.undef = s.undef := rfl
@[simp] theorem drawU_inbox (s : State) : (drawU s).2.inbox = s.inbox := rfl
@[simp] theorem drawU_resp (s : State) : (drawU s).2.resp = s.resp := rfl

@[simp] theorem invalidate_par (s : State) : (invalidate s).par = s.par := rfl
@[simp] theorem invalidate_status (s : State) : (invalidate s).status = { s.status with cfgValid := false } := rfl
@[simp] theorem invalidate_ctrl (s : State) : (invalidate s).ctrl = s.ctrl := rfl
@[simp] theorem invalidate_len (s : State) : (invalidate s).len = s.len := rfl
@[simp] theorem invalidate_preset (s : State) : (invalidate s).preset = s.preset := rfl
@[simp] theorem invalidate_drv (s : State) : (invalidate s).drv = s.drv := rfl
@[simp] theorem invalidate_filt (s : State) : (invalidate s).filt = s.filt := rfl
@[simp] theorem invalidate_seq (s : State) : (invalidate s).seq = s.seq := rfl
@[simp] theorem invalidate_lfsr (s : State) : (invalidate s).lfsr = s.lfsr := rfl
@[simp] theorem invalidate_acc (s : State) : (invalidate s).acc = s.acc := rfl
@[simp] theorem invalidate_pcm (s : State) : (invalidate s).pcm = s.pcm := rfl
@[simp] theorem invalidate_smp (s : State) : (invalidate s).smp = s.smp := rfl
@[simp] theorem invalidate_epoch (s : State) : (invalidate s).epoch = s.epoch := rfl
@[simp] theorem invalidate_undef (s : State) : (invalidate s).undef = s.undef := rfl
@[simp] theorem invalidate_inbox (s : State) : (invalidate s).inbox = s.inbox := rfl
@[simp] theorem invalidate_resp (s : State) : (invalidate s).resp = s.resp := rfl

@[simp] theorem writePreset_par (p : Preset) (s : State) : (writePreset p s).par = s.par := rfl
@[simp] theorem writePreset_status (p : Preset) (s : State) : (writePreset p s).status = { s.status with cfgValid := false, pid := 0 } := rfl
@[simp] theorem writePreset_ctrl (p : Preset) (s : State) : (writePreset p s).ctrl = s.ctrl := rfl
@[simp] theorem writePreset_len (p : Preset) (s : State) : (writePreset p s).len = s.len := rfl
@[simp] theorem writePreset_preset (p : Preset) (s : State) : (writePreset p s).preset = p := rfl
@[simp] theorem writePreset_drv (p : Preset) (s : State) : (writePreset p s).drv = s.drv := rfl
@[simp] theorem writePreset_filt (p : Preset) (s : State) : (writePreset p s).filt = s.filt := rfl
@[simp] theorem writePreset_seq (p : Preset) (s : State) : (writePreset p s).seq = s.seq := rfl
@[simp] theorem writePreset_lfsr (p : Preset) (s : State) : (writePreset p s).lfsr = s.lfsr := rfl
@[simp] theorem writePreset_acc (p : Preset) (s : State) : (writePreset p s).acc = s.acc := rfl
@[simp] theorem writePreset_pcm (p : Preset) (s : State) : (writePreset p s).pcm = s.pcm := rfl
@[simp] theorem writePreset_smp (p : Preset) (s : State) : (writePreset p s).smp = s.smp := rfl
@[simp] theorem writePreset_epoch (p : Preset) (s : State) : (writePreset p s).epoch = s.epoch := rfl
@[simp] theorem writePreset_undef (p : Preset) (s : State) : (writePreset p s).undef = s.undef := rfl
@[simp] theorem writePreset_inbox (p : Preset) (s : State) : (writePreset p s).inbox = s.inbox := rfl
@[simp] theorem writePreset_resp (p : Preset) (s : State) : (writePreset p s).resp = s.resp := rfl

@[simp] theorem holdSlot_par (s : State) : (holdSlot s).par = s.par := rfl
@[simp] theorem holdSlot_status (s : State) : (holdSlot s).status = s.status := rfl
@[simp] theorem holdSlot_ctrl (s : State) : (holdSlot s).ctrl = s.ctrl := rfl
@[simp] theorem holdSlot_len (s : State) : (holdSlot s).len = s.len := rfl
@[simp] theorem holdSlot_preset (s : State) : (holdSlot s).preset = s.preset := rfl
@[simp] theorem holdSlot_drv (s : State) : (holdSlot s).drv = s.drv := rfl
@[simp] theorem holdSlot_filt (s : State) : (holdSlot s).filt = s.filt := rfl
@[simp] theorem holdSlot_seq (s : State) : (holdSlot s).seq = { s.seq with ph := nextPhase s.seq.ph s.drv.blk, idx := s.seq.idx + 1 } := rfl
@[simp] theorem holdSlot_lfsr (s : State) : (holdSlot s).lfsr = s.lfsr := rfl
@[simp] theorem holdSlot_acc (s : State) : (holdSlot s).acc = s.acc := rfl
@[simp] theorem holdSlot_pcm (s : State) : (holdSlot s).pcm = s.pcm := rfl
@[simp] theorem holdSlot_smp (s : State) : (holdSlot s).smp = storeBytes s.smp (4 * s.seq.idx.toNat) s.seq.hold .four := rfl
@[simp] theorem holdSlot_epoch (s : State) : (holdSlot s).epoch = s.epoch := rfl
@[simp] theorem holdSlot_undef (s : State) : (holdSlot s).undef = s.undef := rfl
@[simp] theorem holdSlot_inbox (s : State) : (holdSlot s).inbox = s.inbox := rfl
@[simp] theorem holdSlot_resp (s : State) : (holdSlot s).resp = s.resp := rfl

/-! ### The status register's own fields -/

@[simp] theorem setSticky_result (c : ResultCode) (st : Status) : (setSticky c st).result = st.result := by cases c <;> rfl
@[simp] theorem setSticky_cfgValid (c : ResultCode) (st : Status) : (setSticky c st).cfgValid = st.cfgValid := by cases c <;> rfl
@[simp] theorem setSticky_nanf (c : ResultCode) (st : Status) : (setSticky c st).nanf = st.nanf := by cases c <;> rfl
@[simp] theorem setSticky_pid (c : ResultCode) (st : Status) : (setSticky c st).pid = st.pid := by cases c <;> rfl
@[simp] theorem clearSticky_result (st : Status) : (clearSticky st).result = st.result := rfl
@[simp] theorem clearSticky_cfgValid (st : Status) : (clearSticky st).cfgValid = st.cfgValid := rfl
@[simp] theorem clearSticky_pid (st : Status) : (clearSticky st).pid = st.pid := rfl

/-! ### Functions of the state that read only some fields (R31) -/

/-- `bps()`, `len_ok()` and `nsmp()` depend on `CTRL.WIDTH`, `LEN` and the capacity alone. -/
theorem nsmp_congr {s t : State} (hc : t.ctrl = s.ctrl) (hl : t.len = s.len) : nsmp t = nsmp s := by
  simp [nsmp, bps, hc, hl]

theorem lenOk_congr {s t : State} (hc : t.ctrl = s.ctrl) (hl : t.len = s.len) (hp : t.par = s.par) : lenOk t = lenOk s := by
  have hb : bps t = bps s := by simp [bps, hc]
  unfold lenOk
  rw [hb, hl, hp]

theorem blk0_congr {s t : State} (hc : t.ctrl = s.ctrl) (hr : t.preset = s.preset) (hp : t.par = s.par) :
    blk0 t = blk0 s := by
  simp [blk0, hc, hr, hp]

theorem cfgOk_congr {s t : State} (hc : t.ctrl = s.ctrl) (hr : t.preset = s.preset) (hp : t.par = s.par) :
    cfgOk t = cfgOk s := by
  simp [cfgOk, blk0_congr hc hr hp, hc, hr]

theorem derive_congr {s t : State} (hc : t.ctrl = s.ctrl) (hr : t.preset = s.preset) (hp : t.par = s.par) :
    derive t = derive s := by
  simp [derive, blk0_congr hc hr hp, hr]

end Sys2Proof.Machine
end

