-- ==== Sys2Proof/Laws/Memory.lean ====
section
/-! SUPPORT. The memory laws: a read after a write, the canonical form and the address bound kept by every memory
operation, and the same for PCM bytes and sample words. -/

namespace Sys2Proof.Machine

/-! ### One byte -/

theorem Memory.get?_set_same (m : Memory) (a : Nat) (b : Byte) : Memory.get? (Memory.set m a b) a = some b := by
  induction m with
  | nil => simp [Memory.set, Memory.get?]
  | cons c m ih =>
    simp only [Memory.set]
    split
    · simp [Memory.get?]
    · split
      · simp [Memory.get?]
      · next h1 h2 => simp [Memory.get?, Ne.symm h2, ih]

theorem Memory.get?_set_other (m : Memory) {a x : Nat} (b : Byte) (h : x ≠ a) :
    Memory.get? (Memory.set m a b) x = Memory.get? m x := by
  induction m with
  | nil => simp [Memory.set, Memory.get?, Ne.symm h]
  | cons c m ih =>
    simp only [Memory.set]
    split
    · simp [Memory.get?, Ne.symm h]
    · split
      · next h1 h2 => simp [Memory.get?, Ne.symm h, ← h2]
      · simp [Memory.get?, ih]

/-- A read after a write: the written byte at its address, the old byte elsewhere. -/
theorem Memory.get?_set (m : Memory) (a x : Nat) (b : Byte) :
    Memory.get? (Memory.set m a b) x = if x = a then some b else Memory.get? m x := by
  by_cases h : x = a
  · subst h; simp [Memory.get?_set_same]
  · simp [Memory.get?_set_other m b h, h]

theorem Memory.mem_set {m : Memory} {a : Nat} {b : Byte} {c : Host.Cell} (h : c ∈ Memory.set m a b) :
    c = (a, b) ∨ c ∈ m := by
  induction m with
  | nil => simpa [Memory.set] using h
  | cons d m ih =>
    simp only [Memory.set] at h
    split at h
    · simpa using h
    · split at h
      · rcases List.mem_cons.1 h with h | h
        · exact .inl h
        · exact .inr (List.mem_cons_of_mem _ h)
      · rcases List.mem_cons.1 h with h | h
        · exact .inr (h ▸ List.mem_cons_self)
        · rcases ih h with h | h
          · exact .inl h
          · exact .inr (List.mem_cons_of_mem _ h)

theorem Memory.within_set {bound : Nat} {m : Memory} {a : Nat} (b : Byte) (hm : Memory.within bound m) (ha : a < bound) :
    Memory.within bound (Memory.set m a b) := by
  intro c hc
  rcases Memory.mem_set hc with rfl | hc
  · exact ha
  · exact hm c hc

/-- A write keeps the canonical form. -/
theorem Memory.wf_set {m : Memory} (a : Nat) (b : Byte) (hm : Memory.wf m) : Memory.wf (Memory.set m a b) := by
  induction m with
  | nil => simp [Memory.wf, Memory.set]
  | cons c m ih =>
    have hc := (List.pairwise_cons.1 hm).1
    have hm' := (List.pairwise_cons.1 hm).2
    simp only [Memory.set]
    split
    · next h => exact List.pairwise_cons.2 ⟨fun d hd => by
        rcases List.mem_cons.1 hd with rfl | hd
        · exact h
        · exact lt_trans h (hc d hd), hm⟩
    · split
      · next h => exact List.pairwise_cons.2 ⟨fun d hd => h ▸ hc d hd, hm'⟩
      · next h1 h2 =>
        refine List.pairwise_cons.2 ⟨fun d hd => ?_, ih hm'⟩
        rcases Memory.mem_set hd with rfl | hd
        · exact lt_of_le_of_ne (Nat.le_of_not_lt h1) (Ne.symm h2)
        · exact hc d hd

/-- Equal written contents are equal data: the canonical form is unique. -/
theorem Memory.ext_of_wf {m n : Memory} (hm : Memory.wf m) (hn : Memory.wf n)
    (h : ∀ a, Memory.get? m a = Memory.get? n a) : m = n := by
  have key : ∀ (m : Memory) (a : Nat), (∀ c ∈ m, a < c.1) → Memory.get? m a = none := by
    intro m a hm
    induction m with
    | nil => rfl
    | cons c m ih =>
      have hne : c.1 ≠ a := ne_of_gt (hm c (by simp))
      simp only [Memory.get?, if_neg hne]
      exact ih fun d hd => hm d (List.mem_cons_of_mem _ hd)
  induction m generalizing n with
  | nil =>
    cases n with
    | nil => rfl
    | cons d n => simpa [Memory.get?] using h d.1
  | cons c m ih =>
    cases n with
    | nil => simpa [Memory.get?] using h c.1
    | cons d n =>
      have hc := List.pairwise_cons.1 hm
      have hd := List.pairwise_cons.1 hn
      have hk : c.1 = d.1 := by
        rcases lt_trichotomy c.1 d.1 with hlt | heq | hgt
        · have h1 : Memory.get? (d :: n) c.1 = none := key _ _ fun e he => by
            rcases List.mem_cons.1 he with rfl | he
            · exact hlt
            · exact lt_trans hlt (hd.1 e he)
          have := h c.1
          simp [h1] at this
          simp [Memory.get?] at this
        · exact heq
        · have h1 : Memory.get? (c :: m) d.1 = none := key _ _ fun e he => by
            rcases List.mem_cons.1 he with rfl | he
            · exact hgt
            · exact lt_trans hgt (hc.1 e he)
          have := h d.1
          simp [h1] at this
          simp [Memory.get?] at this
      have hv : c.2 = d.2 := by
        have := h c.1
        simpa [Memory.get?, hk] using this
      have hcd : c = d := Prod.ext hk hv
      subst hcd
      refine congrArg _ (ih hc.2 hd.2 fun a => ?_)
      by_cases ha : c.1 = a
      · subst ha
        rw [key m c.1 hc.1, key n c.1 hd.1]
      · simpa [Memory.get?, ha] using h a

/-! ### Words and transactions -/

theorem storeBytes_wf {m : Memory} (a : Nat) (v : Word) (n : AccessSize) (hm : Memory.wf m) :
    Memory.wf (storeBytes m a v n) := by
  cases n <;> simp only [storeBytes] <;> repeat' first | exact hm | apply Memory.wf_set

theorem storeBytes_within {bound : Nat} {m : Memory} {a : Nat} (v : Word) (n : AccessSize)
    (hm : Memory.within bound m) (ha : a + AccessSize.bytes n ≤ bound) : Memory.within bound (storeBytes m a v n) := by
  cases n <;> simp only [AccessSize.bytes] at ha <;> simp only [storeBytes] <;>
    repeat' first | exact hm | (apply Memory.within_set (ha := by omega))

/-- A store writes byte `k` of the word at `a + k` (R43). -/
theorem storeBytes_get?_inside (m : Memory) {a x : Nat} (v : Word) (n : AccessSize) (h : a ≤ x)
    (hx : x < a + AccessSize.bytes n) : Memory.get? (storeBytes m a v n) x = some (byteOf v (x - a)) := by
  cases n <;> simp only [AccessSize.bytes] at hx <;> simp only [storeBytes, Memory.get?_set]
  · obtain rfl : x = a := by omega
    simp
  · obtain rfl | rfl : x = a ∨ x = a + 1 := by omega
    all_goals simp
  · obtain rfl | rfl | rfl | rfl : x = a ∨ x = a + 1 ∨ x = a + 2 ∨ x = a + 3 := by omega
    all_goals simp

/-- A store writes nothing outside its bytes. -/
theorem storeBytes_get?_outside (m : Memory) {a x : Nat} (v : Word) (n : AccessSize)
    (h : x < a ∨ a + AccessSize.bytes n ≤ x) : Memory.get? (storeBytes m a v n) x = Memory.get? m x := by
  cases n <;> simp only [AccessSize.bytes] at h <;> simp only [storeBytes]
  · rw [Memory.get?_set_other _ _ (by omega)]
  · rw [Memory.get?_set_other _ _ (by omega), Memory.get?_set_other _ _ (by omega)]
  · rw [Memory.get?_set_other _ _ (by omega), Memory.get?_set_other _ _ (by omega),
      Memory.get?_set_other _ _ (by omega), Memory.get?_set_other _ _ (by omega)]

/-- The four bytes of a word, joined little-endian, are the word (R43). -/
theorem joinBytes_byteOf (v : Word) (read : Nat → Byte) (a : Nat) (h : ∀ k < 4, read (a + k) = byteOf v k) :
    joinBytes read a .four = v := by
  have h0 : read a = byteOf v 0 := h 0 (by omega)
  simp only [joinBytes, h0, h 1 (by omega), h 2 (by omega), h 3 (by omega), byteOf]
  apply BitVec.eq_of_getLsbD_eq
  intro i hi
  simp only [BitVec.getLsbD_setWidth, BitVec.getLsbD_append, BitVec.getLsbD_extractLsb', hi, decide_true, Bool.true_and]
  by_cases c0 : i < 8
  · simp [c0]
  · by_cases c1 : i - 8 < 8
    · simp only [c0, c1, if_false, if_true, decide_true, Bool.true_and]; congr 1; omega
    · by_cases c2 : i - 8 - 8 < 8
      · simp only [c0, c1, c2, if_false, if_true, decide_true, Bool.true_and]; congr 1; omega
      · have c3 : i - 8 - 8 - 8 < 8 := by omega
        simp only [c0, c1, c2, c3, if_false, decide_true, Bool.true_and]; congr 1; omega

/-- Byte `k` of four joined bytes is the byte read at `a + k` (R43). -/
theorem byteOf_joinBytes (read : Nat → Byte) (a : Nat) {k : Nat} (hk : k < 4) :
    byteOf (joinBytes read a .four) k = read (a + k) := by
  apply BitVec.eq_of_getLsbD_eq
  intro j hj
  simp only [byteOf, joinBytes, BitVec.getLsbD_extractLsb', BitVec.getLsbD_setWidth, BitVec.getLsbD_append, hj, decide_true,
    Bool.true_and]
  have : k = 0 ∨ k = 1 ∨ k = 2 ∨ k = 3 := by omega
  rcases this with rfl | rfl | rfl | rfl
  · simp [hj, show j < 32 by omega]
  · simp [show ¬ 8 + j < 8 by omega, show 8 + j < 32 by omega, show 8 + j - 8 = j by omega, hj]
  · simp [show ¬ 16 + j < 8 by omega, show 16 + j < 32 by omega, show 16 + j - 8 - 8 = j by omega,
      show ¬ 16 + j - 8 < 8 by omega, hj]
  · simp [show ¬ 24 + j < 8 by omega, show 24 + j < 32 by omega, show 24 + j - 8 - 8 - 8 = j by omega,
      show ¬ 24 + j - 8 < 8 by omega, show ¬ 24 + j - 8 - 8 < 8 by omega]

/-! ### PCM bytes -/

/-- `PCM[x]` after `PCM[a] <- b`. -/
theorem pcmByte_setPcmByte (s : State) (a x : Nat) (b : Byte) :
    pcmByte (setPcmByte a b s) x = if x = a then b else pcmByte s x := by
  simp only [pcmByte, setPcmByte_pcm, setPcmByte_epoch, Memory.get?_set]
  split <;> rfl

@[simp] theorem pcmByte_setSmpWord (s : State) (i x : Nat) (v : F32) : pcmByte (setSmpWord i v s) x = pcmByte s x := rfl

theorem pcmByte_congr {s t : State} (hm : t.pcm = s.pcm) (he : t.epoch = s.epoch) : pcmByte t = pcmByte s := by
  funext a; simp [pcmByte, hm, he]

/-! ### Sample words -/

theorem smpByte_congr {s t : State} (hm : t.smp = s.smp) (he : t.epoch = s.epoch) : smpByte t = smpByte s := by
  funext a; simp [smpByte, hm, he]

theorem smpWord_congr {s t : State} (hm : t.smp = s.smp) (he : t.epoch = s.epoch) : smpWord t = smpWord s := by
  funext i; simp [smpWord, smpByte_congr hm he]

@[simp] theorem smpWord_setPcmByte (s : State) (a : Nat) (b : Byte) (i : Nat) :
    smpWord (setPcmByte a b s) i = smpWord s i := rfl

@[simp] theorem smpByte_setPcmByte (s : State) (a : Nat) (b : Byte) (i : Nat) :
    smpByte (setPcmByte a b s) i = smpByte s i := rfl

/-- One byte of the sample memory after `SMP[i] <- v`. -/
theorem smpByte_setSmpWord (s : State) (i x : Nat) (v : F32) :
    smpByte (setSmpWord i v s) x = if x / 4 = i then byteOf v (x - 4 * i) else smpByte s x := by
  simp only [smpByte, setSmpWord_smp, setSmpWord_epoch]
  by_cases h : x / 4 = i
  · rw [if_pos h, storeBytes_get?_inside _ _ _ (by omega) (by simp only [AccessSize.bytes]; omega)]
    rfl
  · rw [if_neg h, storeBytes_get?_outside _ _ _ (by simp only [AccessSize.bytes]; omega)]

/-- `SMP[i]` after `SMP[i] <- v`. -/
@[simp] theorem smpWord_setSmpWord_same (s : State) (i : Nat) (v : F32) : smpWord (setSmpWord i v s) i = v := by
  apply joinBytes_byteOf
  intro k hk
  rw [smpByte_setSmpWord, if_pos (by omega)]
  congr 1; omega

theorem smpWord_setSmpWord_other (s : State) {i j : Nat} (v : F32) (h : j ≠ i) :
    smpWord (setSmpWord i v s) j = smpWord s j := by
  simp only [smpWord, joinBytes, smpByte_setSmpWord]
  rw [if_neg (by omega), if_neg (by omega), if_neg (by omega), if_neg (by omega)]

/-- `SMP[j]` after `SMP[i] <- v`. -/
theorem smpWord_setSmpWord (s : State) (i j : Nat) (v : F32) :
    smpWord (setSmpWord i v s) j = if j = i then v else smpWord s j := by
  by_cases h : j = i
  · subst h; simp
  · simp [smpWord_setSmpWord_other s v h, h]

/-- Equal words are equal bytes: the sample memory holds nothing but its words. -/
theorem smpByte_of_smpWord {s t : State} {i k : Nat} (hk : k < 4) (h : smpWord t i = smpWord s i) :
    smpByte t (4 * i + k) = smpByte s (4 * i + k) := by
  rw [← byteOf_joinBytes (smpByte t) (4 * i) hk, ← byteOf_joinBytes (smpByte s) (4 * i) hk]
  exact congrArg (byteOf · k) h

/-! ### The memories of a state -/

theorem memoriesOk_congr {s t : State} (h : MemoriesOk s) (hp : t.par = s.par) (hm : t.pcm = s.pcm) (hs : t.smp = s.smp) :
    MemoriesOk t :=
  { pcmWf := by rw [hm]; exact h.pcmWf
    pcmWithin := by rw [hm, hp]; exact h.pcmWithin
    smpWf := by rw [hs]; exact h.smpWf
    smpWithin := by rw [hs, hp]; exact h.smpWithin }

theorem memoriesOk_setSmpWord {s : State} (h : MemoriesOk s) {i : Nat} (v : F32) (hi : i < smpWords s.par) :
    MemoriesOk (setSmpWord i v s) :=
  { pcmWf := h.pcmWf
    pcmWithin := h.pcmWithin
    smpWf := storeBytes_wf (4 * i) v .four h.smpWf
    smpWithin := storeBytes_within v .four h.smpWithin (by show 4 * i + 4 ≤ 4 * smpWords s.par; omega) }

theorem memoriesOk_setPcmByte {s : State} (h : MemoriesOk s) {a : Nat} (b : Byte) (ha : a < s.par.pcmBytes) :
    MemoriesOk (setPcmByte a b s) :=
  { pcmWf := Memory.wf_set a b h.pcmWf
    pcmWithin := Memory.within_set b h.pcmWithin ha
    smpWf := h.smpWf
    smpWithin := h.smpWithin }

/-- After reset nothing is listed, which is canonical. -/
theorem memoriesOk_resetWith (p : Params) : MemoriesOk (State.resetWith p) :=
  { pcmWf := List.Pairwise.nil
    pcmWithin := fun _ hc => absurd hc List.not_mem_nil
    smpWf := List.Pairwise.nil
    smpWithin := fun _ hc => absurd hc List.not_mem_nil }

end Sys2Proof.Machine
end

