-- ==== Sys2Proof/Laws/Ops.lean ====
section
/-! SUPPORT. What each shared operation can do, said once: how a command ends, the checks, the noise, the filter, the chain,
the sequencer, the codec's loops, the bus and the step. -/

namespace Sys2Proof.Machine

/-! ### How a command ends (R163) -/

@[simp] theorem finish_ok (s t : State) : finish s (.ok t) = done t := rfl
@[simp] theorem finish_error (s : State) (c : ResultCode) : finish s (.error c) = raise c s := rfl

/-- A body with the `CFG_VALID` check either runs, or raises NotConfigured. -/
theorem requireConfigured_cases (s : State) (b : Except ResultCode State) :
    (s.status.cfgValid = true ∧ requireConfigured s b = b) ∨
      (s.status.cfgValid = false ∧ requireConfigured s b = .error .notConfigured) := by
  unfold requireConfigured
  cases h : s.status.cfgValid <;> simp

theorem requireConfigured_valid {s : State} (h : s.status.cfgValid = true) (b : Except ResultCode State) :
    requireConfigured s b = b := by simp [requireConfigured, h]

theorem requireConfigured_invalid {s : State} (h : s.status.cfgValid = false) (b : Except ResultCode State) :
    requireConfigured s b = .error .notConfigured := by simp [requireConfigured, h]

/-- A body with the index check either runs, or raises IndexOutOfRange. -/
theorem requireIndex_cases (idx : Nat) (s : State) (b : Except ResultCode State) :
    (idx < smpWords s.par ∧ requireIndex idx s b = b) ∨
      (¬ idx < smpWords s.par ∧ requireIndex idx s b = .error .indexOutOfRange) := by
  unfold requireIndex
  by_cases h : idx < smpWords s.par <;> simp [h]

/-- `SETUP`'s body: the derived state and a fresh call, or one of its two errors, the length first (R85, R164). -/
theorem setupBody_cases (s : State) :
    (lenOk s = true ∧ cfgOk s = true ∧ setupBody s = .ok
      { s with drv := derive s, filt := freshFilter, seq := freshSequencer, status := { s.status with cfgValid := true } }) ∨
    (lenOk s = true ∧ cfgOk s = false ∧ setupBody s = .error .invalidConfiguration) ∨
    (lenOk s = false ∧ setupBody s = .error .invalidBufferLength) := by
  unfold setupBody
  cases hl : lenOk s <;> cases hc : cfgOk s <;> simp

/-- `LOADP`'s body: the sentinel, a record, or no such preset (R82). -/
theorem loadpBody_cases (id : Nat) (s : State) :
    (id = 0 ∧ loadpBody id s = .ok
      { s with ctrl := { s.ctrl with en := false }, status := { s.status with cfgValid := false } }) ∨
    (∃ r, id ≠ 0 ∧ romRecord s.par id = some r ∧ loadpBody id s = .ok
      { s with preset := r, ctrl := { s.ctrl with en := true },
               status := { s.status with pid := BitVec.ofNat 8 id, cfgValid := false } }) ∨
    (id ≠ 0 ∧ romRecord s.par id = none ∧ loadpBody id s = .error .invalidConfiguration) := by
  unfold loadpBody
  by_cases h : id = 0
  · simp [h]
  · cases hr : romRecord s.par id <;> simp [h]

/-- The record numbers are 1 to `N_PRESETS` (R29). -/
theorem romRecord_eq_none_iff (p : Params) (id : Nat) : romRecord p id = none ↔ id = 0 ∨ nPresets p < id := by
  unfold romRecord nPresets
  by_cases h : id = 0
  · simp [h]
  · simp [h]; omega

/-! ### The noise generator (R101 to R106) -/

/-- The generator has exactly one predecessor state per state: one shift loses nothing (R101). -/
theorem lfsrShift_injective : Function.Injective lfsrShift := by
  intro a b h
  have hbit : ∀ l : BitVec 16, ∀ i < 15, (lfsrShift l).getLsbD i = l.getLsbD (i + 1) := by
    intro l i hi
    have h1 : (1#16).getLsbD (i + 1) = false := by simp [BitVec.getLsbD_one]
    simp only [lfsrShift, BitVec.getLsbD_or, BitVec.getLsbD_ushiftRight, BitVec.getLsbD_shiftLeft, hi, Nat.add_comm 1 i]
    simp
  have htop : ∀ l : BitVec 16, (lfsrShift l).getLsbD 15 =
      (l.getLsbD 0 ^^ l.getLsbD 2 ^^ l.getLsbD 3 ^^ l.getLsbD 5) := by
    intro l
    simp [lfsrShift, BitVec.getLsbD_of_ge]
  have hs : ∀ i < 15, a.getLsbD (i + 1) = b.getLsbD (i + 1) := fun i hi => by rw [← hbit a i hi, ← hbit b i hi, h]
  have h0 : a.getLsbD 0 = b.getLsbD 0 := by
    have := (htop a).symm.trans ((congrArg (·.getLsbD 15) h).trans (htop b))
    rw [hs 1 (by omega), hs 2 (by omega), hs 4 (by omega)] at this
    revert this
    cases a.getLsbD 0 <;> cases b.getLsbD 0 <;> cases b.getLsbD 2 <;> cases b.getLsbD 3 <;> cases b.getLsbD 5 <;> simp
  apply BitVec.eq_of_getLsbD_eq
  intro i hi
  cases i with
  | zero => exact h0
  | succ i => exact hs i (by omega)

theorem lfsrShift_zero : lfsrShift 0 = 0 := by decide

/-- A shift leaves a nonzero state nonzero (R18, R101). -/
theorem lfsrShift_ne_zero {l : BitVec 16} (h : l ≠ 0) : lfsrShift l ≠ 0 :=
  fun h' => h (lfsrShift_injective (h'.trans lfsrShift_zero.symm))

theorem lfsrShifts_ne_zero (n : Nat) {l : BitVec 16} (h : l ≠ 0) : lfsrShifts n l ≠ 0 := by
  induction n generalizing l with
  | zero => exact h
  | succ n ih => exact ih (lfsrShift_ne_zero h)

theorem lfsrShifts_add (m n : Nat) (l : BitVec 16) : lfsrShifts (m + n) l = lfsrShifts n (lfsrShifts m l) := by
  induction m generalizing l with
  | zero => simp [lfsrShifts]
  | succ m ih => rw [Nat.succ_add]; exact ih _

/-- The noise mix either bypasses, changing nothing, or takes exactly one draw (R106). -/
theorem wnoise_cases (x : F32) (s : State) :
    (feq (nvEff s) fZero = true ∧ wnoise x s = (x, s)) ∨
      (feq (nvEff s) fZero = false ∧ wnoise x s =
        (mixNoise (nvEff s) (gv s) x (drawValue (lfsrShifts 16 s.lfsr)), { s with lfsr := lfsrShifts 16 s.lfsr })) := by
  unfold wnoise drawU
  cases h : feq (nvEff s) fZero <;> simp

/-- The noise mix changes nothing but the generator. -/
theorem wnoise_snd (x : F32) (s : State) :
    (wnoise x s).2 = { s with lfsr := if feq (nvEff s) fZero then s.lfsr else lfsrShifts 16 s.lfsr } := by
  rcases wnoise_cases x s with ⟨h, e⟩ | ⟨h, e⟩ <;> rw [e, h] <;> simp

/-! ### The filter (R114, R115) -/

/-- The filter either bypasses, changing nothing, or makes one step of its state. -/
theorem biquad_cases (x : F32) (s : State) :
    (s.preset.ftype = 0 ∧ biquad x s = (x, s)) ∨
      (s.preset.ftype ≠ 0 ∧ biquad x s =
        ((biquadStep s.drv.coef s.filt x).1, { s with filt := (biquadStep s.drv.coef s.filt x).2 })) := by
  unfold biquad
  by_cases h : s.preset.ftype = 0
  · exact .inl ⟨h, if_pos h⟩
  · exact .inr ⟨h, if_neg h⟩

/-- The filter changes nothing but its state. -/
theorem biquad_snd (x : F32) (s : State) :
    (biquad x s).2 = { s with filt := if s.preset.ftype = 0 then s.filt else (biquadStep s.drv.coef s.filt x).2 } := by
  rcases biquad_cases x s with ⟨h, e⟩ | ⟨h, e⟩ <;> rw [e]
  · rw [if_pos h]
  · rw [if_neg h]

/-! ### The chain and the sequencer (R121, R124) -/

/-- The generator's state after one chain: one draw, or none (R103). -/
def chainLfsr (s : State) : BitVec 16 := if feq (nvEff s) fZero then s.lfsr else lfsrShifts 16 s.lfsr

/-- Noise and quantizer change nothing but the generator, by one draw or none. -/
theorem noiseAndCrush_snd (x : F32) (s : State) : (noiseAndCrush x s).2 = { s with lfsr := chainLfsr s } := by
  unfold noiseAndCrush chainLfsr
  cases s.preset.nafter <;> simp [wnoise_snd]

/-- One chain changes nothing but the generator and the filter state (R121, R122). -/
theorem chainValue_snd (x : F32) (s : State) :
    ∃ z, (chainValue x s).2 = { s with lfsr := chainLfsr s, filt := z } := by
  simp only [chainValue, biquad_snd, noiseAndCrush_snd]
  exact ⟨_, rfl⟩

/-- The first part of a slot changes nothing but the generator, the filter state and `HOLD`. -/
theorem takeBlock_shape (s : State) :
    ∃ l z h, takeBlock s = { s with lfsr := l, filt := z, seq := { s.seq with hold := h } } ∧
      (l = s.lfsr ∨ l = chainLfsr s) := by
  unfold takeBlock
  split
  · obtain ⟨z, hz⟩ := chainValue_snd (smpWord s s.seq.idx.toNat) s
    exact ⟨chainLfsr s, z, (chainValue (smpWord s s.seq.idx.toNat) s).1, by simp [hz], .inr rfl⟩
  · exact ⟨s.lfsr, s.filt, s.seq.hold, rfl, .inl rfl⟩

/-- One slot (R124): it writes the sample word at `IDX`, advances the position, and changes nothing else but the generator and
the filter state. -/
theorem slot_shape (s : State) :
    ∃ l z h, slot s =
      { s with lfsr := l, filt := z, smp := storeBytes s.smp (4 * s.seq.idx.toNat) h .four,
               seq := { idx := s.seq.idx + 1, ph := nextPhase s.seq.ph s.drv.blk, hold := h } } ∧
      (l = s.lfsr ∨ l = chainLfsr s) := by
  obtain ⟨l, z, h, e, hl⟩ := takeBlock_shape s
  exact ⟨l, z, h, by simp [slot, e, holdSlot, setSmpWord], hl⟩

/-- The value a slot leaves in `HOLD` is the value it writes. -/
theorem slot_word (s : State) : smpWord (slot s) s.seq.idx.toNat = (slot s).seq.hold := by
  obtain ⟨l, z, h, e, -⟩ := takeBlock_shape s
  have : (slot s) = { setSmpWord s.seq.idx.toNat h (takeBlock s) with
      seq := { (takeBlock s).seq with ph := nextPhase s.seq.ph s.drv.blk, idx := s.seq.idx + 1 } } := by
    simp [slot, holdSlot, e]
  rw [this]
  have hw := smpWord_setSmpWord_same (takeBlock s) s.seq.idx.toNat h
  rw [smpWord_congr (t := { setSmpWord s.seq.idx.toNat h (takeBlock s) with
      seq := { (takeBlock s).seq with ph := nextPhase s.seq.ph s.drv.blk, idx := s.seq.idx + 1 } })
      (s := setSmpWord s.seq.idx.toNat h (takeBlock s)) rfl rfl, hw]
  simp [e]

/-- A slot leaves every other sample word alone. -/
theorem slot_word_other (s : State) {j : Nat} (hj : j ≠ s.seq.idx.toNat) : smpWord (slot s) j = smpWord s j := by
  obtain ⟨l, z, h, e, -⟩ := slot_shape s
  have : smpWord (slot s) j = smpWord (setSmpWord s.seq.idx.toNat h s) j :=
    congrFun (smpWord_congr (by simp [e]) (by simp [e])) j
  rw [this, smpWord_setSmpWord_other s h hj]

/-- `RUN`'s loop changes nothing but the sample memory, the position, the generator and the filter state (R126). -/
theorem runLoop_shape (n : Nat) (s : State) :
    ∃ l z q m, runLoop n s = { s with lfsr := l, filt := z, seq := q, smp := m } := by
  induction n generalizing s with
  | zero => exact ⟨s.lfsr, s.filt, s.seq, s.smp, rfl⟩
  | succ n ih =>
    unfold runLoop
    split
    · obtain ⟨l, z, h, e, -⟩ := slot_shape s
      obtain ⟨l', z', q', m', e'⟩ := ih (slot s)
      exact ⟨l', z', q', m', by rw [e', e]⟩
    · exact ⟨s.lfsr, s.filt, s.seq, s.smp, rfl⟩

/-! ### The codec's loops (R72, R74) -/

/-- `DECODE`'s loop changes nothing but the sample memory. -/
theorem decodeUpTo_shape (n : Nat) (s : State) : ∃ m, decodeUpTo n s = { s with smp := m } := by
  induction n with
  | zero => exact ⟨s.smp, rfl⟩
  | succ n ih =>
    obtain ⟨m, e⟩ := ih
    exact ⟨storeBytes m (4 * n) (dec (decodeUpTo n s) n) .four, by simp [decodeUpTo, setSmpWord, e]⟩

/-- The decoded value does not depend on the sample memory. -/
theorem dec_smp (s : State) (m : Memory) (i : Nat) : dec { s with smp := m } i = dec s i := rfl

/-- `DECODE`'s loop writes `dec(i)` into the words below its count and leaves the others alone (R72). -/
theorem decodeUpTo_word (n : Nat) (s : State) (j : Nat) :
    smpWord (decodeUpTo n s) j = if j < n then dec s j else smpWord s j := by
  induction n with
  | zero => simp [decodeUpTo]
  | succ n ih =>
    have hd : dec (decodeUpTo n s) n = dec s n := by
      obtain ⟨m, e⟩ := decodeUpTo_shape n s
      rw [e, dec_smp]
    simp only [decodeUpTo, hd, smpWord_setSmpWord, ih]
    by_cases h : j = n
    · subst h; simp
    · by_cases h2 : j < n
      · simp [h, h2, Nat.lt_succ_of_lt h2]
      · simp [h, h2, show ¬ j < n + 1 by omega]

theorem setPcmSample_shape (i : Nat) (n : Int) (s : State) : ∃ m, setPcmSample i n s = { s with pcm := m } := by
  unfold setPcmSample
  split
  · exact ⟨_, rfl⟩
  · exact ⟨_, rfl⟩

theorem noteNan_shape (i : Nat) (s : State) :
    noteNan i s = { s with status := { s.status with
      nanf := s.status.nanf || isNan (encodeProduct s.ctrl.width (smpWord s i)) } } := by
  unfold noteNan
  cases isNan (encodeProduct s.ctrl.width (smpWord s i)) <;> simp

/-- One iteration of `ENCODE`'s loop changes nothing but the PCM memory and `NANF`. -/
theorem encodeSample_shape (i : Nat) (s : State) :
    ∃ m, encodeSample i s = { s with pcm := m, status := { s.status with
      nanf := s.status.nanf || isNan (encodeProduct s.ctrl.width (smpWord s i)) } } := by
  unfold encodeSample
  rw [noteNan_shape]
  obtain ⟨m, e⟩ := setPcmSample_shape i (encodeInt s.ctrl.width (smpWord s i)) { s with status := { s.status with
      nanf := s.status.nanf || isNan (encodeProduct s.ctrl.width (smpWord s i)) } }
  exact ⟨m, e⟩

/-- `ENCODE`'s loop changes nothing but the PCM memory and `NANF` (R74). -/
theorem encodeUpTo_shape (n : Nat) (s : State) :
    ∃ m b, encodeUpTo n s = { s with pcm := m, status := { s.status with nanf := b } } := by
  induction n with
  | zero => exact ⟨s.pcm, s.status.nanf, rfl⟩
  | succ n ih =>
    obtain ⟨m, b, e⟩ := ih
    obtain ⟨m', e'⟩ := encodeSample_shape n (encodeUpTo n s)
    refine ⟨m', (encodeSample n (encodeUpTo n s)).status.nanf, ?_⟩
    simp only [encodeUpTo]
    rw [e', e]

/-! ### The bus and the step (R41 to R52) -/

/-- A command word is a command, or IllegalCommand is raised (R64). -/
theorem command_cases (cw : Word) (s : State) :
    (∃ i, decode cw = .ok i ∧ command cw s = exec i s) ∨
      (∃ e, decode cw = .error e ∧ command cw s = .next (raise .illegalCommand s)) := by
  unfold command
  cases h : decode cw with
  | ok i => exact .inl ⟨i, rfl, rfl⟩
  | error e => exact .inr ⟨e, rfl, rfl⟩

/-- With no event waiting a step changes nothing. -/
theorem step_idle {s : State} (h : s.inbox = []) : step s = .next s := by simp [step, nextEvent, h]

/-- A step takes the first event waiting. -/
theorem step_event {s : State} {e : HostEvent} {rest : List HostEvent} (h : s.inbox = e :: rest) :
    step s = takeEvent e { s with inbox := rest } := by simp [step, nextEvent, h]

/-- The 4-byte transaction at address 0 reaches `CMD` whatever the capacity (R24, R42). -/
theorem busTarget_cmd (p : Params) : busTarget p 0x00000000 .four = some (.reg .cmd) := by
  simp [busTarget, AccessSize.bytes, pcmBase, smpBase, registerMap]

/-- The event that issues a command word executes it and is answered OK (R50). -/
theorem takeEvent_issue (cw : Word) (s : State) : takeEvent (issue cw) s = answer (.ok none) (command cw s) := by
  simp only [takeEvent, issue, hostWrite]
  rw [busTarget_cmd]

end Sys2Proof.Machine
end

