-- ==== Sys2Proof/Laws/Bus.lean ====
section
/-! SUPPORT. The bits of register words, and what a HOST transaction reaches, said once: the registers, the two memory windows, and that exactly the allowed
transactions reach something (R42, R45 to R47). -/

namespace Sys2Proof.Machine

/-- The bits of one bit put at a place: with it each field of `statusWord`, `ctrlWord` and `pcfgWord` is read off. -/
theorem getLsbD_bitAt {place : Nat} (h : place < 32) (i : Nat) (b : Bool) :
    (bitAt place b).getLsbD i = (b && decide (i = place)) := by
  cases b
  · simp [bitAt]
  · rw [bitAt, if_pos rfl, BitVec.getLsbD_ofNat, Nat.testBit_two_pow, Bool.true_and]
    by_cases e : i = place
    · simp [e, h]
    · simp [e, Ne.symm e]

/-- A 4-byte transaction at a register's address reaches that register, whatever the capacity (R24, R42, R46). -/
theorem busTarget_regAddr (p : Params) (r : Reg) : busTarget p (regAddr r) .four = some (.reg r) := by
  have h1 : ∀ r : Reg, (regAddr r).toNat % 4 = 0 ∧ (regAddr r).toNat < 96 ∧ registerMap[(regAddr r).toNat / 4]? = some r := by
    intro r
    cases r <;> decide
  obtain ⟨a, b, c⟩ := h1 r
  have e : AccessSize.bytes .four = 4 := rfl
  unfold busTarget
  simp only
  rw [if_neg (by rw [e]; simpa using a), if_neg (by simp only [pcmBase]; omega), if_neg (by decide),
    if_neg (by simp only [smpBase]; omega), c]
  simp

/-- Only a 4-byte transaction at its address reaches a register (R46). -/
theorem busTarget_eq_reg {p : Params} {a : Word} {n : AccessSize} {r : Reg} (h : busTarget p a n = some (.reg r)) :
    n = .four ∧ a = regAddr r := by
  simp only [busTarget] at h
  split at h
  · cases h
  split at h
  · cases h
  split at h
  · cases h
  split at h
  · cases h
  rename_i h1 h2 h3 h4
  have hn : n = .four := by cases n <;> simp [AccessSize.bytes] at h3 ⊢
  subst hn
  refine ⟨rfl, ?_⟩
  cases hg : registerMap[a.toNat / 4]? with
  | none => rw [hg] at h; cases h
  | some r' =>
    rw [hg] at h
    cases h
    have h4 : a.toNat % 4 = 0 := by simpa [AccessSize.bytes] using h1
    obtain ⟨hk, e⟩ := List.getElem?_eq_some_iff.1 hg
    have hidx : registerMap.idxOf r = a.toNat / 4 := by
      have nd : registerMap.Nodup := by decide
      rw [← e]
      exact nd.idxOf_getElem _ _
    apply BitVec.eq_of_toNat_eq
    rw [regAddr, hidx]
    have := a.isLt
    simp
    omega

/-- A transaction that reaches a memory stays inside it (R42, R47). -/
theorem busTarget_bounds {p : Params} {a : Word} {n : AccessSize} {t : BusTarget} (h : busTarget p a n = some t) :
    (∀ x, t = .pcm x → x + AccessSize.bytes n ≤ p.pcmBytes) ∧
      ∀ x, t = .smp x → x + AccessSize.bytes n ≤ 4 * smpWords p := by
  simp only [busTarget] at h
  split at h
  · cases h
  split at h
  · rw [Option.some.injEq] at h
    subst h
    refine ⟨fun x hx => ?_, fun x hx => by cases hx⟩
    have hx := BusTarget.pcm.inj hx
    subst hx
    rename_i h1
    obtain ⟨h1, h2⟩ := h1
    revert h1 h2
    generalize pcmBase = b
    generalize AccessSize.bytes n = k
    generalize a.toNat = c
    intro h1 h2
    omega
  split at h
  · cases h
  split at h
  · rw [Option.some.injEq] at h
    subst h
    refine ⟨fun x hx => (by cases hx), fun x hx => ?_⟩
    have hx := BusTarget.smp.inj hx
    subst hx
    rename_i h1
    obtain ⟨h1, h2⟩ := h1
    revert h1 h2
    generalize smpBase = b
    generalize AccessSize.bytes n = k
    generalize a.toNat = c
    intro h1 h2
    omega
  · refine ⟨?_, ?_⟩ <;> rintro x rfl <;> simp at h

/-- An aligned transaction inside the PCM memory reaches it (R42, R45). -/
theorem busTarget_pcm {p : Params} {a : Nat} {n : AccessSize} (hp : p.pcmBytes ≤ 2 ^ 24) (h : a % AccessSize.bytes n = 0)
    (hb : a + AccessSize.bytes n ≤ p.pcmBytes) : busTarget p (BitVec.ofNat 32 (0x10000000 + a)) n = some (.pcm a) := by
  have e : (BitVec.ofNat 32 (0x10000000 + a)).toNat = 0x10000000 + a := by
    rw [BitVec.toNat_ofNat]
    omega
  unfold busTarget
  simp only [e]
  rw [if_neg, if_pos]
  · simp [pcmBase]
  · unfold pcmBase
    omega
  · have hn : AccessSize.bytes n = 1 ∨ AccessSize.bytes n = 2 ∨ AccessSize.bytes n = 4 := by cases n <;> simp [AccessSize.bytes]
    rcases hn with h1 | h1 | h1 <;> rw [h1] at h ⊢ <;> omega

/-- A 4-byte transaction at a sample word's address reaches that word (R42, R45). -/
theorem busTarget_smp {p : Params} {i : Nat} (hp : p.pcmBytes ≤ 2 ^ 24) (h : i < p.pcmBytes) :
    busTarget p (BitVec.ofNat 32 (0x20000000 + 4 * i)) .four = some (.smp (4 * i)) := by
  have e : (BitVec.ofNat 32 (0x20000000 + 4 * i)).toNat = 0x20000000 + 4 * i := by
    rw [BitVec.toNat_ofNat]
    omega
  have h4 : AccessSize.bytes .four = 4 := rfl
  unfold busTarget
  simp only [e, h4, pcmBase, smpBase, smpWords]
  rw [if_neg (by omega), if_neg (by omega), if_neg (by decide), if_pos (by omega)]
  simp

/-- The allowed transactions are those that reach something (R45 to R47). -/
theorem transactionAllowed_iff (p : Params) (a : Word) (n : AccessSize) :
    transactionAllowed p a n ↔ ∃ t, busTarget p a n = some t := by
  unfold transactionAllowed busTarget
  simp only
  have hl : registerMap.length = 24 := rfl
  by_cases h0 : a.toNat % AccessSize.bytes n = 0
  swap
  · simp [h0]
  rw [if_neg (by simpa using h0)]
  simp only [h0, true_and]
  by_cases h1 : 0x10000000 ≤ a.toNat ∧ a.toNat + AccessSize.bytes n ≤ 0x10000000 + p.pcmBytes
  · rw [if_pos (by simpa [pcmBase] using h1)]
    simp [h1]
  rw [if_neg (by simpa [pcmBase] using h1)]
  simp only [h1, false_or]
  by_cases h2 : AccessSize.bytes n = 4
  swap
  · rw [if_pos h2]
    simp [h2]
  rw [if_neg (by simpa using h2)]
  simp only [h2, true_and]
  rw [h2] at h0
  by_cases h3 : 0x20000000 ≤ a.toNat ∧ a.toNat + 4 ≤ 0x20000000 + 4 * p.pcmBytes
  · rw [if_pos (by simpa [smpBase, smpWords] using h3)]
    simp [h3]
  rw [if_neg (by simpa [smpBase, smpWords] using h3)]
  simp only [h3, or_false]
  constructor
  · intro h
    have hk : a.toNat / 4 < registerMap.length := by
      rw [hl]
      omega
    rw [List.getElem?_eq_getElem hk]
    exact ⟨_, rfl⟩
  · rintro ⟨t, ht⟩
    by_contra hc
    rw [List.getElem?_eq_none (by rw [hl]; omega)] at ht
    cases ht

/-- A transaction that is not allowed reaches nothing. -/
theorem busTarget_eq_none {p : Params} {a : Word} {n : AccessSize} (h : ¬ transactionAllowed p a n) : busTarget p a n = none := by
  cases hb : busTarget p a n with
  | none => rfl
  | some t => exact absurd ((transactionAllowed_iff _ _ _).2 ⟨t, hb⟩) h

/-- A HOST write to a register other than `CMD` stores by the register's rule and is answered OK. -/
theorem takeEvent_writeReg {r : Reg} (hr : r ≠ .cmd) (v : Word) (s : State) :
    takeEvent (.write (regAddr r) .four v) s = .next { writeReg r v s with resp := some (.ok none) } := by
  cases r <;> simp only [takeEvent, hostWrite, busTarget_regAddr]
  exact absurd rfl hr

/-- A HOST read of a register returns its word. -/
theorem takeEvent_readReg (r : Reg) (s : State) :
    takeEvent (.read (regAddr r) .four) s = .next { s with resp := some (.ok (some (readReg s r))) } := by
  simp only [takeEvent, hostRead, busTarget_regAddr, readTarget]

end Sys2Proof.Machine
end

