-- ==== Sys2Proof/Laws/Float.lean ====
section
/-! SUPPORT. The format of 47_numerics.md R140 in terms of one number, the magnitude pattern, and what packing a sign and a
magnitude gives. -/

namespace Sys2Proof.Machine

theorem fMagnitude_eq (a : F32) : fMagnitude a = a.toNat % 2 ^ 31 := by
  simp [fMagnitude, BitVec.extractLsb'_toNat]

theorem fMagnitude_lt (a : F32) : fMagnitude a < 2 ^ 31 := by
  rw [fMagnitude_eq]
  omega

/-- The exponent field is the high part of the magnitude pattern (R140). -/
theorem fExp_eq (a : F32) : fExp a = fMagnitude a / 2 ^ 23 := by
  rw [fMagnitude_eq]
  simp only [fExp, BitVec.extractLsb'_toNat, Nat.shiftRight_eq_div_pow]
  omega

/-- The fraction field is the low part of the magnitude pattern (R140). -/
theorem fFrac_eq (a : F32) : fFrac a = fMagnitude a % 2 ^ 23 := by
  rw [fMagnitude_eq]
  simp only [fFrac, BitVec.extractLsb'_toNat, Nat.shiftRight_eq_div_pow]
  omega

/-- A finite value is a magnitude below that of infinity (R140). -/
theorem isFinite_iff (a : F32) : isFinite a = true ↔ fMagnitude a < infMagnitude := by
  have := fMagnitude_lt a
  simp only [isFinite, bne_iff_ne, fExp_eq, infMagnitude]
  omega

/-- A NaN is a magnitude above that of infinity (R140). -/
theorem isNan_iff (a : F32) : isNan a = true ↔ infMagnitude < fMagnitude a := by
  have := fMagnitude_lt a
  simp only [isNan, Bool.and_eq_true, beq_iff_eq, bne_iff_ne, fExp_eq, fFrac_eq, infMagnitude]
  omega

theorem isInf_iff (a : F32) : isInf a = true ↔ fMagnitude a = infMagnitude := by
  have := fMagnitude_lt a
  simp only [isInf, Bool.and_eq_true, beq_iff_eq, fExp_eq, fFrac_eq, infMagnitude]
  omega

theorem isZero_iff (a : F32) : isZero a = true ↔ fMagnitude a = 0 := by
  simp only [isZero, Bool.and_eq_true, beq_iff_eq, fExp_eq, fFrac_eq]
  omega

theorem pack_toNat {m : Nat} (h : m < 2 ^ 31) (neg : Bool) : (pack neg m).toNat = (if neg then 2 ^ 31 else 0) + m := by
  rw [pack, BitVec.toNat_ofNat]
  cases neg <;> simp <;> omega

@[simp] theorem fMagnitude_pack {m : Nat} (h : m < 2 ^ 31) (neg : Bool) : fMagnitude (pack neg m) = m := by
  rw [fMagnitude_eq, pack_toNat h]
  cases neg <;> simp <;> omega

theorem fSign_eq (a : F32) : fSign a = decide (2 ^ 31 ≤ a.toNat) := by
  have := a.isLt
  rw [fSign, BitVec.getLsbD, Nat.testBit_eq_decide_div_mod_eq]
  exact decide_eq_decide.2 (by omega)

@[simp] theorem fSign_pack {m : Nat} (h : m < 2 ^ 31) (neg : Bool) : fSign (pack neg m) = neg := by
  rw [fSign_eq, pack_toNat h]
  cases neg
  · simp
    omega
  · simp

/-- A pattern is its sign and its magnitude (R140). -/
theorem pack_fSign_fMagnitude (a : F32) : pack (fSign a) (fMagnitude a) = a := by
  apply BitVec.eq_of_toNat_eq
  rw [pack_toNat (fMagnitude_lt a), fSign_eq, fMagnitude_eq]
  have := a.isLt
  simp only [decide_eq_true_eq]
  split <;> omega

theorem roundMag_le (n d : Nat) : roundMag n d ≤ infMagnitude := Nat.min_le_right _ _

theorem roundMag_lt (n d : Nat) : roundMag n d < 2 ^ 31 := lt_of_le_of_lt (roundMag_le n d) (by decide)

@[simp] theorem roundMag_zero (d : Nat) : roundMag 0 d = 0 := by
  simp only [roundMag, Nat.zero_div, Nat.log2_zero, Nat.zero_mod]
  have : ¬ (d * 2 ^ (0 - 23) < 2 * 0 ∨ 2 * 0 = d * 2 ^ (0 - 23) ∧ (0 : Nat) % 2 = 1) := by omega
  rw [if_neg this]
  simp

/-- Rounding never gives a NaN (R141). -/
theorem isNan_pack_roundMag (neg : Bool) (n d : Nat) : isNan (pack neg (roundMag n d)) = false := by
  rw [← Bool.not_eq_true, isNan_iff, fMagnitude_pack (roundMag_lt n d)]
  have := roundMag_le n d
  omega

@[simp] theorem fMagnitude_fneg (a : F32) : fMagnitude (fneg a) = fMagnitude a := by
  unfold fMagnitude fneg
  congr 1
  apply BitVec.eq_of_getLsbD_eq
  intro i hi
  have h : (0x80000000#32).getLsbD i = false := by
    have : ∀ j < 31, (0x80000000#32).getLsbD j = false := by decide
    exact this i hi
  simp [hi, BitVec.getLsbD_xor, h]

@[simp] theorem fSign_fneg (a : F32) : fSign (fneg a) = !fSign a := by
  simp [fSign, fneg]

end Sys2Proof.Machine
end

