-- ==== Sys2Proof/Laws/Params.lean ====
section
/-! SUPPORT. The parameters of the reset core are legal, whatever the open values of Config are (R3). -/

namespace Sys2Proof.Machine

theorem recordOk_plainPreset : recordOk plainPreset = true := by decide +kernel

theorem recordOk_legalRecord (id : Nat) : recordOk (legalRecord id) = true := by
  unfold legalRecord
  split
  · assumption
  · exact recordOk_plainPreset

theorem length_legalRecords (id n : Nat) : (legalRecords id n).length = n := by
  induction n generalizing id with
  | zero => rfl
  | succ n ih => simp [legalRecords, ih]

theorem recordOk_of_mem_legalRecords {id n : Nat} {p : Preset} (h : p ∈ legalRecords id n) : recordOk p = true := by
  induction n generalizing id with
  | zero => simp [legalRecords] at h
  | succ n ih =>
    rcases List.mem_cons.1 h with rfl | h
    · exact recordOk_legalRecord id
    · exact ih h

/-- What `paramsOk` says (R3). -/
theorem paramsOk_iff (p : Params) : paramsOk p = true ↔
    p.pcmBytes % 4 = 0 ∧ 4 ≤ p.pcmBytes ∧ p.pcmBytes ≤ 2 ^ 24 ∧ 6 ≤ p.rom.length ∧ p.rom.length ≤ 255 ∧
      ∀ r ∈ p.rom, recordOk r = true := by
  simp [paramsOk, capacityOk, and_assoc]

theorem paramsOk_configParams : paramsOk configParams = true := by
  rw [paramsOk_iff]
  refine ⟨?_, ?_, ?_, ?_, ?_, fun r hr => recordOk_of_mem_legalRecords hr⟩ <;>
    simp only [configParams, length_legalRecords] <;> omega

/-- A record of a legal store satisfies the record checks of R84 (R3). -/
theorem recordOk_of_romRecord {p : Params} (h : paramsOk p = true) {id : Nat} {r : Preset} (hr : romRecord p id = some r) :
    recordOk r = true := by
  unfold romRecord at hr
  split at hr
  · cases hr
  · exact ((paramsOk_iff p).1 h).2.2.2.2.2 r (List.mem_of_getElem? hr)

end Sys2Proof.Machine
end

