-- ==== Sys2Proof/Laws/PerInstr.lean ====
section
/-! SUPPORT. A family of statements over the command set, one lemma per constructor: under the mask of its row of the opcode map
a command's word is the row's match (R63). -/

namespace Sys2Proof.Laws.RowMatch

/-- The mask of a command's format: N, P or X (R61, R63). -/
def maskOf : Instr → Word
  | .loadp _ => 0xFFFF00FF
  | .lds _ | .sts _ => 0x000000FF
  | .nop | .clrerr | .setup | .decode | .encode | .dist | .bcr | .ndraw | .noise | .bqclr | .bq | .gain | .chain | .step
  | .run | .process => 0xFFFFFFFF

/-- The opcode of a command (R63). -/
def opOf : Instr → Word
  | .nop => 0x00
  | .clrerr => 0x01
  | .loadp _ => 0x02
  | .setup => 0x03
  | .decode => 0x10
  | .encode => 0x11
  | .lds _ => 0x12
  | .sts _ => 0x13
  | .dist => 0x20
  | .bcr => 0x28
  | .ndraw => 0x30
  | .noise => 0x31
  | .bqclr => 0x38
  | .bq => 0x39
  | .gain => 0x40
  | .chain => 0x41
  | .step => 0x42
  | .run => 0x43
  | .process => 0x44

/-- The word of a well-formed command satisfies its row's match and mask. -/
def Statement (i : Instr) : Prop := i.wellFormed = true → encode i &&& maskOf i = opOf i

/-- A field from bit 8 up has no opcode bit. -/
theorem shifted_and_low (v : Word) : (v <<< 8) &&& 0xFF = 0 := by
  have h255 : ∀ j < 32, 8 ≤ j → (255#32).getLsbD j = false := by decide
  apply BitVec.eq_of_getLsbD_eq
  intro i hi
  rw [BitVec.getLsbD_and, BitVec.getLsbD_shiftLeft]
  by_cases h8 : i < 8
  · simp [h8]
  · simp [h255 i hi (by omega)]

theorem nop : Statement .nop := fun _ => rfl
theorem clrerr : Statement .clrerr := fun _ => rfl

theorem loadp (id : Nat) : Statement (.loadp id) := by
  intro h
  have key : ∀ k : Fin 256, (0x02 : Word) ||| (BitVec.ofNat 32 (k.val % 2 ^ 8) <<< 8) &&& 0xFFFF00FF = 0x02 := by
    decide +kernel
  have hid : id < 256 := by simpa [Instr.wellFormed, idFits] using h
  have := key ⟨id, hid⟩
  simp only [encode, wordP, maskOf, opOf, BitVec.and_or_distrib_right]
  exact this

theorem setup : Statement .setup := fun _ => rfl
theorem decode : Statement .decode := fun _ => rfl
theorem encode : Statement .encode := fun _ => rfl

theorem lds (idx : Nat) : Statement (.lds idx) := by
  intro _
  simp only [Sys2Proof.encode, wordX, maskOf, opOf, BitVec.and_or_distrib_right, shifted_and_low]
  rfl

theorem sts (idx : Nat) : Statement (.sts idx) := by
  intro _
  simp only [Sys2Proof.encode, wordX, maskOf, opOf, BitVec.and_or_distrib_right, shifted_and_low]
  rfl

theorem dist : Statement .dist := fun _ => rfl
theorem bcr : Statement .bcr := fun _ => rfl
theorem ndraw : Statement .ndraw := fun _ => rfl
theorem noise : Statement .noise := fun _ => rfl
theorem bqclr : Statement .bqclr := fun _ => rfl
theorem bq : Statement .bq := fun _ => rfl
theorem gain : Statement .gain := fun _ => rfl
theorem chain : Statement .chain := fun _ => rfl
theorem step : Statement .step := fun _ => rfl
theorem run : Statement .run := fun _ => rfl
theorem process : Statement .process := fun _ => rfl

end Sys2Proof.Laws.RowMatch
end

