-- ==== Sys2Proof/Laws/Pipeline.lean ====
section
/-! SUPPORT. Bounds and counts of the whole-array commands: the sample count, the block size, the sequencer's index and phase,
and how `RUN`'s loop splits (R31, R83, R124, R126). -/

namespace Sys2Proof.Machine

/-- The rates of the table have quotients up to 5, so `BLK` fits its register (R83). -/
theorem blk0_le (s : State) : blk0 s ≤ 5 := by
  have h : ∀ c t : BitVec 2, hz c / hz t ≤ 5 := by decide
  have := h s.ctrl.crate s.preset.trate
  unfold blk0
  dsimp only
  split <;> omega

theorem derive_blk_toNat (s : State) : (derive s).blk.toNat = blk0 s := by
  have := blk0_le s
  simp [derive]
  omega

/-- `IDX` is wide enough for the sample count (R13, R23). -/
theorem nsmp_lt (s : State) : nsmp s < 2 ^ 25 := lt_of_le_of_lt (Nat.div_le_self _ _) s.len.isLt

/-- With a good length there are at most `SMP_WORDS` samples (R31). -/
theorem nsmp_le {s : State} (h : lenOk s = true) : nsmp s ≤ smpWords s.par := by
  simp only [lenOk, Bool.and_eq_true, decide_eq_true_eq] at h
  exact le_trans (Nat.div_le_self _ _) h.1

/-- With a good length the samples are the whole buffer (R31). -/
theorem nsmp_mul_bps {s : State} (h : lenOk s = true) : nsmp s * bps s = s.len.toNat := by
  simp only [lenOk, Bool.and_eq_true, decide_eq_true_eq] at h
  exact Nat.div_mul_cancel (Nat.dvd_of_mod_eq_zero h.2)

/-- `PH` counts `IDX` modulo `BLK` (R14, R124). -/
theorem nextPhase_toNat {ph blk : BitVec 3} (hb : 1 ≤ blk.toNat) {i : Nat} (h : ph.toNat = i % blk.toNat) :
    (nextPhase ph blk).toNat = (i + 1) % blk.toNat := by
  have h1 := Nat.mod_lt i hb
  have h8 := blk.isLt
  have hd := Nat.div_add_mod i blk.toNat
  unfold nextPhase
  split
  · have e : i + 1 = blk.toNat * (i / blk.toNat + 1) := by
      rw [Nat.mul_add]
      omega
    rw [e]
    simp
  · have e : i + 1 = i % blk.toNat + 1 + blk.toNat * (i / blk.toNat) := by omega
    rw [e, Nat.add_mul_mod_self_left, Nat.mod_eq_of_lt (by omega)]
    simp
    omega

theorem slot_idx {s : State} (h : s.seq.idx.toNat < nsmp s) : (slot s).seq.idx.toNat = s.seq.idx.toNat + 1 := by
  obtain ⟨l, z, q, e, -⟩ := slot_shape s
  have := nsmp_lt s
  rw [e]
  simp
  omega

@[simp] theorem slot_nsmp (s : State) : nsmp (slot s) = nsmp s := by
  obtain ⟨l, z, q, e, -⟩ := slot_shape s
  rw [e]
  rfl

@[simp] theorem slot_drv (s : State) : (slot s).drv = s.drv := by
  obtain ⟨l, z, q, e, -⟩ := slot_shape s
  rw [e]

/-- `RUN`'s loop in two parts. -/
theorem runLoop_add (m n : Nat) (s : State) : runLoop (m + n) s = runLoop n (runLoop m s) := by
  induction m generalizing s with
  | zero => simp [runLoop]
  | succ m ih =>
    rw [show m + 1 + n = (m + n) + 1 by omega]
    conv_lhs => unfold runLoop
    conv_rhs => rw [show runLoop (m + 1) s = if s.seq.idx.toNat < nsmp s then runLoop m (slot s) else s from rfl]
    split
    · exact ih _
    · rename_i h
      cases n with
      | zero => rfl
      | succ n => rw [runLoop, if_neg h]

/-- `RUN`'s loop leaves the words from `nsmp()` up alone (R126). -/
theorem runLoop_word_above (n : Nat) (s : State) {j : Nat} (hj : nsmp s ≤ j) : smpWord (runLoop n s) j = smpWord s j := by
  induction n generalizing s with
  | zero => rfl
  | succ n ih =>
    unfold runLoop
    split
    · rw [ih _ (by rw [slot_nsmp]; exact hj), slot_word_other s (by omega)]
    · rfl

/-- Filling slots changes nothing but the sample memory. -/
theorem fillSlots_shape (n start : Nat) (s : State) (v : F32) : ∃ m, fillSlots start v n s = { s with smp := m } := by
  induction n generalizing start s with
  | zero => exact ⟨s.smp, rfl⟩
  | succ n ih =>
    obtain ⟨m, e⟩ := ih (start + 1) (setSmpWord start v s)
    exact ⟨m, by rw [fillSlots, e]; rfl⟩

/-- Filling slots writes the words it names and no other. -/
theorem fillSlots_word (n start : Nat) (v : F32) (s : State) (j : Nat) :
    smpWord (fillSlots start v n s) j = if start ≤ j ∧ j < start + n then v else smpWord s j := by
  induction n generalizing start s with
  | zero =>
    rw [if_neg (by omega)]
    rfl
  | succ n ih =>
    rw [fillSlots, ih, smpWord_setSmpWord]
    by_cases h : j = start
    · rw [if_neg (by omega), if_pos h, if_pos (by omega)]
    · by_cases h2 : start + 1 ≤ j ∧ j < start + 1 + n
      · rw [if_pos h2, if_pos (by omega)]
      · rw [if_neg h2, if_neg h, if_neg (by omega)]

end Sys2Proof.Machine
end

