-- ==== Sys2Proof/Tests/Slice0.lean ====
section
/-! SUPPORT. Tests of the model on the worked values of 95_test_vectors.md and 30_encoding.md, the refusals of WellFormed, and
for each statement with hypotheses a concrete state that meets them. -/

namespace Sys2Proof.Tests

open Sys2Proof Sys2Proof.Machine

-- One test at a time: side by side, the kernel's evaluations would need a thread each.
set_option Elab.async false

/-! ### Small states -/

/-- The parameters of 95_test_vectors.md: `PCM_BYTES = 64`, `N_PRESETS = 6`. -/
def params : Params :=
  { pcmBytes := 64
    rom := [plainPreset, { plainPreset with bits := 15 }, { plainPreset with bits := 14 }, { plainPreset with bits := 13 },
      { plainPreset with bits := 12 }, { plainPreset with bits := 11 }]
    blkPolicy := .fail }

/-- Reset with those parameters. -/
def fresh : State := State.resetWith params

/-- Program P4's preset, variant A: `BITS` 4, `TRATE` 11025, noise after bitcrush, noise volume 0.25, gain 1.0. -/
def presetP4 : Preset := { plainPreset with bits := 4, trate := 1, nafter := true, nvol := 0x3E800000 }

/-- Program P4 up to its `CALL`: 8 bit, 22050 Hz, volume 100, five bytes of PCM. -/
def beforeP4 : State :=
  { fresh with
    ctrl := { en := true, width := false, crate := 2, noiseOff := false, vol := 100 }
    len := 5
    preset := presetP4
    pcm := [(0, 0x40), (1, 0x0A), (2, 0xC0), (3, 0x14), (4, 0x7F)] }

/-- The same in a 16-bit container at 44100 Hz, block size 5 and one partial block: 12 samples. -/
def before16 : State :=
  { fresh with
    ctrl := { en := true, width := true, crate := 3, noiseOff := false, vol := 100 }
    len := 24
    preset := { presetP4 with trate := 0 } }

/-- A configured state with a preset: what `SETUP` leaves. -/
def readyWith (p : Preset) (s : State) : State :=
  { s with preset := p, drv := derive { s with preset := p }, status := { s.status with cfgValid := true } }

/-- Configured, 8-bit, program P4's preset. -/
def ready : State := readyWith presetP4 beforeP4

/-- `f` of the state that an outcome answers, if it answers one. -/
def look {α : Type} (o : Host.Outcome State Fault Refusal) (f : State → α) : Option α := (nextOf o).map f

/-! ### Operands that no word encodes (30_encoding.md R61, R62) -/

theorem test_loadp_operand_above_8_bits_is_refused : (Instr.loadp 256).wellFormed = false := by decide
theorem test_lds_operand_above_24_bits_is_refused : (Instr.lds 16777216).wellFormed = false := by decide
theorem test_sts_operand_above_24_bits_is_refused : (Instr.sts 16777216).wellFormed = false := by decide

/-! ### Words written from the encoding of each rule (30_encoding.md R63, V-E) -/

theorem test_word_nop : decode 0b00000000000000000000000000000000 = .ok .nop := by decide
theorem test_word_clrerr : decode 0b00000000000000000000000000000001 = .ok .clrerr := by decide
theorem test_word_loadp : decode 0b00000000000000001010010100000010 = .ok (.loadp 0xA5) := by decide
theorem test_word_setup : decode 0b00000000000000000000000000000011 = .ok .setup := by decide
theorem test_word_decode : decode 0b00000000000000000000000000010000 = .ok .decode := by decide
theorem test_word_encode : decode 0b00000000000000000000000000010001 = .ok .encode := by decide
theorem test_word_lds : decode 0b10000000000000000000001100010010 = .ok (.lds 0x800003) := by decide
theorem test_word_sts : decode 0b00000000010000000000000100010011 = .ok (.sts 0x004001) := by decide
theorem test_word_dist : decode 0b00000000000000000000000000100000 = .ok .dist := by decide
theorem test_word_bcr : decode 0b00000000000000000000000000101000 = .ok .bcr := by decide
theorem test_word_ndraw : decode 0b00000000000000000000000000110000 = .ok .ndraw := by decide
theorem test_word_noise : decode 0b00000000000000000000000000110001 = .ok .noise := by decide
theorem test_word_bqclr : decode 0b00000000000000000000000000111000 = .ok .bqclr := by decide
theorem test_word_bq : decode 0b00000000000000000000000000111001 = .ok .bq := by decide
theorem test_word_gain : decode 0b00000000000000000000000001000000 = .ok .gain := by decide
theorem test_word_chain : decode 0b00000000000000000000000001000001 = .ok .chain := by decide
theorem test_word_step : decode 0b00000000000000000000000001000010 = .ok .step := by decide
theorem test_word_run : decode 0b00000000000000000000000001000011 = .ok .run := by decide
theorem test_word_process : decode 0b00000000000000000000000001000100 = .ok .process := by decide
theorem test_word_reserved_bit : decode 0x00010002 = .error (.reservedBits "LOADP") := by decide
theorem test_word_unused_opcode : decode 0x00000004 = .error (.unusedOpcode 4) := by decide
theorem test_table_word : decodeTableWord 32 0x00004012 = some (.lds 64) := by decide
theorem test_fetch : nextOf (step (fresh.withFetchWord 32 0x00000302)) = some { fresh with
    preset := { plainPreset with bits := 14 }, ctrl := { fresh.ctrl with en := true },
    status := { fresh.status with pid := 3 }, resp := some (.ok none) } := by decide +kernel

/-! ### Script lines (30_encoding.md R66, R67; programs P1, P3, P6) -/

theorem test_opts : expand (.opts .w16 .hz44100 100 false true) = [.write 0x00000008 .four 0x0000640F] ∧
    expand (.opts .w8 .hz22050 100 true true) = [.write 0x00000008 .four 0x00006419] := by decide
theorem test_pset : expand (.pset 5 .hz8000 false .bandpass) = [.write 0x00000010 .four 0x00000305] ∧
    expand (.pset 4 .hz11025 true .none) = [.write 0x00000010 .four 0x000000A4] ∧
    expand (.pset 3 .hz11025 false .notch) = [.write 0x00000010 .four 0x00000423] := by decide
theorem test_call : expand (.call 24) = [.write 0x0000000C .four 24, .write 0x00000000 .four 0x00000044] := by decide
theorem test_wrh : expand (.wrh 6 0xFF9C) = [.write 0x10000006 .two 0x0000FF9C] := by decide
theorem test_wrf : expand (.wrf .pGain false 13 10) = [.write 0x00000024 .four 0x3FA66666] := by decide +kernel
theorem test_lds_line : expand (.cmd (.lds 64)) = [.write 0x00000000 .four 0x00004012] := by decide

/-! ### One step of each command (values from 95_test_vectors.md) -/

/-- P6 step 6: sticky flags stay, the result becomes OK. -/
theorem test_nop : look (exec .nop { fresh with status := { fresh.status with result := .illegalCommand, eCmd := true } })
    (fun t => statusWord t.status) = some 0x00000400 := by decide
/-- P6 step 19. -/
theorem test_clrerr : look (exec .clrerr { fresh with status :=
    { fresh.status with result := .invalidConfiguration, cfgValid := true, eLen := true, eIdx := true, nanf := true } })
    (fun t => statusWord t.status) = some 0x00000010 := by decide
/-- P6 step 20: `CTRL` keeps all but `EN`, `CFG_VALID` is cleared. -/
theorem test_loadp_none : look (exec (.loadp 0) { ready with ctrl := { ready.ctrl with width := true, crate := 0 } })
    (fun t => (ctrlWord t.ctrl, statusWord t.status)) = some (0x00006402, 0) := by decide +kernel
/-- P6 step 18: no such preset; `CFG_VALID` stays. -/
theorem test_loadp_255 : look (exec (.loadp 255) ready) (fun t => statusWord t.status) = some 0x00000212 := by decide +kernel
/-- P4: `BLK = 22050 div 11025 = 2`. -/
theorem test_setup_blk : look (exec .setup beforeP4) (fun t => (t.drv.blk, statusWord t.status)) = some (2, 0x10) := by
  decide +kernel
/-- P6 step 8: the length is reported before the configuration. -/
theorem test_setup_length_first : look (exec .setup { fresh with
    ctrl := { fresh.ctrl with width := true }, len := 3 }) (fun t => statusWord t.status) = some 0x00000101 := by decide +kernel
/-- V-C1, 8-bit: 64, 10, -64, 20, 127. -/
theorem test_decode_8 : look (exec .decode beforeP4) (fun t => (List.range 5).map (smpWord t)) =
    some [0x3F010204, 0x3DA14285, 0xBF010204, 0x3E214285, 0x3F800000] := by decide +kernel
/-- V-C1, 16-bit little-endian: 16384 and -32768. -/
theorem test_decode_16 : look (exec .decode { before16 with
    len := 4, pcm := [(0, 0x00), (1, 0x40), (2, 0x00), (3, 0x80)] }) (fun t => (smpWord t 0, smpWord t 1)) =
    some (0x3F000100, 0xBF800100) := by decide +kernel
/-- V-C2, 8-bit: 0.5 to 63, -0.5 to -63, a NaN to 0 with `NANF`, 2.0 to 127, just under -1 to -128. -/
theorem test_encode_8 : look (exec .encode ([0x3F000000, 0xBF000000, 0x7FC00000, 0x40000000, 0xBF810204].zipIdx.foldl
    (fun s p => setSmpWord p.2 p.1 s) beforeP4)) (fun t => (t.pcm.map (·.2), t.status.nanf)) =
    some ([0x3F, 0xC1, 0x00, 0x7F, 0x80], true) := by decide +kernel
/-- V-C2, 16-bit: 0.5 to 16383 and minus infinity to -32768. -/
theorem test_encode_16 : look (exec .encode (setSmpWord 1 0xFF800000 (setSmpWord 0 0x3F000000 { before16 with len := 4 })))
    (fun t => t.pcm.map (·.2)) = some [0xFF, 0x3F, 0x00, 0x80] := by decide +kernel
theorem test_lds : look (exec (.lds 63) (setSmpWord 63 0x7FC12345 fresh)) (fun t => (t.acc, statusWord t.status)) =
    some (0x7FC12345, 0) := by decide +kernel
/-- P6 step 12: `idx = SMP_WORDS`. -/
theorem test_lds_64 : look (exec (.lds 64) fresh) (fun t => statusWord t.status) = some 0x00001005 := by decide +kernel
theorem test_sts : look (exec (.sts 1) { fresh with acc := 0x12345678 }) (fun t => t.smp) =
    some [(4, 0x78), (5, 0x56), (6, 0x34), (7, 0x12)] := by decide +kernel
theorem test_sts_64 : look (exec (.sts 64) fresh) (fun t => statusWord t.status) = some 0x00001005 := by decide +kernel
/-- V-W: with zero drive a NaN payload passes unchanged. -/
theorem test_dist_zero_drive : look (exec .dist { ready with acc := 0x7FC12345 }) (fun t => t.acc) = some 0x7FC12345 := by
  decide +kernel
/-- V-W rows 5, 6: zeros keep their sign, whatever `ATAN` is. -/
theorem test_dist_zero : look (exec .dist { readyWith { presetP4 with drive := 0x3F000000 } beforeP4 with
    acc := 0x80000000, drv := { ready.drv with norm := 0x3F251382 } }) (fun t => t.acc) = some 0x80000000 := by decide +kernel
/-- V-Q: -0.1 at 8 bits is -13/127. -/
theorem test_bcr : look (exec .bcr { readyWith { presetP4 with bits := 8 } beforeP4 with acc := 0xBDCCCCCD }) (fun t => t.acc) =
    some 0xBDD1A347 := by decide +kernel
/-- V-Q: no clamp, 1.3 at 16 bits. -/
theorem test_bcr_no_clamp : look (exec .bcr { readyWith { presetP4 with bits := 16 } beforeP4 with acc := 0x3FA66666 })
    (fun t => t.acc) = some 0x3FA6664D := by decide +kernel
/-- V-N2, draw 1 from reset. -/
theorem test_ndraw : look (exec .ndraw fresh) (fun t => (t.lfsr, t.acc)) = some (0x4722, 0xBEE379C7) := by decide +kernel
/-- V-N5, row 4: volume 50, noise volume 0.1. -/
theorem test_noise : look (exec .noise { readyWith { presetP4 with nvol := 0x3DCCCCCD } { beforeP4 with
    ctrl := { beforeP4.ctrl with vol := 50 } } with acc := 0x3F000000 }) (fun t => (t.acc, t.lfsr)) =
    some (0x3EDB06B6, 0x4722) := by decide +kernel
/-- V-N5, row 7: `NOISEOFF` takes no draw. -/
theorem test_noise_off : look (exec .noise { ready with
    acc := 0x3F000000, ctrl := { ready.ctrl with noiseOff := true } }) (fun t => (t.acc, t.lfsr)) =
    some (0x3F000000, 0xACE1) := by decide +kernel
theorem test_bqclr : look (exec .bqclr { fresh with filt := ⟨0x3F800000, 0x7FC00000⟩ }) (fun t => t.filt) = some ⟨0, 0⟩ := by
  decide +kernel
/-- V-B2, frequency 0.25, Q 1.0, bandpass: the second output of the impulse, and the -0.0 of `Z2`. -/
theorem test_bq : look (exec .bq { readyWith { presetP4 with ftype := 3 } beforeP4 with
    acc := 0, drv := { ready.drv with coef := ⟨0x3EAAAAAB, 0x00000000, 0xBEAAAAAB, 0x00000000, 0x3EAAAAAB⟩ },
    filt := ⟨0x00000000, 0xBEE38E3A⟩ }) (fun t => (t.acc, t.filt)) =
    some (0x00000000, ⟨0xBEE38E3A, 0x80000000⟩) := by decide +kernel
/-- V-B3: bypass for type none. -/
theorem test_bq_bypass : look (exec .bq { ready with acc := 0x80000000, filt := ⟨0x3F800000, 0x3F800000⟩ })
    (fun t => (t.acc, t.filt)) = some (0x80000000, ⟨0x3F800000, 0x3F800000⟩) := by decide +kernel
/-- V-G: a gain of -3.0 makes -0.0 of 0.0. -/
theorem test_gain : look (exec .gain { readyWith { presetP4 with gain := 0xC0400000 } beforeP4 with acc := 0 })
    (fun t => t.acc) = some 0x80000000 := by decide +kernel
/-- V-G: 0 times infinity. -/
theorem test_gain_nan : look (exec .gain { readyWith { presetP4 with gain := 0 } beforeP4 with acc := 0x7F800000 })
    (fun t => t.acc) = some 0x7FC00000 := by decide +kernel
/-- P4 variant A, block 0: crush, then noise. -/
theorem test_chain_after : look (exec .chain { ready with acc := 0x3F010204 }) (fun t => t.acc) = some 0x3E5767AE := by
  decide +kernel
/-- P4 variant B, block 0: noise, then crush. -/
theorem test_chain_before : look (exec .chain { readyWith { presetP4 with nafter := false } beforeP4 with acc := 0x3F010204 })
    (fun t => t.acc) = some 0x3E124925 := by decide +kernel
/-- P4 variant A, the first slot: the value of block 0 in slot 0, `PH` 1. -/
theorem test_step : look (exec .step (setSmpWord 0 0x3F010204 ready)) (fun t => (smpWord t 0, t.seq.idx, t.seq.ph)) =
    some (0x3E5767AE, 1, 1) := by decide +kernel
/-- V-G: a `STEP` at the end of the array. -/
theorem test_step_end : look (exec .step { ready with seq := { ready.seq with idx := 5 } }) (fun t => statusWord t.status) =
    some 0x00001015 := by decide +kernel
/-- V-G: `RUN` with no samples. -/
theorem test_run_empty : look (exec .run { ready with len := 0, seq := ⟨3, 1, 0x3F800000⟩ }) (fun t => (t.seq, t.smp)) =
    some (⟨0, 0, 0⟩, []) := by decide +kernel
/-- P4 variant C: crush only, both slots of the first block. -/
theorem test_run : look (exec .run (setSmpWord 0 0x3F010204 { ready with
    len := 3, ctrl := { ready.ctrl with noiseOff := true } })) (fun t => (smpWord t 0, smpWord t 1, t.seq.ph, t.lfsr)) =
    some (0x3EDB6DB7, 0x3EDB6DB7, 1, 0xACE1) := by decide +kernel
/-- P4 variant A. -/
theorem test_process : look (exec .process beforeP4) (fun t => (t.pcm.map (·.2), t.lfsr, t.seq.idx, t.seq.ph)) =
    some ([0x1A, 0x1A, 0xDB, 0xDB, 0x77], 0xE39D, 5, 1) := by decide +kernel
/-- P6 step 1: passthrough, the odd length not checked. -/
theorem test_process_off : look (exec .process { before16 with ctrl := { before16.ctrl with en := false }, len := 3 })
    (fun t => statusWord t.status) = some 0 := by decide +kernel

/-! ### HOST transactions (V-M) -/

theorem test_read_half : look (takeEvent (.read 0x10000002 .two) { fresh with
    pcm := [(0, 0x00), (1, 0x40), (2, 0x00), (3, 0xC0)] }) (fun t => t.resp) = some (some (.ok (some 0x0000C000))) := by
  decide +kernel
theorem test_unaligned_write : nextOf (takeEvent (.write 0x10000001 .two 5) fresh) =
    some { fresh with resp := some (.busError none) } := by decide +kernel
theorem test_byte_access_to_a_register : nextOf (takeEvent (.write 0x00000008 .one 5) fresh) =
    some { fresh with resp := some (.busError none) } := by decide +kernel
theorem test_write_lfsr_zero : look (takeEvent (.write 0x00000028 .four 0x12340000) fresh) (fun t => t.lfsr) = some 1 := by
  decide +kernel

/-! ### Constants (47_numerics.md R142) -/

theorem test_rn32 : rn32 false 9 10 = fNineTenths ∧ rn32 false 100 1 = fHundred ∧ rn32 true 2 1 = fNegTwo ∧
    i2f 32767 = fInt16Max ∧ rn32 false 1 2 = fHalf := by decide +kernel

/-! ### Witnesses: a state and operands that meet the hypotheses of each statement that has some -/

theorem witness_encoded : (Instr.loadp 255).wellFormed = true ∧ (Instr.lds 16777215).wellFormed = true ∧
    (Instr.sts 0).wellFormed = true ∧ Instr.process.wellFormed = true := by decide
theorem witness_legal_word : decode 0xFFFFFF12 = .ok (.lds 16777215) ∧ decode 0x0000FF02 = .ok (.loadp 255) := by decide
theorem witness_illegal_word : decode 0x80000044 = .error (.reservedBits "PROCESS") ∧
    decode 0x000000FF = .error (.unusedOpcode 255) := by decide
theorem witness_step_executes : (fresh.withFetchWord 32 0x41).inbox = [.write 0x00000000 .four 0x00000041] ∧
    decode 0x00000041 = .ok .chain := by decide
theorem witness_step_takes_the_event : ∃ s : State, s.inbox = [.reset, .read 0x00000004 .four] :=
  ⟨{ fresh with inbox := [.reset, .read 0x00000004 .four] }, rfl⟩
theorem witness_idle : fresh.inbox = [] := rfl
theorem witness_step_answers : step (fresh.withFetchWord 32 0) = .next { fresh with resp := some (.ok none) } := rfl
/-- For the failing commands: `BCR` without `CFG_VALID`. -/
theorem witness_failing : exec .bcr fresh = .next (raise .notConfigured fresh) ∧
    (raise .notConfigured fresh).status.result ≠ .ok := ⟨rfl, by decide⟩
/-- For the order of the checks: both sides of every condition, at the values where they change. -/
theorem witness_checks : (nextOf (takeEvent (issue 0x00000043) fresh)).isSome = true ∧ params.rom.length < 7 ∧ ¬ params.rom.length < 6 ∧ lenOk { before16 with len := 23 } = false ∧
    lenOk before16 = true ∧ lenOk { before16 with len := 64 } = true ∧ lenOk { before16 with len := 66 } = false ∧
    cfgOk before16 = true ∧ cfgOk { before16 with preset := { presetP4 with bits := 1 } } = false ∧
    params.pcmBytes ≤ 64 ∧ ¬ params.pcmBytes ≤ 63 ∧ ready.status.cfgValid = true ∧ fresh.status.cfgValid = false ∧
    nsmp ready ≤ 5 ∧ ¬ nsmp ready ≤ 4 ∧ ready.ctrl.en = true ∧ fresh.ctrl.en = false := by decide +kernel
/-- For the sticky flags: all six set, the event a `NOP`. -/
theorem witness_sticky : ∃ s : State, s.inbox = [issue 0x00000000] ∧ issue 0x00000000 ≠ .reset ∧
    issue 0x00000000 ≠ issue 0x00000001 ∧ (nextOf (step s)).isSome = true ∧ s.status.eLen = true ∧ s.status.eCfg = true ∧
    s.status.eCmd = true ∧ s.status.eSeq = true ∧ s.status.eIdx = true ∧ s.status.nanf = true :=
  ⟨{ fresh with
      inbox := [issue 0x00000000]
      status := { fresh.status with eLen := true, eCfg := true, eCmd := true, eSeq := true, eIdx := true, nanf := true } },
    rfl, by decide, by decide, by decide, rfl, rfl, rfl, rfl, rfl, rfl⟩
theorem witness_loadp : fresh.par.rom[6 - 1]? = some { plainPreset with bits := 11 } ∧
    fresh.par.rom[1 - 1]? = some plainPreset ∧ fresh.par.rom.length < 7 := by decide +kernel
theorem witness_setup : (lenOk before16 = true ∧ cfgOk before16 = true) ∧ lenOk { before16 with len := 23 } = false ∧
    (lenOk beforeP4 = true ∧ cfgOk { beforeP4 with preset := { presetP4 with bits := 17 } } = false) := by decide +kernel
/-- For the conditions of `SETUP`: each at a value it takes and the next it refuses (length, `VOL`, drive, type, frequency, `Q`). -/
theorem witness_setup_conditions :
    lenOk { before16 with len := 64 } = true ∧ lenOk { before16 with len := 66 } = false ∧
    cfgOk { before16 with ctrl := { before16.ctrl with vol := 100 } } = true ∧
    cfgOk { before16 with ctrl := { before16.ctrl with vol := 101 } } = false ∧
    cfgOk { before16 with preset := { presetP4 with drive := 0x3F800000 } } = true ∧
    cfgOk { before16 with preset := { presetP4 with drive := 0x3F800001 } } = false ∧
    cfgOk { before16 with preset := { presetP4 with ftype := 4, freq := 0x3EFFFFFF, q := 0x00000001 } } = true ∧
    cfgOk { before16 with preset := { presetP4 with ftype := 5, freq := 0x3EFFFFFF, q := 0x00000001 } } = false ∧
    cfgOk { before16 with preset := { presetP4 with ftype := 1, freq := 0x3F000000, q := 0x00000001 } } = false ∧
    cfgOk { before16 with preset := { presetP4 with ftype := 1, freq := 0x3EFFFFFF, q := 0x80000000 } } = false := by
  decide +kernel
/-- For the coefficients: a preset of each type. -/
theorem witness_filter_types : ∀ n : Fin 5, ∃ p : Preset, p.ftype = BitVec.ofNat 3 n :=
  fun n => ⟨{ plainPreset with ftype := BitVec.ofNat 3 n }, rfl⟩
theorem witness_codec_lengths : lenOk beforeP4 = true ∧ lenOk before16 = true ∧ lenOk { before16 with len := 0 } = true ∧
    lenOk { before16 with len := 23 } = false ∧ 4 < nsmp beforeP4 ∧ 11 < nsmp before16 ∧ beforeP4.ctrl.width = false ∧
    before16.ctrl.width = true := by decide +kernel
theorem witness_codec_integers : ((-128 : Int) ≤ 127 ∧ (-32768 : Int) ≤ -32768 ∧ (32767 : Int) ≤ 32767) := by decide
theorem witness_lds_sts : 63 < fresh.par.pcmBytes ∧ fresh.par.pcmBytes ≤ 64 := by decide
theorem witness_encoder : isNan 0x7FC00000 = true ∧ isFinite 0x47000000 = true ∧ isFinite 0x80000000 = true := by decide
/-- For `DIST`: drive +0.0, -0.0 and 1.0, configured, and not configured. -/
theorem witness_dist : ready.status.cfgValid = true ∧ feq ready.preset.drive 0x00000000 = true ∧
    feq (readyWith { presetP4 with drive := 0x80000000 } beforeP4).preset.drive 0x00000000 = true ∧
    (readyWith { presetP4 with drive := 0x3F800000 } beforeP4).status.cfgValid = true ∧
    feq (readyWith { presetP4 with drive := 0x3F800000 } beforeP4).preset.drive 0x00000000 = false ∧
    fresh.status.cfgValid = false := by decide +kernel
theorem witness_configured : ready.status.cfgValid = true ∧ fresh.status.cfgValid = false := ⟨rfl, rfl⟩
/-- For idempotence: 2 bits and 16 bits, at both ends of the range of the product. -/
theorem witness_quantizer : (fle (i2f (-(2 ^ (2 - 1)))) (fmul 0xC0000000 (crushScale 2)) = true ∧
      fle (fmul 0xC0000000 (crushScale 2)) (i2f (2 ^ (2 - 1))) = true) ∧
    (fle (i2f (-(2 ^ (16 - 1)))) (fmul 0x3F800100 (crushScale 16)) = true ∧
      fle (fmul 0x3F800100 (crushScale 16)) (i2f (2 ^ (16 - 1))) = true) ∧
    ((-(2 ^ (2 - 1)) : Int) ≤ -2 ∧ (-2 : Int) ≤ 2 ^ (2 - 1)) ∧ ((-(2 ^ (16 - 1)) : Int) ≤ 32768 ∧ (32768 : Int) ≤ 2 ^ (16 - 1)) :=
  by decide +kernel
theorem witness_noise : (ready.status.cfgValid = true ∧ ready.ctrl.noiseOff = false ∧ feq ready.preset.nvol 0x00000000 = false) ∧
    ({ ready with ctrl := { ready.ctrl with noiseOff := true } } : State).ctrl.noiseOff = true ∧
    feq (readyWith { presetP4 with nvol := 0x80000000 } beforeP4).preset.nvol 0x00000000 = true := by decide +kernel
theorem witness_bq : (ready.status.cfgValid = true ∧ ready.preset.ftype = 0) ∧
    ((readyWith { presetP4 with ftype := 4 } beforeP4).status.cfgValid = true ∧
      (readyWith { presetP4 with ftype := 4 } beforeP4).preset.ftype ≠ 0) := by decide +kernel
theorem witness_chain : (ready.status.cfgValid = true ∧ ready.preset.nafter = true) ∧
    ((readyWith { presetP4 with nafter := false } beforeP4).status.cfgValid = true ∧
      (readyWith { presetP4 with nafter := false } beforeP4).preset.nafter = false) := by decide +kernel
/-- For `STEP`: a block start, a slot inside a block (its last), the end of the array. -/
theorem witness_step : (ready.status.cfgValid = true ∧ ready.seq.idx.toNat < nsmp ready ∧ ready.seq.ph = 0) ∧
    (({ ready with seq := ⟨1, 1, 0⟩ } : State).seq.idx.toNat < nsmp ready ∧
      ({ ready with seq := ⟨1, 1, 0⟩ } : State).seq.ph ≠ 0) ∧
    nsmp ready ≤ ({ ready with seq := ⟨5, 1, 0⟩ } : State).seq.idx.toNat := by decide +kernel
/-- For `RUN`: a block size of 2 over five samples, and the empty array. -/
theorem witness_run : ready.status.cfgValid = true ∧ 1 ≤ ready.drv.blk.toNat ∧ nsmp ready = 5 ∧
    nsmp { ready with len := 0 } = 0 := by decide +kernel
/-- For `PROCESS`: a good call with a partial last block, a bad length, a bad configuration, and `EN` clear. -/
theorem witness_process : (before16.ctrl.en = true ∧ lenOk before16 = true ∧ cfgOk before16 = true ∧ nsmp before16 = 12 ∧
      blk0 before16 = 5) ∧
    lenOk { before16 with len := 23 } = false ∧
    (lenOk before16 = true ∧ cfgOk { before16 with ctrl := { before16.ctrl with vol := 101 } } = false) ∧
    fresh.ctrl.en = false := by decide +kernel
/-- For silence: P2b's configuration, with drive, notch filter, negative gain and `NOISEOFF`, on eleven zero bytes. -/
theorem witness_silence : ∃ s : State, s.ctrl.en = true ∧ lenOk s = true ∧ cfgOk s = true ∧ s.preset.ftype = 4 ∧
    feq (nvEff s) 0x00000000 = true ∧ (∀ a < s.len.toNat, pcmByte s a = 0) :=
  ⟨{ fresh with
      ctrl := { en := true, width := false, crate := 3, noiseOff := true, vol := 37 }
      len := 11
      preset := { bits := 3, trate := 1, nafter := false, ftype := 4, drive := 0x3F800000, nvol := 0x3F000000,
                  freq := 0x3DCCCCCD, q := 0x3F3504F3, gain := 0xC0400000 }
      pcm := (List.range 11).map fun a => (a, 0) },
    rfl, by decide +kernel, by decide +kernel, rfl, by decide +kernel, by decide +kernel⟩
/-- For the arguments of a call: two states that differ in `ACC`, the sample memory and a byte beyond the buffer. -/
theorem witness_arguments : ∃ s u : State, s ≠ u ∧ s.ctrl.en = true ∧ lenOk s = true ∧ cfgOk s = true ∧ u.par = s.par ∧
    u.ctrl = s.ctrl ∧ u.len = s.len ∧ u.preset = s.preset ∧ (∀ a < s.len.toNat, pcmByte u a = pcmByte s a) ∧
    feq (nvEff s) 0x00000000 = false ∧ u.lfsr = s.lfsr :=
  ⟨beforeP4, { setSmpWord 0 0x3F800000 beforeP4 with acc := 1, pcm := beforeP4.pcm ++ [(5, 0x99)] },
    by decide +kernel, rfl, by decide +kernel, by decide +kernel, rfl, rfl, rfl, rfl, by decide +kernel, by decide +kernel, rfl⟩
/-- For the arguments of a call without noise: the generators differ. -/
theorem witness_arguments_quiet : ∃ s u : State, u.lfsr ≠ s.lfsr ∧ s.ctrl.en = true ∧ lenOk s = true ∧ cfgOk s = true ∧
    u.par = s.par ∧ u.ctrl = s.ctrl ∧ u.len = s.len ∧ u.preset = s.preset ∧ (∀ a < s.len.toNat, pcmByte u a = pcmByte s a) ∧
    feq (nvEff s) 0x00000000 = true :=
  ⟨{ beforeP4 with ctrl := { beforeP4.ctrl with noiseOff := true } },
    { beforeP4 with ctrl := { beforeP4.ctrl with noiseOff := true }, lfsr := 1 },
    by decide, rfl, by decide +kernel, by decide +kernel, rfl, rfl, rfl, rfl, by decide +kernel, by decide +kernel⟩
/-- For what changes the generator: a step that does. -/
theorem witness_generator_changes : ∃ t, nextOf (step (fresh.withFetchWord 32 0x30)) = some t ∧ t.lfsr ≠ fresh.lfsr :=
  ⟨_, rfl, by decide +kernel⟩
theorem witness_ignores_acc : (nextOf (exec .run ready)).isSome = true ∧ (nextOf (exec .process beforeP4)).isSome = true :=
  ⟨rfl, rfl⟩
theorem witness_generator_nonzero : (0x0001 : BitVec 16) ≠ 0 ∧ (0xACE1 : BitVec 16) ≠ 0 := by decide
theorem witness_register_addresses : (0x2C : Word) ∈ ([0x14, 0x18, 0x1C, 0x20, 0x24, 0x2C] : List Word) ∧
    (0x5C : Word) ∈ ([0x04, 0x30, 0x34, 0x38, 0x3C, 0x40, 0x44, 0x48, 0x4C, 0x50, 0x54, 0x58, 0x5C] : List Word) ∧
    0x10000000 ≤ (0x10000000 : Word).toNat := by decide
/-- For the bus: the last word of the sample window, the last byte of the PCM window, the last register; one past each. -/
theorem witness_transactions : transactionAllowed params 0x200000FC .four ∧ transactionAllowed params 0x1000003F .one ∧
    transactionAllowed params 0x0000005C .four ∧ ¬ transactionAllowed params 0x20000100 .four ∧
    ¬ transactionAllowed params 0x10000040 .one ∧ ¬ transactionAllowed params 0x00000060 .four := by
  unfold transactionAllowed
  decide
/-- For the memory windows: the last bytes of the PCM window in each size, the first and the last sample word. -/
theorem witness_memory_windows : params.pcmBytes ≤ 2 ^ 24 ∧ 60 % AccessSize.bytes .four = 0 ∧
    60 + AccessSize.bytes .four ≤ params.pcmBytes ∧ 62 % AccessSize.bytes .two = 0 ∧
    62 + AccessSize.bytes .two ≤ params.pcmBytes ∧ 63 + AccessSize.bytes .one ≤ params.pcmBytes ∧
    0 < params.pcmBytes ∧ 63 < params.pcmBytes := by decide
/-- For the invariant: a configured state that names a preset, in the middle of the array, about to take an event. -/
theorem witness_invariant : ∃ s t : State, MachineInv s ∧ s.status.cfgValid = true ∧ s.status.pid = 6 ∧ step s = .next t :=
  ⟨{ readyWith { plainPreset with bits := 11 } { beforeP4 with preset := { plainPreset with bits := 11 } } with
      status := { fresh.status with cfgValid := true, pid := 6 }
      ctrl := { en := true, width := false, crate := 3, noiseOff := false, vol := 100 }
      drv := derive { beforeP4 with
        ctrl := { en := true, width := false, crate := 3, noiseOff := false, vol := 100 }
        preset := { plainPreset with bits := 11 } }
      seq := ⟨3, 3, 0x3F800000⟩
      inbox := [issue 0x00000042] },
    _,
    { paramsLegal := by decide +kernel
      lfsrNonzero := by decide
      memories :=
        { pcmWf := by decide
          pcmWithin := by decide
          smpWf := List.Pairwise.nil
          smpWithin := fun _ hc => absurd hc List.not_mem_nil }
      configured := fun _ =>
        { lengthOk := by decide +kernel
          parametersOk := by decide +kernel
          derivedCurrent := rfl
          blockPositive := by decide +kernel
          indexBounded := by decide +kernel
          phaseInBlock := by decide +kernel }
      presetNamed := fun _ => by decide +kernel },
    rfl, rfl, rfl⟩
/-- For the finite results: the largest finite value with a small one, which the bound on the exact result still admits. -/
theorem witness_in_range : isFinite 0x7F7FFFFF = true ∧ isFinite 0x3F800000 = true ∧
    |fInt 0x7F7FFFFF + fInt 0x3F800000| < (2 ^ 25 - 1) * 2 ^ 252 ∧ |fInt 0x7F7FFFFF - fInt 0x3F800000| < (2 ^ 25 - 1) * 2 ^ 252 ∧
    |fInt 0x7F7FFFFF * fInt 0x3F800000| < (2 ^ 25 - 1) * 2 ^ 401 ∧ fInt 0x3F800000 ≠ 0 ∧
    |fInt 0x7F7FFFFF * 2 ^ 149| < (2 ^ 25 - 1) * 2 ^ 252 * |fInt 0x3F800000| := by decide +kernel
/-- For the arithmetic: finite operands with a finite sum, difference, product and quotient; and a tie (1 + 2^-24). -/
theorem witness_arithmetic : isFinite 0x3F800000 = true ∧ isFinite 0x33800000 = true ∧ isFinite 0x3F800001 = true ∧
    isFinite (fadd 0x3F800000 0x33800000) = true ∧ isFinite (fsub 0x3F800000 0x33800000) = true ∧
    isFinite (fmul 0x3F800000 0x33800000) = true ∧ isFinite (fdiv 0x3F800000 0x33800000) = true ∧
    fInt 0x33800000 ≠ 0 ∧ |fInt 0x3F800000 + fInt 0x33800000 - fInt (fadd 0x3F800000 0x33800000)| =
      |fInt 0x3F800000 + fInt 0x33800000 - fInt 0x3F800001| ∧ fInt 0x3F800001 ≠ fInt (fadd 0x3F800000 0x33800000) := by
  decide +kernel
theorem witness_comparisons : isFinite 0x80000001 = true ∧ isFinite 0x7F7FFFFF = true ∧ isNan 0xFFFFFFFF = true ∧
    isNan 0xFF800000 = false := by decide
theorem witness_floor : isFinite 0xBF000000 = true ∧ isNan 0x7F800001 = true ∧ flt 0x00000000 0x3F7FFFFF = true ∧
    flt 0x3F7FFFFF 0x3F800000 = true ∧ flt 0xBF800000 0x80000001 = true ∧ flt 0x80000001 0x00000000 = true := by decide
/-- For the special operands (an underflow to a negative zero among them): a NaN, a finite nonzero value, operands of each exact zero result, and of each overflow. -/
theorem witness_special : isNan 0x7F800001 = true ∧ isFinite 0x00000001 = true ∧ isFinite 0x7F7FFFFF = true ∧
    isFinite 0xFF7FFFFF = true ∧ fInt 0x00000001 ≠ 0 ∧ (fInt 0x3F800000 + fInt 0xBF800000 = 0) ∧
    (fInt 0x3F800000 - fInt 0x3F800000 = 0) ∧ fInt 0x80000000 * fInt 0x7F7FFFFF = 0 ∧ fInt 0x80000000 = 0 ∧
    (2 ^ 25 - 1) * 2 ^ 252 < fInt 0x7F7FFFFF + fInt 0x7F7FFFFF ∧ fInt 0xFF7FFFFF + fInt 0xFF7FFFFF < -((2 ^ 25 - 1) * 2 ^ 252) ∧
    (2 ^ 25 - 1) * 2 ^ 401 < |fInt 0x7F7FFFFF * fInt 0xFF7FFFFF| ∧
    (2 ^ 25 - 1) * 2 ^ 252 * |fInt 0x00000001| < |fInt 0x7F7FFFFF * 2 ^ 149| ∧
    (2 ^ 25 - 1) * 2 ^ 252 < fInt 0x7F7FFFFF - fInt 0xFF7FFFFF ∧
    fInt 0xFF7FFFFF - fInt 0x7F7FFFFF < -((2 ^ 25 - 1) * 2 ^ 252) ∧
    isNan (fmul 0x80000001 0x00000001) = false ∧ isNan (fdiv 0x80000001 0x7F7FFFFF) = false := by decide +kernel
theorem witness_atan : isNan 0x7F800000 = false ∧ fle 0x80000001 0x00000001 = true ∧ flt 0x00000000 0x00000001 = true ∧
    isNan 0x7FC12345 = true ∧ isFinite 0xFF7FFFFF = true := by decide
theorem witness_tan : 1 ≤ (0x00000001 : F32).toNat ∧ (0x00000001 : F32).toNat ≤ (0x3FC90FDA : F32).toNat ∧
    (0x3FC90FDA : F32).toNat ≤ 0x3FC90FDA ∧ flt 0x00000000 0x3EFFFFFF = true ∧ flt 0x3EFFFFFF 0x3F000000 = true := by decide

end Sys2Proof.Tests
end

section
/-! What a command computes before it ends, as one function of the command (60_exceptions.md R163), when a body that runs checks
completes, and what a HOST write does by its target. Every command answers `finish` of its body, so a fact about all commands
is a fact about the bodies. -/

namespace Sys2Proof.Machine

/-- What a command computes up to its end: the state its body leaves, or the result code of the first check that failed. -/
def commandBody : Instr → State → Except ResultCode State
  | .nop, s => .ok s
  | .clrerr, s => .ok { s with status := clearSticky s.status }
  | .loadp id, s => loadpBody id s
  | .setup, s => setupBody s
  | .decode, s => decodeBody s
  | .encode, s => encodeBody s
  | .lds idx, s => requireIndex idx s (.ok { s with acc := smpWord s idx })
  | .sts idx, s => requireIndex idx s (.ok (setSmpWord idx s.acc s))
  | .dist, s => requireConfigured s (.ok { s with acc := distort s s.acc })
  | .bcr, s => requireConfigured s (.ok { s with acc := bitcrush s s.acc })
  | .ndraw, s => .ok { (drawU s).2 with acc := (drawU s).1 }
  | .noise, s => requireConfigured s (.ok { (wnoise s.acc s).2 with acc := (wnoise s.acc s).1 })
  | .bqclr, s => .ok { s with filt := freshFilter }
  | .bq, s => requireConfigured s (.ok { (biquad s.acc s).2 with acc := (biquad s.acc s).1 })
  | .gain, s => requireConfigured s (.ok { s with acc := fmul s.acc s.preset.gain })
  | .chain, s => requireConfigured s (.ok { (chainValue s.acc s).2 with acc := (chainValue s.acc s).1 })
  | .step, s => requireConfigured s (if s.seq.idx.toNat < nsmp s then .ok (slot s) else .error .indexOutOfRange)
  | .run, s => runBody s
  | .process, s => processBody s

/-- Every command ends as R163 says: `done` after its body, or `raise` of the check that failed. -/
theorem exec_eq_finish_commandBody (i : Instr) (s : State) : exec i s = .next (finish s (commandBody i s)) := by
  cases i <;> rfl

/-- What a word written to `CMD` computes: its command's body, or IllegalCommand (R64). -/
def wordBody (cw : Word) (s : State) : Except ResultCode State :=
  match decode cw with
  | .ok i => commandBody i s
  | .error _ => .error .illegalCommand

theorem command_eq_finish_wordBody (cw : Word) (s : State) : command cw s = .next (finish s (wordBody cw s)) := by
  unfold command wordBody
  cases decode cw with
  | ok i => exact exec_eq_finish_commandBody i s
  | error e => rfl

/-! ### A HOST write, by what it reaches (R41 to R47) -/

section
variable {addr : Word} {size : AccessSize} {s : State}

theorem hostWrite_refused (h : busTarget s.par addr size = none) (v : Word) :
    hostWrite addr size v s = .next { s with resp := some (.busError none) } := by
  unfold hostWrite
  rw [h]

theorem hostWrite_pcm {a : Nat} (h : busTarget s.par addr size = some (.pcm a)) (v : Word) :
    hostWrite addr size v s = .next { s with pcm := storeBytes s.pcm a v size, resp := some (.ok none) } := by
  unfold hostWrite
  rw [h]

theorem hostWrite_smp {a : Nat} (h : busTarget s.par addr size = some (.smp a)) (v : Word) :
    hostWrite addr size v s = .next { s with smp := storeBytes s.smp a v size, resp := some (.ok none) } := by
  unfold hostWrite
  rw [h]

/-- A write to `CMD` executes the command word whole and is answered OK (R19, R50). -/
theorem hostWrite_cmd (h : busTarget s.par addr size = some (.reg .cmd)) (cw : Word) :
    hostWrite addr size cw s = .next { finish s (wordBody cw s) with resp := some (.ok none) } := by
  unfold hostWrite
  rw [h]
  simp only [command_eq_finish_wordBody, answer]

/-- A write to a register other than `CMD` stores what the register takes and is answered OK (R25). -/
theorem hostWrite_reg {r : Reg} (hr : r ≠ .cmd) (h : busTarget s.par addr size = some (.reg r)) (v : Word) :
    hostWrite addr size v s = .next { writeReg r v s with resp := some (.ok none) } := by
  unfold hostWrite
  rw [h]
  cases r
  case cmd => exact absurd rfl hr
  all_goals rfl

end

/-! ### When a body with checks completes -/

theorem requireConfigured_eq_ok_iff {s t : State} {b : Except ResultCode State} :
    requireConfigured s b = .ok t ↔ s.status.cfgValid = true ∧ b = .ok t := by
  rcases requireConfigured_cases s b with ⟨hv, e⟩ | ⟨hv, e⟩ <;> simp [e, hv]

theorem requireIndex_eq_ok_iff {idx : Nat} {s t : State} {b : Except ResultCode State} :
    requireIndex idx s b = .ok t ↔ idx < smpWords s.par ∧ b = .ok t := by
  rcases requireIndex_cases idx s b with ⟨hi, e⟩ | ⟨hi, e⟩ <;> simp [e, hi]

theorem decodeBody_eq_ok_iff {s t : State} :
    decodeBody s = .ok t ↔ lenOk s = true ∧ decodeUpTo (nsmp s) s = t := by
  unfold decodeBody
  cases lenOk s <;> simp

theorem encodeBody_eq_ok_iff {s t : State} :
    encodeBody s = .ok t ↔ lenOk s = true ∧ encodeUpTo (nsmp s) s = t := by
  unfold encodeBody
  cases lenOk s <;> simp

theorem runBody_eq_ok_iff {s t : State} : runBody s = .ok t ↔
    s.status.cfgValid = true ∧ runLoop (nsmp s) { s with filt := freshFilter, seq := freshSequencer } = t := by
  simp [runBody, requireConfigured_eq_ok_iff]

/-- `PROCESS` with `CTRL.EN = 0` does nothing; else it completes when its four parts complete one after the other (R127). -/
theorem processBody_eq_ok_iff {s t : State} : processBody s = .ok t ↔
    (s.ctrl.en = false ∧ s = t) ∨
    (s.ctrl.en = true ∧ ∃ s1 s2 s3, setupBody s = .ok s1 ∧ decodeBody s1 = .ok s2 ∧ runBody s2 = .ok s3 ∧
      encodeBody s3 = .ok t) := by
  unfold processBody
  cases s.ctrl.en with
  | false => simp
  | true =>
    rcases hs : setupBody s with c | s1
    · simp
    rcases hd : decodeBody s1 with c | s2
    · simp [hd]
    rcases hr : runBody s2 with c | s3
    · simp [hd, hr]
    · simp [hd, hr]

end Sys2Proof.Machine
end

section
/-! The parameters through every operation (00_scope.md R3): no loop, body, register write or event of the HOST touches
`par`. -/

namespace Sys2Proof.Machine

/-! ### The datapath and the codec -/

@[simp] theorem wnoise_par (x : F32) (s : State) : (wnoise x s).2.par = s.par := by rw [wnoise_snd]

@[simp] theorem biquad_par (x : F32) (s : State) : (biquad x s).2.par = s.par := by rw [biquad_snd]

@[simp] theorem chainValue_par (x : F32) (s : State) : (chainValue x s).2.par = s.par := by
  obtain ⟨z, e⟩ := chainValue_snd x s
  rw [e]

@[simp] theorem slot_par (s : State) : (slot s).par = s.par := by
  obtain ⟨l, z, h, e, -⟩ := slot_shape s
  rw [e]

@[simp] theorem runLoop_par (n : Nat) (s : State) : (runLoop n s).par = s.par := by
  obtain ⟨l, z, q, m, e⟩ := runLoop_shape n s
  rw [e]

@[simp] theorem decodeUpTo_par (n : Nat) (s : State) : (decodeUpTo n s).par = s.par := by
  obtain ⟨m, e⟩ := decodeUpTo_shape n s
  rw [e]

@[simp] theorem encodeUpTo_par (n : Nat) (s : State) : (encodeUpTo n s).par = s.par := by
  obtain ⟨m, b, e⟩ := encodeUpTo_shape n s
  rw [e]

/-! ### The bodies -/

theorem loadpBody_par {id : Nat} {s t : State} (h : loadpBody id s = .ok t) : t.par = s.par := by
  rcases loadpBody_cases id s with ⟨-, e⟩ | ⟨r, -, -, e⟩ | ⟨-, -, e⟩
  · cases e.symm.trans h; rfl
  · cases e.symm.trans h; rfl
  · cases e.symm.trans h

theorem setupBody_par {s t : State} (h : setupBody s = .ok t) : t.par = s.par := by
  rcases setupBody_cases s with ⟨-, -, e⟩ | ⟨-, -, e⟩ | ⟨-, e⟩
  · cases e.symm.trans h; rfl
  · cases e.symm.trans h
  · cases e.symm.trans h

theorem decodeBody_par {s t : State} (h : decodeBody s = .ok t) : t.par = s.par := by
  obtain ⟨-, rfl⟩ := decodeBody_eq_ok_iff.1 h
  exact decodeUpTo_par _ _

theorem encodeBody_par {s t : State} (h : encodeBody s = .ok t) : t.par = s.par := by
  obtain ⟨-, rfl⟩ := encodeBody_eq_ok_iff.1 h
  exact encodeUpTo_par _ _

theorem runBody_par {s t : State} (h : runBody s = .ok t) : t.par = s.par := by
  obtain ⟨-, rfl⟩ := runBody_eq_ok_iff.1 h
  exact runLoop_par _ _

theorem processBody_par {s t : State} (h : processBody s = .ok t) : t.par = s.par := by
  rcases processBody_eq_ok_iff.1 h with ⟨-, rfl⟩ | ⟨-, s1, s2, s3, hs, hd, hr, he⟩
  · rfl
  · rw [encodeBody_par he, runBody_par hr, decodeBody_par hd, setupBody_par hs]

theorem requireConfigured_ok_par {s t u : State} (h : requireConfigured s (.ok u) = .ok t) (hu : u.par = s.par) :
    t.par = s.par := by
  obtain ⟨-, ⟨⟩⟩ := requireConfigured_eq_ok_iff.1 h
  exact hu

theorem requireIndex_ok_par {idx : Nat} {s t u : State} (h : requireIndex idx s (.ok u) = .ok t) (hu : u.par = s.par) :
    t.par = s.par := by
  obtain ⟨-, ⟨⟩⟩ := requireIndex_eq_ok_iff.1 h
  exact hu

/-- No command's body changes the parameters. -/
theorem commandBody_par {i : Instr} {s t : State} (h : commandBody i s = .ok t) : t.par = s.par := by
  cases i with
  | nop | clrerr | ndraw | bqclr => cases h; rfl
  | loadp id => exact loadpBody_par h
  | setup => exact setupBody_par h
  | decode => exact decodeBody_par h
  | encode => exact encodeBody_par h
  | lds idx | sts idx => exact requireIndex_ok_par h rfl
  | dist | bcr | gain => exact requireConfigured_ok_par h rfl
  | noise => exact requireConfigured_ok_par h (wnoise_par _ _)
  | bq => exact requireConfigured_ok_par h (biquad_par _ _)
  | chain => exact requireConfigured_ok_par h (chainValue_par _ _)
  | step =>
    obtain ⟨-, hb⟩ := requireConfigured_eq_ok_iff.1 h
    split at hb
    · cases hb; exact slot_par s
    · cases hb
  | run => exact runBody_par h
  | process => exact processBody_par h

theorem wordBody_par {cw : Word} {s t : State} (h : wordBody cw s = .ok t) : t.par = s.par := by
  unfold wordBody at h
  split at h
  · exact commandBody_par h
  · cases h

/-- A command keeps the parameters when its body does: `done` and `raise` touch `STATUS` alone (R163). -/
theorem finish_par {s : State} {r : Except ResultCode State} (h : ∀ t, r = .ok t → t.par = s.par) :
    (finish s r).par = s.par := by
  cases r with
  | ok t => exact h t rfl
  | error c => rfl

/-! ### The bus and the step -/

@[simp] theorem writeReg_par (r : Reg) (v : Word) (s : State) : (writeReg r v s).par = s.par := by
  cases r <;> rfl

@[simp] theorem hostRead_par (addr : Word) (size : AccessSize) (s : State) : (hostRead addr size s).par = s.par := by
  unfold hostRead
  split <;> rfl

@[simp] theorem hostReset_par (s : State) : (hostReset s).par = s.par := rfl

/-- Every HOST write answers a next state with the same parameters, whatever it reaches. -/
theorem hostWrite_next_par (addr : Word) (size : AccessSize) (v : Word) (s : State) :
    ∃ t, hostWrite addr size v s = .next t ∧ t.par = s.par := by
  rcases h : busTarget s.par addr size with _ | r | a | a
  · exact ⟨_, hostWrite_refused h v, rfl⟩
  · by_cases hr : r = .cmd
    · subst hr
      exact ⟨_, hostWrite_cmd h v, finish_par fun _ => wordBody_par⟩
    · exact ⟨_, hostWrite_reg hr h v, writeReg_par r v s⟩
  · exact ⟨_, hostWrite_pcm h v, rfl⟩
  · exact ⟨_, hostWrite_smp h v, rfl⟩

theorem takeEvent_next_par (e : HostEvent) (s : State) : ∃ t, takeEvent e s = .next t ∧ t.par = s.par := by
  cases e with
  | write addr size v => exact hostWrite_next_par addr size v s
  | read addr size => exact ⟨_, rfl, hostRead_par addr size s⟩
  | reset => exact ⟨_, rfl, hostReset_par s⟩

theorem step_next_par (s : State) : ∃ t, step s = .next t ∧ t.par = s.par := by
  cases h : s.inbox with
  | nil => exact ⟨s, step_idle h, rfl⟩
  | cons e rest =>
    rw [step_event h]
    exact takeEvent_next_par e _

/-! ### The statements about the step and about reset -/

/-- Settles O9: the state a step answers has the parameters of the state before. -/
theorem stepKeepsTheParameters : Obligations.StepKeepsTheParameters := by
  intro s t h
  obtain ⟨u, hu, hpar⟩ := step_next_par s
  cases hu.symm.trans h
  exact hpar

/-- Settles O8: whatever event waits, or none, the step has a next state. -/
theorem everyStepAnswersANextState : Obligations.EveryStepAnswersANextState := fun s =>
  (step_next_par s).imp fun _ => And.left

/-- Settles O53: the open parameters are restricted to legal ones, the generator starts at `0xACE1`, nothing is listed in
either memory, and `CFG_VALID` and `PID` are 0, so they promise nothing (R30). -/
theorem invariantHoldsAtReset : Obligations.InvariantHoldsAtReset where
  paramsLegal := paramsOk_configParams
  lfsrNonzero := by decide
  memories := memoriesOk_resetWith configParams
  configured := fun h => Bool.noConfusion h
  presetNamed := fun h => absurd rfl h

end Sys2Proof.Machine
end

section
/-! What a legal word decodes to: the build of a row that selects it (30_encoding.md R63). Facts about all legal words are
facts about the 19 rows. -/

namespace Sys2Proof

/-- A word that decodes is selected by a row of the opcode map, and its command is what the row builds. -/
theorem exists_row_of_decode {cw : Word} {i : Instr} (h : decode cw = .ok i) :
    ∃ r ∈ opcodeMap, r.selects cw = true ∧ r.build cw = i := by
  unfold decode at h
  split at h
  next r hr =>
    cases h
    exact ⟨r, List.mem_of_find?_eq_some hr, by simpa using List.find?_some hr, rfl⟩
  next => cases h

/-- An operand read from a word fits its field (R62), so every row builds a well-formed command. -/
theorem build_wellFormed (cw : Word) : ∀ r ∈ opcodeMap, (r.build cw).wellFormed = true := by
  have hid : operandId cw < 2 ^ 8 := (cw.extractLsb' 8 8).isLt
  have hidx : operandIdx cw < 2 ^ 24 := (cw.extractLsb' 8 24).isLt
  simpa [opcodeMap, rowN, rowP, rowX, Instr.wellFormed, idFits, idxFits] using And.intro hid hidx

theorem decode_wellFormed {cw : Word} {i : Instr} (h : decode cw = .ok i) : i.wellFormed = true := by
  obtain ⟨r, hr, -, rfl⟩ := exists_row_of_decode h
  exact build_wellFormed cw r hr

/-- Only the row of `CLRERR` builds `CLRERR`, and its mask fixes the whole word. -/
theorem eq_one_of_decode_clrerr {cw : Word} (h : decode cw = .ok .clrerr) : cw = 0x00000001 := by
  have rows : ∀ r ∈ opcodeMap, r.build cw = .clrerr → r.mask = 0xFFFFFFFF ∧ r.matchBits = 0x00000001 := by
    simp [opcodeMap, rowN, rowP, rowX]
  obtain ⟨r, hr, hs, hb⟩ := exists_row_of_decode h
  obtain ⟨hmask, hmatch⟩ := rows r hr hb
  have hand : cw &&& 0xFFFFFFFF = 0x00000001 := by
    rw [← hmask, ← hmatch]
    exact eq_of_beq hs
  rwa [show (0xFFFFFFFF : Word) = BitVec.allOnes 32 from rfl, BitVec.and_allOnes] at hand

end Sys2Proof
end

section
/-! Sticky flags (10_state.md R20): which operations keep every flag that is set. Only `CLRERR` and `Reset` are missing. -/

namespace Sys2Proof.Machine

/-- Every sticky flag that is set in the first status is set in the second (R20). -/
structure StickyKept (st st' : Status) : Prop where
  eLen : st.eLen = true → st'.eLen = true
  eCfg : st.eCfg = true → st'.eCfg = true
  eCmd : st.eCmd = true → st'.eCmd = true
  eSeq : st.eSeq = true → st'.eSeq = true
  eIdx : st.eIdx = true → st'.eIdx = true
  nanf : st.nanf = true → st'.nanf = true

theorem StickyKept.refl (st : Status) : StickyKept st st := ⟨id, id, id, id, id, id⟩

theorem StickyKept.of_eq {st st' : Status} (h : st' = st) : StickyKept st st' := h ▸ .refl st

theorem StickyKept.trans {a b c : Status} (hab : StickyKept a b) (hbc : StickyKept b c) : StickyKept a c where
  eLen := hbc.eLen ∘ hab.eLen
  eCfg := hbc.eCfg ∘ hab.eCfg
  eCmd := hbc.eCmd ∘ hab.eCmd
  eSeq := hbc.eSeq ∘ hab.eSeq
  eIdx := hbc.eIdx ∘ hab.eIdx
  nanf := hbc.nanf ∘ hab.nanf

/-! ### How a command ends (R163) -/

/-- A result code sets its own flag and clears none (R20, R160). -/
theorem setSticky_stickyKept (c : ResultCode) (st : Status) : StickyKept st (setSticky c st) :=
  match c with
  | .ok => .refl st
  | .invalidBufferLength => { StickyKept.refl st with eLen := fun _ => rfl }
  | .invalidConfiguration => { StickyKept.refl st with eCfg := fun _ => rfl }
  | .illegalCommand => { StickyKept.refl st with eCmd := fun _ => rfl }
  | .notConfigured => { StickyKept.refl st with eSeq := fun _ => rfl }
  | .indexOutOfRange => { StickyKept.refl st with eIdx := fun _ => rfl }

theorem raise_stickyKept (c : ResultCode) (s : State) : StickyKept s.status (raise c s).status :=
  { setSticky_stickyKept c { s.status with result := c } with }

theorem done_stickyKept (s : State) : StickyKept s.status (done s).status := ⟨id, id, id, id, id, id⟩

/-- A command keeps the flags when its body does. -/
theorem finish_stickyKept {s : State} {r : Except ResultCode State} (h : ∀ t, r = .ok t → StickyKept s.status t.status) :
    StickyKept s.status (finish s r).status := by
  cases r with
  | ok t => exact (h t rfl).trans (done_stickyKept t)
  | error c => exact raise_stickyKept c s

/-! ### The datapath and the codec: `STATUS` through their operations -/

@[simp] theorem wnoise_status (x : F32) (s : State) : (wnoise x s).2.status = s.status := by rw [wnoise_snd]

@[simp] theorem biquad_status (x : F32) (s : State) : (biquad x s).2.status = s.status := by rw [biquad_snd]

@[simp] theorem chainValue_status (x : F32) (s : State) : (chainValue x s).2.status = s.status := by
  obtain ⟨z, e⟩ := chainValue_snd x s
  rw [e]

@[simp] theorem slot_status (s : State) : (slot s).status = s.status := by
  obtain ⟨l, z, h, e, -⟩ := slot_shape s
  rw [e]

@[simp] theorem runLoop_status (n : Nat) (s : State) : (runLoop n s).status = s.status := by
  obtain ⟨l, z, q, m, e⟩ := runLoop_shape n s
  rw [e]

@[simp] theorem decodeUpTo_status (n : Nat) (s : State) : (decodeUpTo n s).status = s.status := by
  obtain ⟨m, e⟩ := decodeUpTo_shape n s
  rw [e]

/-- `ENCODE`'s loop touches no flag but `NANF`, which it only sets (R74). -/
theorem encodeUpTo_stickyKept (n : Nat) (s : State) : StickyKept s.status (encodeUpTo n s).status := by
  induction n with
  | zero => exact .refl _
  | succ n ih =>
    obtain ⟨m, e⟩ := encodeSample_shape n (encodeUpTo n s)
    have hlast : StickyKept (encodeUpTo n s).status (encodeSample n (encodeUpTo n s)).status := by
      rw [e]
      exact { StickyKept.refl _ with nanf := fun h => by simp [h] }
    exact ih.trans hlast

/-! ### The bodies -/

theorem loadpBody_stickyKept {id : Nat} {s t : State} (h : loadpBody id s = .ok t) : StickyKept s.status t.status := by
  rcases loadpBody_cases id s with ⟨-, e⟩ | ⟨r, -, -, e⟩ | ⟨-, -, e⟩ <;> cases e.symm.trans h
  · exact { StickyKept.refl s.status with }
  · exact { StickyKept.refl s.status with }

theorem setupBody_stickyKept {s t : State} (h : setupBody s = .ok t) : StickyKept s.status t.status := by
  rcases setupBody_cases s with ⟨-, -, e⟩ | ⟨-, -, e⟩ | ⟨-, e⟩ <;> cases e.symm.trans h
  exact { StickyKept.refl s.status with }

theorem decodeBody_status {s t : State} (h : decodeBody s = .ok t) : t.status = s.status := by
  obtain ⟨-, rfl⟩ := decodeBody_eq_ok_iff.1 h
  exact decodeUpTo_status _ _

theorem encodeBody_stickyKept {s t : State} (h : encodeBody s = .ok t) : StickyKept s.status t.status := by
  obtain ⟨-, rfl⟩ := encodeBody_eq_ok_iff.1 h
  exact encodeUpTo_stickyKept _ _

theorem runBody_status {s t : State} (h : runBody s = .ok t) : t.status = s.status := by
  obtain ⟨-, rfl⟩ := runBody_eq_ok_iff.1 h
  exact runLoop_status _ _

theorem processBody_stickyKept {s t : State} (h : processBody s = .ok t) : StickyKept s.status t.status := by
  rcases processBody_eq_ok_iff.1 h with ⟨-, rfl⟩ | ⟨-, s1, s2, s3, hs, hd, hr, he⟩
  · exact .refl _
  · have hset := setupBody_stickyKept hs
    rw [← decodeBody_status hd, ← runBody_status hr] at hset
    exact hset.trans (encodeBody_stickyKept he)

theorem requireConfigured_ok_status {s t u : State} (h : requireConfigured s (.ok u) = .ok t)
    (hu : u.status = s.status) : t.status = s.status := by
  obtain ⟨-, ⟨⟩⟩ := requireConfigured_eq_ok_iff.1 h
  exact hu

theorem requireIndex_ok_status {idx : Nat} {s t u : State} (h : requireIndex idx s (.ok u) = .ok t)
    (hu : u.status = s.status) : t.status = s.status := by
  obtain ⟨-, ⟨⟩⟩ := requireIndex_eq_ok_iff.1 h
  exact hu

/-- Every command's body but that of `CLRERR` keeps the flags (R81). -/
theorem commandBody_stickyKept {i : Instr} {s t : State} (hi : i ≠ .clrerr) (h : commandBody i s = .ok t) :
    StickyKept s.status t.status := by
  cases i with
  | clrerr => exact absurd rfl hi
  | nop | ndraw | bqclr => cases h; exact .refl _
  | loadp id => exact loadpBody_stickyKept h
  | setup => exact setupBody_stickyKept h
  | decode => exact .of_eq (decodeBody_status h)
  | encode => exact encodeBody_stickyKept h
  | lds idx | sts idx => exact .of_eq (requireIndex_ok_status h rfl)
  | dist | bcr | gain => exact .of_eq (requireConfigured_ok_status h rfl)
  | noise => exact .of_eq (requireConfigured_ok_status h (wnoise_status _ _))
  | bq => exact .of_eq (requireConfigured_ok_status h (biquad_status _ _))
  | chain => exact .of_eq (requireConfigured_ok_status h (chainValue_status _ _))
  | step =>
    obtain ⟨-, hb⟩ := requireConfigured_eq_ok_iff.1 h
    split at hb
    · cases hb; exact .of_eq (slot_status s)
    · cases hb
  | run => exact .of_eq (runBody_status h)
  | process => exact processBody_stickyKept h

/-- A word written to `CMD` keeps the flags unless it is the word of `CLRERR`. -/
theorem wordBody_stickyKept {cw : Word} {s t : State} (hcw : cw ≠ 0x00000001) (h : wordBody cw s = .ok t) :
    StickyKept s.status t.status := by
  unfold wordBody at h
  split at h
  next i hd =>
    have hi : i ≠ .clrerr := fun hi => hcw (eq_one_of_decode_clrerr (hi ▸ hd))
    exact commandBody_stickyKept hi h
  next => cases h

/-! ### The HOST's events -/

/-- A register write touches no flag: `STATUS` is read-only, and R26 clears `CFG_VALID` and `PID` alone. -/
theorem writeReg_stickyKept (r : Reg) (v : Word) (s : State) : StickyKept s.status (writeReg r v s).status := by
  cases r <;> exact { StickyKept.refl s.status with }

theorem hostRead_status (addr : Word) (size : AccessSize) (s : State) : (hostRead addr size s).status = s.status := by
  unfold hostRead
  split <;> rfl

theorem hostWrite_stickyKept {addr v : Word} {size : AccessSize} {s t : State}
    (hne : HostEvent.write addr size v ≠ issue 0x00000001) (h : hostWrite addr size v s = .next t) :
    StickyKept s.status t.status := by
  rcases hb : busTarget s.par addr size with _ | r | a | a
  · cases (hostWrite_refused hb v).symm.trans h
    exact .refl _
  · obtain ⟨rfl, rfl⟩ := busTarget_eq_reg hb
    by_cases hr : r = .cmd
    · subst hr
      have hv : v ≠ 0x00000001 := fun hv => hne (hv ▸ rfl)
      cases (hostWrite_cmd hb v).symm.trans h
      exact finish_stickyKept fun _ => wordBody_stickyKept hv
    · cases (hostWrite_reg hr hb v).symm.trans h
      exact writeReg_stickyKept r v s
  · cases (hostWrite_pcm hb v).symm.trans h
    exact .refl _
  · cases (hostWrite_smp hb v).symm.trans h
    exact .refl _

theorem takeEvent_stickyKept {e : HostEvent} {s t : State} (hreset : e ≠ .reset) (hclr : e ≠ issue 0x00000001)
    (h : takeEvent e s = .next t) : StickyKept s.status t.status := by
  cases e with
  | write addr size v => exact hostWrite_stickyKept hclr h
  | read addr size =>
    cases h
    exact .of_eq (hostRead_status addr size s)
  | reset => exact absurd rfl hreset

/-- Settles O12: the step is the taking of its event, which keeps every flag. -/
theorem stickyFlagsClearOnlyByClrerrOrReset : Obligations.StickyFlagsClearOnlyByClrerrOrReset := by
  intro s t e rest hin hreset hclr hstep
  rw [step_event hin] at hstep
  obtain ⟨hLen, hCfg, hCmd, hSeq, hIdx, hNan⟩ := takeEvent_stickyKept hreset hclr hstep
  exact ⟨hLen, hCfg, hCmd, hSeq, hIdx, hNan⟩

end Sys2Proof.Machine
end

section
/-! The step that issues a command (20_memory.md R41, R50, R51). -/

namespace Sys2Proof.Machine

/-- The word of a command, written to `CMD`, runs the command (R19, R60). -/
theorem command_of_decode {cw : Word} {i : Instr} (h : decode cw = .ok i) (s : State) : command cw s = exec i s := by
  unfold command
  rw [h]

/-- Settles O6: `exec` always answers a next state, which the bus then answers OK. -/
theorem stepExecutesTheIssuedCommand : Obligations.StepExecutesTheIssuedCommand := by
  refine ⟨fun s e rest hin => step_event hin, fun s cw i rest hin hd => ⟨decode_wellFormed hd, ?_⟩⟩
  have hexec := exec_eq_finish_commandBody i { s with inbox := rest }
  refine ⟨_, hexec, ?_⟩
  calc step s = takeEvent (issue cw) { s with inbox := rest } := step_event hin
    _ = answer (.ok none) (exec i { s with inbox := rest }) := by rw [takeEvent_issue, command_of_decode hd]
    _ = _ := by rw [hexec]; rfl

end Sys2Proof.Machine
end

section
/-! `ACC` as an argument that most commands ignore (10_state.md R11): replacing it before the body of such a command is
replacing it after. Taken with the value `ACC` already has, that also says the body keeps it. -/

namespace Sys2Proof.Machine

/-- `s` with another value in `ACC`. -/
def withAcc (v : F32) (s : State) : State := { s with acc := v }

@[simp] theorem withAcc_acc (v : F32) (s : State) : (withAcc v s).acc = v := rfl
@[simp] theorem withAcc_par (v : F32) (s : State) : (withAcc v s).par = s.par := rfl
@[simp] theorem withAcc_ctrl (v : F32) (s : State) : (withAcc v s).ctrl = s.ctrl := rfl
@[simp] theorem withAcc_preset (v : F32) (s : State) : (withAcc v s).preset = s.preset := rfl
@[simp] theorem withAcc_seq (v : F32) (s : State) : (withAcc v s).seq = s.seq := rfl
@[simp] theorem smpWord_withAcc (v : F32) (s : State) : smpWord (withAcc v s) = smpWord s := rfl
@[simp] theorem nsmp_withAcc (v : F32) (s : State) : nsmp (withAcc v s) = nsmp s := rfl
@[simp] theorem lenOk_withAcc (v : F32) (s : State) : lenOk (withAcc v s) = lenOk s := rfl
@[simp] theorem cfgOk_withAcc (v : F32) (s : State) : cfgOk (withAcc v s) = cfgOk s := rfl
@[simp] theorem nvEff_withAcc (v : F32) (s : State) : nvEff (withAcc v s) = nvEff s := rfl
@[simp] theorem bitcrush_withAcc (v : F32) (s : State) : bitcrush (withAcc v s) = bitcrush s := rfl

/-! ### The datapath -/

theorem wnoise_withAcc (x v : F32) (s : State) :
    wnoise x (withAcc v s) = ((wnoise x s).1, withAcc v (wnoise x s).2) := by
  unfold wnoise
  rw [nvEff_withAcc]
  split <;> rfl

theorem biquad_withAcc (x v : F32) (s : State) :
    biquad x (withAcc v s) = ((biquad x s).1, withAcc v (biquad x s).2) := by
  unfold biquad
  rw [withAcc_preset]
  split <;> rfl

theorem noiseAndCrush_withAcc (x v : F32) (s : State) :
    noiseAndCrush x (withAcc v s) = ((noiseAndCrush x s).1, withAcc v (noiseAndCrush x s).2) := by
  simp only [noiseAndCrush, withAcc_preset, bitcrush_withAcc, wnoise_withAcc]
  split <;> rfl

theorem chainValue_withAcc (x v : F32) (s : State) :
    chainValue x (withAcc v s) = ((chainValue x s).1, withAcc v (chainValue x s).2) := by
  simp only [chainValue, noiseAndCrush_withAcc, biquad_withAcc]
  rfl

theorem takeBlock_withAcc (v : F32) (s : State) : takeBlock (withAcc v s) = withAcc v (takeBlock s) := by
  simp only [takeBlock, withAcc_seq, smpWord_withAcc, chainValue_withAcc]
  split <;> rfl

theorem slot_withAcc (v : F32) (s : State) : slot (withAcc v s) = withAcc v (slot s) :=
  congrArg holdSlot (takeBlock_withAcc v s)

/-! ### The loops -/

theorem runLoop_withAcc (n : Nat) (v : F32) (s : State) : runLoop n (withAcc v s) = withAcc v (runLoop n s) := by
  induction n generalizing s with
  | zero => rfl
  | succ n ih =>
    unfold runLoop
    rw [slot_withAcc, ih, apply_ite (withAcc v)]
    rfl

theorem decodeUpTo_withAcc (n : Nat) (v : F32) (s : State) :
    decodeUpTo n (withAcc v s) = withAcc v (decodeUpTo n s) := by
  induction n with
  | zero => rfl
  | succ n ih => simp only [decodeUpTo, ih]; rfl

theorem noteNan_withAcc (i : Nat) (v : F32) (s : State) : noteNan i (withAcc v s) = withAcc v (noteNan i s) := by
  simp only [noteNan_shape]
  rfl

theorem setPcmSample_withAcc (i : Nat) (n : Int) (v : F32) (s : State) :
    setPcmSample i n (withAcc v s) = withAcc v (setPcmSample i n s) := by
  unfold setPcmSample
  rw [apply_ite (withAcc v)]
  rfl

theorem encodeUpTo_withAcc (n : Nat) (v : F32) (s : State) :
    encodeUpTo n (withAcc v s) = withAcc v (encodeUpTo n s) := by
  induction n with
  | zero => rfl
  | succ n ih =>
    simp only [encodeUpTo, encodeSample, ih, noteNan_withAcc, setPcmSample_withAcc]
    rfl

/-! ### The bodies -/

theorem loadpBody_withAcc (id : Nat) (v : F32) (s : State) :
    loadpBody id (withAcc v s) = (loadpBody id s).map (withAcc v) := by
  unfold loadpBody
  rw [withAcc_par]
  split
  · rfl
  · split <;> rfl

theorem setupBody_withAcc (v : F32) (s : State) : setupBody (withAcc v s) = (setupBody s).map (withAcc v) := by
  unfold setupBody
  rw [lenOk_withAcc, cfgOk_withAcc]
  cases lenOk s <;> cases cfgOk s <;> rfl

theorem decodeBody_withAcc (v : F32) (s : State) : decodeBody (withAcc v s) = (decodeBody s).map (withAcc v) := by
  unfold decodeBody
  rw [lenOk_withAcc, decodeUpTo_withAcc]
  cases lenOk s <;> rfl

theorem encodeBody_withAcc (v : F32) (s : State) : encodeBody (withAcc v s) = (encodeBody s).map (withAcc v) := by
  unfold encodeBody
  rw [lenOk_withAcc, encodeUpTo_withAcc]
  cases lenOk s <;> rfl

theorem requireConfigured_withAcc (v : F32) (s : State) (b : Except ResultCode State) :
    requireConfigured (withAcc v s) (b.map (withAcc v)) = (requireConfigured s b).map (withAcc v) := by
  unfold requireConfigured
  rw [apply_ite (Except.map (withAcc v))]
  rfl

theorem stepBody_withAcc (v : F32) (s : State) :
    commandBody .step (withAcc v s) = (commandBody .step s).map (withAcc v) := by
  simp only [commandBody, ← requireConfigured_withAcc, withAcc_seq, nsmp_withAcc, slot_withAcc]
  split <;> rfl

theorem runBody_withAcc (v : F32) (s : State) : runBody (withAcc v s) = (runBody s).map (withAcc v) := by
  have hloop := runLoop_withAcc (nsmp s) v { s with filt := freshFilter, seq := freshSequencer }
  unfold runBody
  rw [← requireConfigured_withAcc, Except.map, ← hloop]
  rfl

/-- `PROCESS` hands the state through its four parts (R127), so each of them passes the value of `ACC` on. -/
theorem processBody_withAcc (v : F32) (s : State) : processBody (withAcc v s) = (processBody s).map (withAcc v) := by
  unfold processBody
  rw [withAcc_ctrl, setupBody_withAcc]
  cases s.ctrl.en with
  | false => rfl
  | true =>
    rcases setupBody s with c | s1
    · rfl
    simp only [if_true, Except.map, decodeBody_withAcc]
    rcases decodeBody s1 with c | s2
    · rfl
    simp only [Except.map, runBody_withAcc]
    rcases runBody s2 with c | s3
    · rfl
    exact encodeBody_withAcc v s3

/-! ### The commands -/

/-- The commands that R11 says never read or write `ACC`. -/
def ignoresAcc : Instr → Bool
  | .nop | .clrerr | .loadp _ | .setup | .decode | .encode | .bqclr | .step | .run | .process => true
  | .lds _ | .sts _ | .dist | .bcr | .ndraw | .noise | .bq | .gain | .chain => false

theorem commandBody_withAcc {i : Instr} (hi : ignoresAcc i = true) (v : F32) (s : State) :
    commandBody i (withAcc v s) = (commandBody i s).map (withAcc v) := by
  cases i with
  | nop | clrerr | bqclr => rfl
  | loadp id => exact loadpBody_withAcc id v s
  | setup => exact setupBody_withAcc v s
  | decode => exact decodeBody_withAcc v s
  | encode => exact encodeBody_withAcc v s
  | step => exact stepBody_withAcc v s
  | run => exact runBody_withAcc v s
  | process => exact processBody_withAcc v s
  | lds | sts | dist | bcr | ndraw | noise | bq | gain | chain => cases hi

theorem finish_withAcc (v : F32) (s : State) (r : Except ResultCode State) :
    finish (withAcc v s) (r.map (withAcc v)) = withAcc v (finish s r) := by
  cases r <;> rfl

/-- Replacing `ACC` before a command that ignores it is replacing it after. -/
theorem exec_withAcc {i : Instr} (hi : ignoresAcc i = true) {s t : State} (h : exec i s = .next t) (v : F32) :
    exec i (withAcc v s) = .next (withAcc v t) := by
  rw [exec_eq_finish_commandBody] at h ⊢
  cases h
  rw [commandBody_withAcc hi, finish_withAcc]

/-- A command that ignores `ACC` keeps it: it answers the same whether or not `ACC` is first replaced by itself. -/
theorem exec_acc {i : Instr} (hi : ignoresAcc i = true) {s t : State} (h : exec i s = .next t) : t.acc = s.acc := by
  have hself : exec i s = .next (withAcc s.acc t) := exec_withAcc hi h s.acc
  have ht : t = withAcc s.acc t := Host.Outcome.next.inj (h.symm.trans hself)
  rw [ht, withAcc_acc]

/-- Settles O44: the command and a new value of `ACC` exchange, and that says both halves. -/
theorem wholeArrayCommandsIgnoreAcc : Obligations.WholeArrayCommandsIgnoreAcc := by
  intro i s t v hi h
  have hig : ignoresAcc i = true := by
    rcases hi with rfl | rfl | ⟨id, rfl⟩ | rfl | rfl | rfl | rfl | rfl | rfl | rfl <;> rfl
  exact ⟨exec_acc hig h, exec_withAcc hig h v⟩

end Sys2Proof.Machine
end

section
/-! The register words bit by bit (10_state.md R20 to R23): which bits of `v` a word written and read back keeps, and the field
at each place of a word that packs several. -/

namespace Sys2Proof.Machine

/-! ### Read back after a write: a field is the word under a mask -/

/-- The mask of the `n` bits from bit `k` up. -/
def fieldMask (k n : Nat) : Word := (BitVec.allOnes n).setWidth 32 <<< k

/-- A field taken out of a word and put back at its place is the word under the field's mask. -/
theorem extract_shifted_back (v : Word) (k n : Nat) : (v.extractLsb' k n).setWidth 32 <<< k = v &&& fieldMask k n := by
  apply BitVec.eq_of_getLsbD_eq
  intro i hi
  simp only [fieldMask, BitVec.getLsbD_and, BitVec.getLsbD_shiftLeft, BitVec.getLsbD_setWidth, BitVec.getLsbD_extractLsb',
    BitVec.getLsbD_allOnes]
  by_cases h : i < k
  · simp [h]
  · rw [Nat.add_sub_cancel' (Nat.le_of_not_lt h)]
    simp only [hi, h, Bool.and_comm, Bool.and_left_comm, Bool.and_assoc]

theorem extract_low (v : Word) (n : Nat) : (v.extractLsb' 0 n).setWidth 32 = v &&& fieldMask 0 n := by
  simpa using extract_shifted_back v 0 n

/-- One bit taken out of a word and put back is the word under that bit. -/
theorem bitAt_getLsbD {k : Nat} (hk : k < 32) (v : Word) : bitAt k (v.getLsbD k) = v &&& bitAt k true := by
  apply BitVec.eq_of_getLsbD_eq
  intro i _
  rw [BitVec.getLsbD_and, getLsbD_bitAt hk, getLsbD_bitAt hk, Bool.true_and]
  by_cases h : i = k
  · rw [h]
  · simp [h]

/-- `CTRL` reads what was written without the reserved bits (R22). -/
theorem ctrlWord_ctrlOfWord (v : Word) : ctrlWord (ctrlOfWord v) = v &&& 0x00007F1F := by
  simp only [ctrlWord, ctrlOfWord, bitAt_getLsbD (show 0 < 32 by decide), bitAt_getLsbD (show 1 < 32 by decide),
    bitAt_getLsbD (show 4 < 32 by decide), extract_shifted_back, ← BitVec.and_or_distrib_left]
  rfl

/-- `PCFG` reads what was written without the reserved bits (R21). -/
theorem pcfgWord_pcfgOfWord (v : Word) (p : Preset) : pcfgWord (pcfgOfWord v p) = v &&& 0x000007FF := by
  simp only [pcfgWord, pcfgOfWord, bitAt_getLsbD (show 7 < 32 by decide), extract_low, extract_shifted_back,
    ← BitVec.and_or_distrib_left]
  rfl

/-- `LFSR` reads the low half of what was written, and 1 for an all-zero half (R18). -/
theorem lfsrOfWord_setWidth (v : Word) :
    (lfsrOfWord v).setWidth 32 = if v &&& 0x0000FFFF = 0 then 1 else v &&& 0x0000FFFF := by
  have hlow : (v.extractLsb' 0 16).setWidth 32 = v &&& 0x0000FFFF := extract_low v 16
  have hzero : v.extractLsb' 0 16 = 0 ↔ v &&& 0x0000FFFF = 0 := by
    rw [← hlow, ← BitVec.toNat_inj, ← BitVec.toNat_inj, BitVec.toNat_setWidth_of_le (by decide)]
    rfl
  unfold lfsrOfWord
  simp only [hzero, apply_ite (BitVec.setWidth 32), hlow]
  rfl

/-! ### The bits of a packed word -/

/-- Bits that agree one by one make a field. -/
theorem extractLsb'_eq_of_getLsbD {w : Word} {k n : Nat} {x : BitVec n}
    (h : ∀ j < n, w.getLsbD (k + j) = x.getLsbD j) : w.extractLsb' k n = x := by
  apply BitVec.eq_of_getLsbD_eq
  intro j hj
  simp [hj, h j hj]

/-- The bits of a zero-extended field. -/
theorem getLsbD_field {n : Nat} (x : BitVec n) {i : Nat} (hi : i < 32) : (x.setWidth 32).getLsbD i = x.getLsbD i := by
  simp [hi]

/-- The bits of a zero-extended field put at a place. -/
theorem getLsbD_fieldAt {n : Nat} (x : BitVec n) (k : Nat) {i : Nat} (hi : i < 32) :
    (x.setWidth 32 <<< k).getLsbD i = (decide (k ≤ i) && x.getLsbD (i - k)) := by
  rw [BitVec.getLsbD_shiftLeft, getLsbD_field x (Nat.lt_of_le_of_lt (Nat.sub_le i k) hi), ← decide_not]
  simp [hi]

/-- `CTRL` bit by bit (R22). -/
theorem getLsbD_ctrlWord (c : Ctrl) {i : Nat} (hi : i < 32) :
    (ctrlWord c).getLsbD i = (c.en && decide (i = 0) || c.width && decide (i = 1) ||
      decide (2 ≤ i) && c.crate.getLsbD (i - 2) || c.noiseOff && decide (i = 4) ||
      decide (8 ≤ i) && c.vol.getLsbD (i - 8)) := by
  simp [ctrlWord, getLsbD_bitAt, getLsbD_fieldAt _ _ hi]

/-- `PCFG` bit by bit (R21). -/
theorem getLsbD_pcfgWord (p : Preset) {i : Nat} (hi : i < 32) :
    (pcfgWord p).getLsbD i = (p.bits.getLsbD i || decide (5 ≤ i) && p.trate.getLsbD (i - 5) ||
      p.nafter && decide (i = 7) || decide (8 ≤ i) && p.ftype.getLsbD (i - 8)) := by
  simp [pcfgWord, getLsbD_bitAt, getLsbD_fieldAt _ _ hi, getLsbD_field _ hi, -BitVec.getLsbD_eq_getElem]

/-- `STATUS` bit by bit (R20). -/
theorem getLsbD_statusWord (st : Status) {i : Nat} (hi : i < 32) :
    (statusWord st).getLsbD i = (st.result.code.getLsbD i || st.cfgValid && decide (i = 4) ||
      st.eLen && decide (i = 8) || st.eCfg && decide (i = 9) || st.eCmd && decide (i = 10) ||
      st.eSeq && decide (i = 11) || st.eIdx && decide (i = 12) || st.nanf && decide (i = 13) ||
      decide (24 ≤ i) && st.pid.getLsbD (i - 24)) := by
  simp [statusWord, getLsbD_bitAt, getLsbD_fieldAt _ _ hi, getLsbD_field _ hi, -BitVec.getLsbD_eq_getElem]

/-- The fields of `CTRL` at their places, the reserved bits 0 (R22). -/
theorem ctrlWord_fields (c : Ctrl) :
    (ctrlWord c).getLsbD 0 = c.en ∧ (ctrlWord c).getLsbD 1 = c.width ∧ (ctrlWord c).extractLsb' 2 2 = c.crate ∧
    (ctrlWord c).getLsbD 4 = c.noiseOff ∧ (ctrlWord c).extractLsb' 5 3 = 0 ∧ (ctrlWord c).extractLsb' 8 7 = c.vol ∧
    (ctrlWord c).extractLsb' 15 17 = 0 := by
  refine ⟨?en, ?width, extractLsb'_eq_of_getLsbD ?crate, ?noiseOff, extractLsb'_eq_of_getLsbD ?low,
    extractLsb'_eq_of_getLsbD ?vol, extractLsb'_eq_of_getLsbD ?high⟩
  all_goals grind [getLsbD_ctrlWord]

/-- The fields of `PCFG` at their places, the reserved bits 0 (R21). -/
theorem pcfgWord_fields (p : Preset) :
    (pcfgWord p).extractLsb' 0 5 = p.bits ∧ (pcfgWord p).extractLsb' 5 2 = p.trate ∧ (pcfgWord p).getLsbD 7 = p.nafter ∧
    (pcfgWord p).extractLsb' 8 3 = p.ftype ∧ (pcfgWord p).extractLsb' 11 21 = 0 := by
  refine ⟨extractLsb'_eq_of_getLsbD ?bits, extractLsb'_eq_of_getLsbD ?trate, ?nafter, extractLsb'_eq_of_getLsbD ?ftype,
    extractLsb'_eq_of_getLsbD ?high⟩
  all_goals grind [getLsbD_pcfgWord]

/-- The fields of `STATUS` at their places, `BUSY` and the reserved bits 0 (R20). -/
theorem statusWord_fields (st : Status) :
    (statusWord st).extractLsb' 0 4 = st.result.code ∧
    (statusWord st).getLsbD 4 = st.cfgValid ∧ (statusWord st).extractLsb' 5 3 = 0 ∧
    (statusWord st).getLsbD 8 = st.eLen ∧ (statusWord st).getLsbD 9 = st.eCfg ∧ (statusWord st).getLsbD 10 = st.eCmd ∧
    (statusWord st).getLsbD 11 = st.eSeq ∧ (statusWord st).getLsbD 12 = st.eIdx ∧ (statusWord st).getLsbD 13 = st.nanf ∧
    (statusWord st).extractLsb' 14 10 = 0 ∧ (statusWord st).extractLsb' 24 8 = st.pid := by
  refine ⟨extractLsb'_eq_of_getLsbD ?result, ?cfgValid, extractLsb'_eq_of_getLsbD ?busy, ?eLen, ?eCfg, ?eCmd, ?eSeq, ?eIdx,
    ?nanf, extractLsb'_eq_of_getLsbD ?reserved, extractLsb'_eq_of_getLsbD ?pid⟩
  all_goals grind [getLsbD_statusWord]

end Sys2Proof.Machine
end

section
/-! The HOST's transactions on registers (10_state.md R18 to R26, R30; 20_memory.md R46): what a write stores and invalidates, what
a read gives back, and what every register reads after reset. -/

namespace Sys2Proof.Machine

/-! ### Reads -/

/-- The recorded response is no register (log 2). -/
theorem readReg_resp (s : State) (x : Option BusResponse) (r : Reg) : readReg { s with resp := x } r = readReg s r := by
  cases r <;> rfl

/-- A list of register addresses and words is what the HOST reads when it lists each register's word. -/
theorem takeEvent_read_table {s : State} {l : List (Word × Word)} {rs : List Reg}
    (h : l = rs.map fun r => (regAddr r, readReg s r)) :
    ∀ p ∈ l, takeEvent (.read p.1 .four) s = .next { s with resp := some (.ok (some p.2)) } := by
  subst h
  exact List.forall_mem_map.2 fun r _ => takeEvent_readReg r s

/-- A register written and read back. -/
theorem runEvents_write_read {r : Reg} (hr : r ≠ .cmd) (v : Word) (s : State) :
    ∃ t, runEvents [.write (regAddr r) .four v, .read (regAddr r) .four] s = some t ∧
      t.resp = some (.ok (some (readReg (writeReg r v s) r))) := by
  refine ⟨{ writeReg r v s with resp := some (.ok (some (readReg (writeReg r v s) r))) }, ?_, rfl⟩
  simp only [runEvents, takeEvent_writeReg hr, takeEvent_readReg, nextOf, Option.bind_some, readReg_resp]

/-- The registers that store the written pattern itself: the parameters of the preset that are floats, and `ACC` (R11, R21). -/
def patternRegs : List Reg := [.pDrive, .pNvol, .pFreq, .pQ, .pGain, .acc]

theorem readReg_writeReg_pattern (v : Word) (s : State) :
    ∀ r ∈ patternRegs, r ≠ .cmd ∧ readReg (writeReg r v s) r = v := by
  simp [patternRegs, writeReg, writePreset, readReg]

/-- Settles O47: what is written and read back is the word under the mask of the register's fields, and every state's packed
words carry their fields at their places. -/
theorem registersReadBackWhatTheyStore : Obligations.RegistersReadBackWhatTheyStore := by
  refine ⟨fun s v => ⟨?ctrl, ?len, ?pcfg, ?lfsr, ?pattern⟩, fun s => ⟨?table, ?ctrlFields, ?pcfgFields, ?statusFields⟩⟩
  case ctrl =>
    rw [← ctrlWord_ctrlOfWord]
    exact runEvents_write_read (r := .ctrl) (by decide) v s
  case len =>
    rw [show (0x01FFFFFF : Word) = fieldMask 0 25 from rfl, ← extract_low]
    exact runEvents_write_read (r := .len) (by decide) v s
  case pcfg =>
    rw [← pcfgWord_pcfgOfWord v s.preset]
    exact runEvents_write_read (r := .pcfg) (by decide) v s
  case lfsr =>
    rw [← lfsrOfWord_setWidth]
    exact runEvents_write_read (r := .lfsr) (by decide) v s
  case pattern =>
    show ∀ a ∈ patternRegs.map regAddr, _
    refine List.forall_mem_map.2 fun r hr => ?_
    obtain ⟨hcmd, hread⟩ := readReg_writeReg_pattern v s r hr
    simpa only [hread] using runEvents_write_read hcmd v s
  case table =>
    exact takeEvent_read_table (rs := [.cmd, .blk, .idx, .ph, .hold, .norm, .a0, .a1, .a2, .b1, .b2, .z1, .z2, .len, .pDrive,
      .pNvol, .pFreq, .pQ, .pGain, .lfsr, .acc]) rfl
  case ctrlFields => exact ⟨_, takeEvent_readReg .ctrl s, ctrlWord_fields s.ctrl⟩
  case pcfgFields => exact ⟨_, takeEvent_readReg .pcfg s, pcfgWord_fields s.preset⟩
  case statusFields =>
    obtain ⟨hresult, hrest⟩ := statusWord_fields s.status
    exact ⟨_, takeEvent_readReg .status s, hresult.trans (by cases s.status.result <;> rfl), hrest⟩

/-! ### Writes -/

/-- The read-only registers (R24, R25). -/
def readOnlyRegs : List Reg := [.status, .blk, .idx, .ph, .hold, .norm, .a0, .a1, .a2, .b1, .b2, .z1, .z2]

theorem writeReg_readOnly (v : Word) (s : State) : ∀ r ∈ readOnlyRegs, r ≠ .cmd ∧ writeReg r v s = s := by
  simp [readOnlyRegs, writeReg]

/-- Every register lies below both memory windows (R42). -/
theorem regAddr_lt (r : Reg) : (regAddr r).toNat < 0x10000000 := by
  cases r <;> decide

/-- A write at or above the PCM window reaches a memory or nothing, so no register takes it (R42). -/
theorem takeEvent_write_above_registers {a : Word} (ha : 0x10000000 ≤ a.toNat) (n : AccessSize) (v : Word) (s : State) :
    ∃ t, takeEvent (.write a n v) s = .next t ∧ t = { s with pcm := t.pcm, smp := t.smp, resp := t.resp } := by
  rcases hb : busTarget s.par a n with _ | r | x | x
  · exact ⟨_, hostWrite_refused hb v, rfl⟩
  · obtain ⟨-, rfl⟩ := busTarget_eq_reg hb
    exact absurd (regAddr_lt r) (Nat.not_lt.2 ha)
  · exact ⟨_, hostWrite_pcm hb v, rfl⟩
  · exact ⟨_, hostWrite_smp hb v, rfl⟩

/-- Settles O48: each register's write, and the writes beyond the registers. -/
theorem parameterWritesInvalidateTheSetup : Obligations.ParameterWritesInvalidateTheSetup := by
  intro s v
  refine ⟨takeEvent_writeReg (r := .ctrl) (by decide) v s, takeEvent_writeReg (r := .len) (by decide) v s, ?preset,
    takeEvent_writeReg (r := .lfsr) (by decide) v s, takeEvent_writeReg (r := .acc) (by decide) v s,
    fun a n ha => takeEvent_write_above_registers ha n v s, ?readOnly⟩
  case preset =>
    simp only [List.forall_mem_cons]
    exact ⟨takeEvent_writeReg (r := .pcfg) (by decide) v s, takeEvent_writeReg (r := .pDrive) (by decide) v s,
      takeEvent_writeReg (r := .pNvol) (by decide) v s, takeEvent_writeReg (r := .pFreq) (by decide) v s,
      takeEvent_writeReg (r := .pQ) (by decide) v s, takeEvent_writeReg (r := .pGain) (by decide) v s,
      List.forall_mem_nil _⟩
  case readOnly =>
    show ∀ a ∈ readOnlyRegs.map regAddr, _
    refine List.forall_mem_map.2 fun r hr => ?_
    obtain ⟨hcmd, hkept⟩ := writeReg_readOnly v s r hr
    rw [takeEvent_writeReg hcmd, hkept]

/-! ### Reset -/

/-- Every register reads its value of R30 after reset, whatever the parameters. -/
theorem readReg_resetWith (p : Params) (r : Reg) :
    readReg (State.resetWith p) r = if r = .lfsr then 0x0000ACE1 else 0x00000000 := by
  cases r with
  | status => simp [readReg, State.resetWith, statusWord, bitAt, ResultCode.code]
  | ctrl => simp [readReg, State.resetWith, ctrlWord, bitAt]
  | pcfg => simp [readReg, State.resetWith, pcfgWord, bitAt]
  | _ => rfl

/-- The registers after `Reset` are those of the reset state (R180). -/
theorem readReg_hostReset (s : State) (r : Reg) : readReg (hostReset s) r = readReg (State.resetWith s.par) r := by
  cases r <;> rfl

/-- The `k`-th register of the map lies at `4 k`, and `LFSR` is number 10 (R24). -/
theorem exists_reg_at {k : Nat} (hk : k < 24) : ∃ r, regAddr r = BitVec.ofNat 32 (4 * k) ∧ (r = .lfsr ↔ k = 10) := by
  have hmap : ∀ k : Fin 24, regAddr registerMap[k] = BitVec.ofNat 32 (4 * k) ∧ (registerMap[k] = .lfsr ↔ k.val = 10) := by
    decide
  exact ⟨_, hmap ⟨k, hk⟩⟩

/-- Settles O52: the reset state holds R30's values, and a `Reset` event restores them. -/
theorem resetRestoresEveryRegister : Obligations.ResetRestoresEveryRegister := by
  refine ⟨readReg_resetWith configParams, fun k hk => ?_, fun s => ⟨hostReset s, rfl, rfl, rfl, rfl, rfl, fun r => ?_⟩⟩
  · obtain ⟨r, haddr, hlfsr⟩ := exists_reg_at hk
    have hread : readReg State.reset r = if k = 10 then 0x0000ACE1 else 0x00000000 := by
      rw [State.reset, readReg_resetWith]
      simp only [hlfsr]
    rw [← haddr, takeEvent_readReg, hread]
  · rw [readReg_hostReset, readReg_resetWith]

end Sys2Proof.Machine
end

section
/-! A HOST transaction by what it reaches (20_memory.md R41, R45 to R47, R50): an allowed one is answered OK, a refused one
BusError, and a read changes nothing but the record of its answer. -/

namespace Sys2Proof.Machine

/-! ### Reads -/

/-- The recorded response is no part of what a read reaches (log 2). -/
theorem readTarget_resp (s : State) (x : Option BusResponse) (n : AccessSize) (b : BusTarget) :
    readTarget { s with resp := x } n b = readTarget s n b := by
  cases b with
  | reg r => exact readReg_resp s x r
  | pcm a => rfl
  | smp a => rfl

/-- An allowed read is answered OK with the data of what it reaches. -/
theorem takeEvent_read_target {s : State} {a : Word} {n : AccessSize} {b : BusTarget} (h : busTarget s.par a n = some b) :
    takeEvent (.read a n) s = .next { s with resp := some (.ok (some (readTarget s n b))) } := by
  simp only [takeEvent, hostRead, h]

/-- A refused read is answered BusError with the next undefined data (log 6). -/
theorem takeEvent_read_refused {s : State} {a : Word} {n : AccessSize} (h : busTarget s.par a n = none) :
    takeEvent (.read a n) s = .next { s with
      resp := some (.busError (some (clip n (Config.refusedReadData s.undef)))), undef := s.undef + 1 } := by
  simp only [takeEvent, hostRead, h]

/-- Settles O49: the read reaches the same target again, whose data do not depend on the response recorded before. -/
theorem readsHaveNoSideEffect : Obligations.ReadsHaveNoSideEffect := by
  intro s a n hallowed
  obtain ⟨b, hb⟩ := (transactionAllowed_iff s.par a n).1 hallowed
  refine ⟨readTarget s n b, takeEvent_read_target hb, ?_⟩
  refine (takeEvent_read_target hb).trans ?_
  rw [readTarget_resp]

/-! ### Writes -/

/-- A write that reaches something is answered OK: memory, register and, whatever its command's result, `CMD` (R50). -/
theorem hostWrite_target_ok {s : State} {a : Word} {n : AccessSize} {b : BusTarget} (h : busTarget s.par a n = some b)
    (v : Word) : ∃ t, hostWrite a n v s = .next t ∧ t.resp = some (.ok none) := by
  cases b with
  | reg r =>
    by_cases hr : r = .cmd
    · subst hr
      exact ⟨_, hostWrite_cmd h v, rfl⟩
    · exact ⟨_, hostWrite_reg hr h v, rfl⟩
  | pcm x => exact ⟨_, hostWrite_pcm h v, rfl⟩
  | smp x => exact ⟨_, hostWrite_smp h v, rfl⟩

/-- Settles O50: a transaction is allowed exactly when it reaches something. -/
theorem disallowedTransactionsGetBusError : Obligations.DisallowedTransactionsGetBusError := by
  intro s a n
  constructor
  · intro hrefused
    have hnone : busTarget s.par a n = none := busTarget_eq_none hrefused
    exact ⟨hostWrite_refused hnone, _, takeEvent_read_refused hnone⟩
  · intro hallowed v
    obtain ⟨b, hb⟩ := (transactionAllowed_iff s.par a n).1 hallowed
    exact hostWrite_target_ok hb v

end Sys2Proof.Machine
end

section
/-! The memory windows (20_memory.md R42, R43, R45; 10_state.md R28): which byte of the data a write puts at which address, and
which bytes a read joins. -/

namespace Sys2Proof.Machine

/-! ### The PCM memory -/

/-- `MemWrite(PCM, a, n, v)`: the bytes of `v` to `PCM[a] ..`, little-endian (R43). -/
def storePcm (a : Nat) (v : Word) (n : AccessSize) (s : State) : State := { s with pcm := storeBytes s.pcm a v n }

/-- Byte `k` of the data goes to `PCM[a + k]` (R43). -/
theorem pcmByte_storePcm_inside (s : State) (a : Nat) (v : Word) {n : AccessSize} {k : Nat} (hk : k < AccessSize.bytes n) :
    pcmByte (storePcm a v n s) (a + k) = byteOf v k := by
  simp only [pcmByte, storePcm]
  rw [storeBytes_get?_inside _ _ _ (Nat.le_add_right a k) (Nat.add_lt_add_left hk a), Nat.add_sub_cancel_left,
    Option.getD_some]

/-- A store in the PCM memory leaves every other byte (R45). -/
theorem pcmByte_storePcm_outside (s : State) {a x : Nat} (v : Word) {n : AccessSize}
    (hx : x < a ∨ a + AccessSize.bytes n ≤ x) : pcmByte (storePcm a v n s) x = pcmByte s x := by
  simp only [pcmByte, storePcm, storeBytes_get?_outside _ _ _ hx]

/-- The upper two bytes of a word, joined little-endian, are its upper half (R43). -/
theorem joinBytes_upper_half {v : Word} {read : Nat → Byte} {a : Nat} (h2 : read a = byteOf v 2)
    (h3 : read (a + 1) = byteOf v 3) : joinBytes read a .two = v >>> 16 := by
  have hhalf : byteOf v 3 ++ byteOf v 2 = v.extractLsb' 16 16 :=
    BitVec.extractLsb'_append_extractLsb'_eq_extractLsb' (by decide)
  simp only [joinBytes, h2, h3, hhalf]
  apply BitVec.eq_of_toNat_eq
  simp only [BitVec.toNat_setWidth, BitVec.extractLsb'_toNat, BitVec.toNat_ushiftRight, Nat.shiftRight_eq_div_pow]
  omega

/-! ### The sample memory -/

/-- Byte `k` of the data goes to byte `4 i + k` of the sample memory (R28, R43). -/
theorem smpByte_setSmpWord_inside (s : State) (i : Nat) (v : F32) {k : Nat} (hk : k < 4) :
    smpByte (setSmpWord i v s) (4 * i + k) = byteOf v k := by
  rw [smpByte_setSmpWord, if_pos (by omega), Nat.add_sub_cancel_left]

/-- A store of `SMP[i]` leaves every byte of the other words (R28, R45). -/
theorem smpByte_setSmpWord_outside (s : State) {i x : Nat} (v : F32) (hx : x < 4 * i ∨ 4 * i + 4 ≤ x) :
    smpByte (setSmpWord i v s) x = smpByte s x := by
  rw [smpByte_setSmpWord, if_neg (by omega)]

/-! ### The transactions of the two windows -/

/-- An allowed write in the PCM window stores its bytes (R42, R45). -/
theorem takeEvent_write_pcm {s : State} {a : Nat} {n : AccessSize} (hp : s.par.pcmBytes ≤ 2 ^ 24)
    (halign : a % AccessSize.bytes n = 0) (hin : a + AccessSize.bytes n ≤ s.par.pcmBytes) (v : Word) :
    takeEvent (.write (BitVec.ofNat 32 (0x10000000 + a)) n v) s
      = .next { storePcm a v n s with resp := some (.ok none) } :=
  hostWrite_pcm (busTarget_pcm hp halign hin) v

/-- An allowed read in the PCM window joins its bytes (R42, R45). -/
theorem takeEvent_read_pcm {s : State} {a : Nat} {n : AccessSize} (hp : s.par.pcmBytes ≤ 2 ^ 24)
    (halign : a % AccessSize.bytes n = 0) (hin : a + AccessSize.bytes n ≤ s.par.pcmBytes) :
    takeEvent (.read (BitVec.ofNat 32 (0x10000000 + a)) n) s
      = .next { s with resp := some (.ok (some (joinBytes (pcmByte s) a n))) } :=
  takeEvent_read_target (busTarget_pcm hp halign hin)

/-- A 4-byte write at a sample word's address is `SMP[i] <- v` (R28, R42). -/
theorem takeEvent_write_smp {s : State} {i : Nat} (hp : s.par.pcmBytes ≤ 2 ^ 24) (hi : i < s.par.pcmBytes) (v : Word) :
    takeEvent (.write (BitVec.ofNat 32 (0x20000000 + 4 * i)) .four v) s
      = .next { setSmpWord i v s with resp := some (.ok none) } :=
  hostWrite_smp (busTarget_smp hp hi) v

/-- A 4-byte read at a sample word's address gives `SMP[i]` (R28, R42). -/
theorem takeEvent_read_smp {s : State} {i : Nat} (hp : s.par.pcmBytes ≤ 2 ^ 24) (hi : i < s.par.pcmBytes) :
    takeEvent (.read (BitVec.ofNat 32 (0x20000000 + 4 * i)) .four) s
      = .next { s with resp := some (.ok (some (smpWord s i))) } :=
  takeEvent_read_target (busTarget_smp hp hi)

/-- Two events taken one after the other (R51). -/
theorem runEvents_two {e f : HostEvent} {s t u : State} (he : takeEvent e s = .next t) (hf : takeEvent f t = .next u) :
    runEvents [e, f] s = some u := by
  simp only [runEvents, nextOf, he, hf, Option.bind_some]

/-- A word written to the PCM window, then its upper half read: the read joins bytes 2 and 3 of the word (R43). -/
theorem runEvents_write_read_upper_half {s : State} {a : Nat} (hp : s.par.pcmBytes ≤ 2 ^ 24) (halign : a % 4 = 0)
    (hin : a + 4 ≤ s.par.pcmBytes) (v : Word) :
    ∃ t, runEvents [.write (BitVec.ofNat 32 (0x10000000 + a)) .four v, .read (BitVec.ofNat 32 (0x10000000 + a + 2)) .two] s
      = some t ∧ t.resp = some (.ok (some (v >>> 16))) := by
  have halign2 : (a + 2) % 2 = 0 := by omega
  have hdata : joinBytes (pcmByte (storePcm a v .four s)) (a + 2) .two = v >>> 16 :=
    joinBytes_upper_half (pcmByte_storePcm_inside s a v (n := .four) (k := 2) (by decide))
      (pcmByte_storePcm_inside s a v (n := .four) (k := 3) (by decide))
  have hwrite := takeEvent_write_pcm (n := .four) hp halign hin v
  have hread := takeEvent_read_pcm (s := { storePcm a v .four s with resp := some (.ok none) }) (n := .two) hp halign2 hin
  rw [Nat.add_assoc]
  exact ⟨_, runEvents_two hwrite hread, congrArg (fun d => some (BusResponse.ok (some d))) hdata⟩

/-- Settles O51: each window's write and read, byte by byte. -/
theorem memoryWindowsAreLittleEndian : Obligations.MemoryWindowsAreLittleEndian := by
  refine ⟨fun s a n hp halign hin => ⟨fun v => ?pcmWrite, ?pcmRead⟩,
    fun s a v hp halign hin => runEvents_write_read_upper_half hp halign hin v,
    fun s i hp hi => ⟨fun v => ?smpWrite, takeEvent_read_smp hp hi, rfl⟩⟩
  case pcmWrite =>
    exact ⟨_, takeEvent_write_pcm hp halign hin v, rfl, fun k hk => pcmByte_storePcm_inside s a v hk,
      fun x hx => pcmByte_storePcm_outside s v hx⟩
  case pcmRead =>
    rw [takeEvent_read_pcm hp halign hin]
    cases n <;> rfl
  case smpWrite =>
    exact ⟨_, takeEvent_write_smp hp hi v, rfl, smpWord_setSmpWord_same s i v, fun k hk => smpByte_setSmpWord_inside s i v hk,
      fun x hx => smpByte_setSmpWord_outside s v hx⟩

end Sys2Proof.Machine
end

section
/-! The opcode map as a decoding table (30_encoding.md R61, R63, R64): no two rows share an opcode, so the row that selects a
word is the decoder's answer, and a word that no row selects has an unused opcode or a reserved bit set. -/

namespace Sys2Proof

/-! ### At most one row selects a word -/

/-- Every row's mask covers the opcode field, and its match is an opcode alone (R61). -/
theorem opcode_within_mask : ∀ r ∈ opcodeMap, r.mask &&& 0xFF = 0xFF ∧ opcodeOf r.matchBits = r.matchBits := by
  decide

/-- The 19 opcodes are distinct (R63). -/
theorem opcodes_nodup : (opcodeMap.map OpcodeRow.matchBits).Nodup := by
  decide

theorem selects_iff (r : OpcodeRow) (cw : Word) : r.selects cw = true ↔ cw &&& r.mask = r.matchBits := beq_iff_eq

/-- A row selects words of its own opcode only. -/
theorem opcodeOf_of_selects {r : OpcodeRow} {cw : Word} (hr : r ∈ opcodeMap) (hs : r.selects cw = true) :
    opcodeOf cw = r.matchBits := by
  obtain ⟨hmask, hmatch⟩ := opcode_within_mask r hr
  calc opcodeOf cw = cw &&& (r.mask &&& 0xFF) := by rw [hmask, opcodeOf]
    _ = opcodeOf r.matchBits := by rw [← BitVec.and_assoc, (selects_iff r cw).1 hs, opcodeOf]
    _ = r.matchBits := hmatch

theorem row_eq_of_opcode {r q : OpcodeRow} {cw : Word} (hr : r ∈ opcodeMap) (hq : q ∈ opcodeMap)
    (hrop : opcodeOf cw = r.matchBits) (hqop : opcodeOf cw = q.matchBits) : r = q :=
  List.inj_on_of_nodup_map opcodes_nodup hr hq (hrop.symm.trans hqop)

theorem row_eq_of_selects {r q : OpcodeRow} {cw : Word} (hr : r ∈ opcodeMap) (hq : q ∈ opcodeMap)
    (hrs : r.selects cw = true) (hqs : q.selects cw = true) : r = q :=
  row_eq_of_opcode hr hq (opcodeOf_of_selects hr hrs) (opcodeOf_of_selects hq hqs)

/-! ### The decoder's answer -/

/-- The decoder answers what the selecting row builds: by uniqueness the order of the rows does not matter. -/
theorem decode_of_selects {r : OpcodeRow} {cw : Word} (hr : r ∈ opcodeMap) (hs : r.selects cw = true) :
    decode cw = .ok (r.build cw) := by
  unfold decode
  split
  next q hq => rw [row_eq_of_selects hr (List.mem_of_find?_eq_some hq) hs (by simpa using List.find?_some hq)]
  next hnone => exact absurd hs (List.find?_eq_none.1 hnone r hr)

theorem decode_eq_ok_iff {cw : Word} {i : Instr} :
    decode cw = .ok i ↔ ∃ r ∈ opcodeMap, r.selects cw = true ∧ r.build cw = i := by
  refine ⟨exists_row_of_decode, ?_⟩
  rintro ⟨r, hr, hs, rfl⟩
  exact decode_of_selects hr hs

theorem decode_eq_error_iff {cw : Word} : (∃ e, decode cw = .error e) ↔ ∀ r ∈ opcodeMap, r.selects cw = false := by
  constructor
  · rintro ⟨e, he⟩ r hr
    by_contra hs
    rw [decode_of_selects hr (eq_true_of_ne_false hs)] at he
    cases he
  · intro hnone
    cases hd : decode cw with
    | error e => exact ⟨e, rfl⟩
    | ok i =>
      obtain ⟨r, hr, hs, -⟩ := exists_row_of_decode hd
      cases (hnone r hr).symm.trans hs

/-- The two kinds of illegal word (R64): no row has its opcode, or the row that has it does not select the word. -/
theorem decode_eq_error_iff_opcode {cw : Word} : (∃ e, decode cw = .error e) ↔
    opcodeOf cw ∉ opcodeMap.map OpcodeRow.matchBits ∨
      ∃ r ∈ opcodeMap, opcodeOf cw = r.matchBits ∧ ¬ r.selects cw = true := by
  rw [decode_eq_error_iff]
  constructor
  · intro hnone
    by_cases hop : opcodeOf cw ∈ opcodeMap.map OpcodeRow.matchBits
    · obtain ⟨r, hr, he⟩ := List.mem_map.1 hop
      exact .inr ⟨r, hr, he.symm, Bool.eq_false_iff.1 (hnone r hr)⟩
    · exact .inl hop
  · rintro (hunused | ⟨r, hr, he, hreserved⟩) q hq
    · exact Bool.eq_false_iff.2 fun hs => hunused (List.mem_map.2 ⟨q, hq, (opcodeOf_of_selects hq hs).symm⟩)
    · refine Bool.eq_false_iff.2 fun hs => hreserved ?_
      rwa [row_eq_of_opcode hr hq he (opcodeOf_of_selects hq hs)]

/-! ### The bits a format fixes to 0 (R61) -/

theorem and_xor_distrib (v a b : Word) : v &&& (a ^^^ b) = (v &&& a) ^^^ (v &&& b) := by
  ext i hi
  simp [Bool.and_xor_distrib_left]

/-- Given its opcode, a row selects a word exactly when the other bits under its mask are 0. -/
theorem selects_iff_reserved {r : OpcodeRow} {cw : Word} (hop : opcodeOf cw = r.matchBits) :
    r.selects cw = true ↔ cw &&& (0xFF ^^^ r.mask) = 0 := by
  have hsplit : cw &&& r.mask = opcodeOf cw ^^^ (cw &&& (0xFF ^^^ r.mask)) := by
    rw [opcodeOf, ← and_xor_distrib, ← BitVec.xor_assoc, BitVec.xor_self, BitVec.zero_xor]
  rw [selects_iff, hsplit, hop]
  constructor
  · intro h
    exact (BitVec.xor_right_inj r.matchBits).1 (h.trans BitVec.xor_zero.symm)
  · intro h
    rw [h]
    exact BitVec.xor_zero

/-- The bits from `k` up are 0 exactly when shifting them down leaves 0. -/
theorem and_high_eq_zero_iff (cw : Word) (k : Nat) : cw &&& (BitVec.allOnes 32 <<< k) = 0 ↔ cw >>> k = 0 := by
  have hle : cw.toNat / 2 ^ k * 2 ^ k < 2 ^ 32 := Nat.lt_of_le_of_lt (Nat.div_mul_le_self _ _) cw.isLt
  rw [← BitVec.shiftLeft_ushiftRight, ← BitVec.toNat_inj, ← BitVec.toNat_inj, BitVec.toNat_shiftLeft,
    BitVec.toNat_ushiftRight, Nat.shiftRight_eq_div_pow, Nat.shiftLeft_eq, Nat.mod_eq_of_lt hle]
  simp

/-- The opcodes of format N, whose mask fixes the whole word (R61). -/
def formatNOpcodes : List Word := (opcodeMap.filter fun r => r.mask == 0xFFFFFFFF).map OpcodeRow.matchBits

theorem mem_formatNOpcodes {op : Word} :
    op ∈ formatNOpcodes ↔ ∃ r ∈ opcodeMap, r.mask = 0xFFFFFFFF ∧ r.matchBits = op := by
  simp only [formatNOpcodes, List.mem_map, List.mem_filter, beq_iff_eq, and_assoc]

/-- Each row is of format N, the row of `LOADP`, or of format X. -/
theorem row_formats : ∀ r ∈ opcodeMap,
    r.mask = 0xFFFFFFFF ∨ (r.matchBits = 0x02 ∧ r.mask = 0xFFFF00FF) ∨ r.mask = 0x000000FF := by
  decide

section
variable {r : OpcodeRow} {cw : Word} (hop : opcodeOf cw = r.matchBits)
include hop

/-- A row whose mask fixes the bits from `k` up, besides the opcode. -/
theorem selects_iff_shifted {k : Nat} (hfixed : 0xFF ^^^ r.mask = BitVec.allOnes 32 <<< k) :
    r.selects cw = true ↔ cw >>> k = 0 := by
  rw [selects_iff_reserved hop, hfixed, and_high_eq_zero_iff]

/-- Format N fixes every bit above the opcode. -/
theorem selects_iff_of_formatN (hmask : r.mask = 0xFFFFFFFF) : r.selects cw = true ↔ cw >>> 8 = 0 :=
  selects_iff_shifted hop (by rw [hmask]; decide)

/-- Format P fixes the bits above its 8-bit operand. -/
theorem selects_iff_of_formatP (hmask : r.mask = 0xFFFF00FF) : r.selects cw = true ↔ cw >>> 16 = 0 :=
  selects_iff_shifted hop (by rw [hmask]; decide)

/-- Format X fixes nothing but the opcode. -/
theorem selects_of_formatX (hmask : r.mask = 0x000000FF) : r.selects cw = true := by
  rw [selects_iff, hmask]
  exact hop

end

/-- The words with a command's opcode that its row does not select (R64): a bit above 7 set in format N, one above 15 in
format P. -/
theorem exists_reserved_iff (cw : Word) :
    (∃ r ∈ opcodeMap, opcodeOf cw = r.matchBits ∧ ¬ r.selects cw = true) ↔
      (opcodeOf cw ∈ formatNOpcodes ∧ cw >>> 8 ≠ 0) ∨ (opcodeOf cw = 0x02 ∧ cw >>> 16 ≠ 0) := by
  constructor
  · rintro ⟨r, hr, hop, hns⟩
    rcases row_formats r hr with hmask | ⟨hloadp, hmask⟩ | hmask
    · exact .inl ⟨mem_formatNOpcodes.2 ⟨r, hr, hmask, hop.symm⟩, fun h => hns ((selects_iff_of_formatN hop hmask).2 h)⟩
    · exact .inr ⟨hop.trans hloadp, fun h => hns ((selects_iff_of_formatP hop hmask).2 h)⟩
    · exact absurd (selects_of_formatX hop hmask) hns
  · rintro (⟨hmem, hhigh⟩ | ⟨hloadp, hhigh⟩)
    · obtain ⟨r, hr, hmask, hop⟩ := mem_formatNOpcodes.1 hmem
      exact ⟨r, hr, hop.symm, fun hs => hhigh ((selects_iff_of_formatN hop.symm hmask).1 hs)⟩
    · have hrow : rowP "LOADP" 0x02 .loadp ∈ opcodeMap := by simp [opcodeMap]
      exact ⟨_, hrow, hloadp, fun hs => hhigh ((selects_iff_of_formatP hloadp rfl).1 hs)⟩

end Sys2Proof
end

section
/-! Operands in command words (30_encoding.md R61, R62): what an operand put into a word reads back as, and what word a row's
command has. -/

namespace Sys2Proof

/-! ### From an operand to its word -/

theorem operandId_eq (cw : Word) : operandId cw = (cw >>> 8).toNat % 2 ^ 8 := by
  rw [operandId, BitVec.extractLsb'_toNat, BitVec.toNat_ushiftRight]

theorem operandIdx_eq (cw : Word) : operandIdx cw = (cw >>> 8).toNat := by
  rw [operandIdx, BitVec.extractLsb'_toNat, BitVec.toNat_ushiftRight, Nat.shiftRight_eq_div_pow]
  omega

/-- An opcode with an operand in the bits above it: shifting the opcode out leaves the operand. -/
theorem opcode_or_operand_shifted {op x : Nat} (hop : op < 2 ^ 8) (hx : x < 2 ^ 24) :
    ((BitVec.ofNat 32 op ||| BitVec.ofNat 32 x <<< 8) >>> 8).toNat = x := by
  have hopcode : BitVec.ofNat 32 op >>> 8 = 0 := by bv_omega
  have hoperand : (BitVec.ofNat 32 x <<< 8 >>> 8).toNat = x := by bv_omega
  rw [BitVec.ushiftRight_or_distrib, hopcode, BitVec.ofNat_eq_ofNat, BitVec.zero_or, hoperand]

theorem operandId_wordP {op id : Nat} (hop : op < 2 ^ 8) (hid : id < 2 ^ 8) : operandId (wordP op id) = id := by
  rw [operandId_eq, wordP, Nat.mod_eq_of_lt hid, opcode_or_operand_shifted hop (by omega), Nat.mod_eq_of_lt hid]

theorem operandIdx_wordX {op idx : Nat} (hop : op < 2 ^ 8) (hidx : idx < 2 ^ 24) : operandIdx (wordX op idx) = idx := by
  rw [operandIdx_eq, wordX, Nat.mod_eq_of_lt hidx, opcode_or_operand_shifted hop hidx]

/-- The word of a format-P command decodes to it. -/
theorem decode_wordP {m : String} {op id : Nat} {f : Nat → Instr} (hrow : rowP m (BitVec.ofNat 32 op) f ∈ opcodeMap)
    (hmatch : wordP op id &&& 0xFFFF00FF = BitVec.ofNat 32 op) (hop : op < 2 ^ 8) (hid : id < 2 ^ 8) :
    decode (wordP op id) = .ok (f id) := by
  have hs : (rowP m (BitVec.ofNat 32 op) f).selects (wordP op id) = true := (selects_iff _ _).2 hmatch
  exact (decode_of_selects hrow hs).trans (congrArg (fun n => Except.ok (f n)) (operandId_wordP hop hid))

/-- The word of a format-X command decodes to it. -/
theorem decode_wordX {m : String} {op idx : Nat} {f : Nat → Instr} (hrow : rowX m (BitVec.ofNat 32 op) f ∈ opcodeMap)
    (hmatch : wordX op idx &&& 0x000000FF = BitVec.ofNat 32 op) (hop : op < 2 ^ 8) (hidx : idx < 2 ^ 24) :
    decode (wordX op idx) = .ok (f idx) := by
  have hs : (rowX m (BitVec.ofNat 32 op) f).selects (wordX op idx) = true := (selects_iff _ _).2 hmatch
  exact (decode_of_selects hrow hs).trans (congrArg (fun n => Except.ok (f n)) (operandIdx_wordX hop hidx))

/-! ### From a word to its operand and back -/

/-- An operand field read from a word and put back above the opcode is the word under the field's mask. -/
theorem operand_put_back (cw : Word) (n : Nat) :
    BitVec.ofNat 32 ((cw.extractLsb' 8 n).toNat % 2 ^ n) <<< 8 = cw &&& Machine.fieldMask 8 n := by
  rw [Nat.mod_eq_of_lt (cw.extractLsb' 8 n).isLt, BitVec.ofNat_toNat, Machine.extract_shifted_back]

/-- The word of a row's command: the row's match, and the bits of the word that the row's mask leaves open. -/
theorem encode_build (cw : Word) :
    ∀ r ∈ opcodeMap, encode (r.build cw) = r.matchBits ||| (cw &&& ~~~r.mask) := by
  have hN : ∀ op : Nat, wordN op = BitVec.ofNat 32 op ||| (cw &&& ~~~0xFFFFFFFF) := by
    intro op
    simp [wordN]
  have hP : ∀ op : Nat, wordP op (operandId cw) = BitVec.ofNat 32 op ||| (cw &&& ~~~0xFFFF00FF) :=
    fun op => congrArg _ (operand_put_back cw 8)
  have hX : ∀ op : Nat, wordX op (operandIdx cw) = BitVec.ofNat 32 op ||| (cw &&& ~~~0x000000FF) :=
    fun op => congrArg _ (operand_put_back cw 24)
  simp only [opcodeMap, List.forall_mem_cons, rowN, rowP, rowX, encode, hN, hP, hX, BitVec.ofNat_eq_ofNat, true_and]
  exact List.forall_mem_nil _

end Sys2Proof
end

section
/-! The statements about command words (30_encoding.md R61 to R64). -/

namespace Sys2Proof

/-- Settles O1: the 16 commands without operand have one fixed word each; for the others the row's match is in the word
(`Laws.RowMatch`) and the operand reads back. -/
theorem encodedCommandDecodesToItself : Obligations.EncodedCommandDecodesToItself := by
  intro i hwf
  cases i with
  | loadp id =>
    have hrow : rowP "LOADP" 0x02 .loadp ∈ opcodeMap := by simp [opcodeMap]
    exact decode_wordP hrow (Laws.RowMatch.loadp id hwf) (by decide) (of_decide_eq_true hwf)
  | lds idx =>
    have hrow : rowX "LDS" 0x12 .lds ∈ opcodeMap := by simp [opcodeMap]
    exact decode_wordX hrow (Laws.RowMatch.lds idx hwf) (by decide) (of_decide_eq_true hwf)
  | sts idx =>
    have hrow : rowX "STS" 0x13 .sts ∈ opcodeMap := by simp [opcodeMap]
    exact decode_wordX hrow (Laws.RowMatch.sts idx hwf) (by decide) (of_decide_eq_true hwf)
  | _ => rfl

/-- Settles O2: under the mask the word is the row's match, and the bits the mask leaves open are those of the operand. -/
theorem legalWordIsTheWordOfItsCommand : Obligations.LegalWordIsTheWordOfItsCommand := by
  intro cw i h
  refine ⟨?_, decode_wellFormed h⟩
  obtain ⟨r, hr, hs, rfl⟩ := exists_row_of_decode h
  calc encode (r.build cw) = r.matchBits ||| (cw &&& ~~~r.mask) := encode_build cw r hr
    _ = (cw &&& r.mask) ||| (cw &&& ~~~r.mask) := by rw [(selects_iff r cw).1 hs]
    _ = cw := by rw [← BitVec.and_or_distrib_left, BitVec.or_not_self, BitVec.and_allOnes]

/-- Settles O3: the first part is the decoder's answer written out over the table, the second the distinctness of its
opcodes. -/
theorem wordIsCommandWhenMaskedMatch : Obligations.WordIsCommandWhenMaskedMatch := by
  constructor
  · intro cw i
    rw [decode_eq_ok_iff]
    simp only [opcodeMap, List.mem_cons, List.not_mem_nil, or_false, exists_eq_or_imp, exists_eq_left, selects_iff, rowN, rowP,
      rowX, operandId_eq, operandIdx_eq, eq_comm (b := i)]
  · intro cw j k hj hk
    have hrow : opcodeMap[j] = opcodeMap[k] :=
      row_eq_of_selects (List.getElem_mem j.isLt) (List.getElem_mem k.isLt) hj hk
    exact Fin.ext ((opcodes_nodup.of_map _).getElem_inj_iff.1 hrow)

/-- Settles O5: the eleven legal words are the words of their commands; the three refused ones are evaluated. -/
theorem wordsOfTheEncodingTableDecode : Obligations.WordsOfTheEncodingTableDecode := by
  have h := encodedCommandDecodesToItself
  exact ⟨h .nop rfl, h (.loadp 6) rfl, h .decode rfl, h (.lds 3) rfl, h (.lds 16777215) rfl, h (.sts 64) rfl, h .dist rfl,
    h .bcr rfl, h .noise rfl, h .bq rfl, h .process rfl, by decide, by decide, by decide⟩

end Sys2Proof

namespace Sys2Proof.Machine

/-- An illegal word raises IllegalCommand (R64). -/
theorem command_of_decode_error {cw : Word} {e : DecodeError} (h : decode cw = .error e) (s : State) :
    command cw s = .next (raise .illegalCommand s) := by
  unfold command
  rw [h]

/-- Settles O4: the unused opcodes and the reserved bits are those of the table, and the write reaches `CMD`, which raises the
error. -/
theorem illegalWordRaisesIllegalCommand : Obligations.IllegalWordRaisesIllegalCommand := by
  constructor
  · intro cw
    rw [decode_eq_error_iff_opcode, exists_reserved_iff]
    rfl
  · rintro s cw ⟨e, he⟩
    rw [takeEvent_issue, command_of_decode_error he]
    rfl

end Sys2Proof.Machine
end

section
/-! The codec and the single-word commands (40_codec.md R71 to R76): what ends each command, which byte of which memory it writes,
and that it writes no other. -/

namespace Sys2Proof.Machine

/-! ### How a command with one check ends (R163) -/

theorem exec_of_commandBody_ok {i : Instr} {s t : State} (h : commandBody i s = .ok t) : exec i s = .next (done t) := by
  rw [exec_eq_finish_commandBody, h, finish_ok]

theorem exec_of_commandBody_error {i : Instr} {s : State} {c : ResultCode} (h : commandBody i s = .error c) :
    exec i s = .next (raise c s) := by
  rw [exec_eq_finish_commandBody, h, finish_error]

theorem requireIndex_of_le {idx : Nat} {s : State} (h : s.par.pcmBytes ≤ idx) (b : Except ResultCode State) :
    requireIndex idx s b = .error .indexOutOfRange := if_neg (Nat.not_lt.2 h)

theorem exec_decode {s : State} (h : lenOk s = true) : exec .decode s = .next (done (decodeUpTo (nsmp s) s)) :=
  exec_of_commandBody_ok (decodeBody_eq_ok_iff.2 ⟨h, rfl⟩)

theorem exec_decode_badLength {s : State} (h : lenOk s = false) :
    exec .decode s = .next (raise .invalidBufferLength s) :=
  exec_of_commandBody_error (by simp [commandBody, decodeBody, h])

theorem exec_encode {s : State} (h : lenOk s = true) : exec .encode s = .next (done (encodeUpTo (nsmp s) s)) :=
  exec_of_commandBody_ok (encodeBody_eq_ok_iff.2 ⟨h, rfl⟩)

theorem exec_encode_badLength {s : State} (h : lenOk s = false) :
    exec .encode s = .next (raise .invalidBufferLength s) :=
  exec_of_commandBody_error (by simp [commandBody, encodeBody, h])

theorem exec_lds_outOfRange {s : State} {idx : Nat} (h : s.par.pcmBytes ≤ idx) :
    exec (.lds idx) s = .next (raise .indexOutOfRange s) :=
  exec_of_commandBody_error (i := .lds idx) (requireIndex_of_le h _)

theorem exec_lds {s : State} {idx : Nat} (h : idx < s.par.pcmBytes) :
    exec (.lds idx) s = .next (done { s with acc := smpWord s idx }) :=
  exec_of_commandBody_ok (requireIndex_eq_ok_iff.2 ⟨h, rfl⟩)

theorem exec_sts_outOfRange {s : State} {idx : Nat} (h : s.par.pcmBytes ≤ idx) :
    exec (.sts idx) s = .next (raise .indexOutOfRange s) :=
  exec_of_commandBody_error (i := .sts idx) (requireIndex_of_le h _)

theorem exec_sts {s : State} {idx : Nat} (h : idx < s.par.pcmBytes) :
    exec (.sts idx) s = .next (done (setSmpWord idx s.acc s)) :=
  exec_of_commandBody_ok (requireIndex_eq_ok_iff.2 ⟨h, rfl⟩)

/-- `done` touches no byte of either memory (R163). -/
@[simp] theorem pcmByte_done (s : State) : pcmByte (done s) = pcmByte s := rfl
@[simp] theorem smpByte_done (s : State) : smpByte (done s) = smpByte s := rfl
@[simp] theorem smpWord_done (s : State) : smpWord (done s) = smpWord s := rfl

/-! ### `LDS` and `STS` (R75, R76) -/

/-- The word of a format-X command whose operand fits, as R66 writes it. -/
theorem wordX_of_lt {idx : Nat} (h : idx < 2 ^ 24) (op : Nat) :
    wordX op idx = BitVec.ofNat 32 op ||| (BitVec.ofNat 32 idx <<< 8) := by
  rw [wordX, Nat.mod_eq_of_lt h]

/-- Settles O20: the index check either lets the copy through or raises. -/
theorem ldsCopiesTheWordToAcc : Obligations.LdsCopiesTheWordToAcc := by
  refine ⟨fun idx h => ?_, fun s idx h => exec_lds h, fun s idx h => exec_lds_outOfRange h⟩
  exact wordX_of_lt h 0x12 ▸ encodedCommandDecodesToItself (.lds idx) (decide_eq_true h)

/-- Settles O21: the store is the model's `setSmpWord`, whose bytes inside and outside the word are known. -/
theorem stsCopiesAccToTheWord : Obligations.StsCopiesAccToTheWord := by
  refine ⟨fun idx h => ?_, fun s idx h => ?_, fun s idx h => exec_sts_outOfRange h⟩
  · exact wordX_of_lt h 0x13 ▸ encodedCommandDecodesToItself (.sts idx) (decide_eq_true h)
  · exact ⟨_, exec_sts h, rfl, smpWord_setSmpWord_same s idx s.acc, fun a ha => smpByte_setSmpWord_outside s s.acc ha⟩

/-! ### `DECODE` (R72) -/

/-- `DECODE`'s loop leaves every sample byte from four times its count on. -/
theorem smpByte_decodeUpTo_above {n a : Nat} (s : State) (ha : 4 * n ≤ a) : smpByte (decodeUpTo n s) a = smpByte s a := by
  have hword : smpWord (decodeUpTo n s) (a / 4) = smpWord s (a / 4) := by
    rw [decodeUpTo_word, if_neg (by omega)]
  have hbyte := smpByte_of_smpWord (Nat.mod_lt a (by decide)) hword
  rwa [Nat.div_add_mod] at hbyte

/-- Settles O18: the loop's words and frame are known, and `done` adds the result. -/
theorem decodeFillsTheSampleArray : Obligations.DecodeFillsTheSampleArray := by
  refine ⟨encodedCommandDecodesToItself .decode rfl, fun _ => rfl, fun s h => ?_, fun s h => exec_decode_badLength h⟩
  obtain ⟨m, hm⟩ := decodeUpTo_shape (nsmp s) s
  refine ⟨_, exec_decode h, ?_, fun i hi => ?_, fun a ha => ?_⟩
  · rw [hm]
    rfl
  · rw [smpWord_done, decodeUpTo_word, if_pos hi]
    rfl
  · rw [smpByte_done, smpByte_decodeUpTo_above s ha]

/-! ### `ENCODE` (R74) -/

/-- Byte `k` of the two's-complement encoding of an integer in a container width (R74). -/
def encodedByte (width : Bool) (n : Int) (k : Nat) : Byte :=
  if width then (BitVec.ofInt 16 n).extractLsb' (8 * k) 8 else BitVec.ofInt 8 n

/-- The PCM memory after one sample is stored: its bytes, `bps()` of them, and no other. -/
theorem pcmByte_setPcmSample (s : State) (i : Nat) (n : Int) (a : Nat) :
    pcmByte (setPcmSample i n s) a =
      if a / bps s = i then encodedByte s.ctrl.width n (a % bps s) else pcmByte s a := by
  cases hw : s.ctrl.width with
  | false => simp [setPcmSample, encodedByte, bps, hw, pcmByte_setPcmByte]
  | true =>
    simp only [setPcmSample, encodedByte, bps, hw, if_true, pcmByte_setPcmByte]
    by_cases hi : a / 2 = i
    · obtain rfl | rfl : a = 2 * i ∨ a = 2 * i + 1 := by omega
      · rw [if_neg (by omega), if_pos rfl, if_pos hi, Nat.mul_mod_right]
      · rw [if_pos rfl, if_pos hi, Nat.mul_add_mod]
    · rw [if_neg (by omega), if_neg (by omega), if_neg hi]

theorem noteNan_pcmByte (i : Nat) (s : State) : pcmByte (noteNan i s) = pcmByte s := by
  rw [noteNan_shape]
  rfl

theorem encodeUpTo_ctrl (n : Nat) (s : State) : (encodeUpTo n s).ctrl = s.ctrl := by
  obtain ⟨m, b, e⟩ := encodeUpTo_shape n s
  rw [e]

theorem encodeUpTo_smpWord (n : Nat) (s : State) : smpWord (encodeUpTo n s) = smpWord s := by
  obtain ⟨m, b, e⟩ := encodeUpTo_shape n s
  rw [e]
  rfl

theorem pcmByte_encodeSample (s : State) (i a : Nat) :
    pcmByte (encodeSample i s) a =
      if a / bps s = i then encodedByte s.ctrl.width (encodeInt s.ctrl.width (smpWord s i)) (a % bps s)
      else pcmByte s a := by
  rw [encodeSample, pcmByte_setPcmSample, noteNan_pcmByte, noteNan_shape]
  rfl

theorem bps_pos (s : State) : 0 < bps s := by
  unfold bps
  split <;> decide

/-- `ENCODE`'s loop writes the bytes of the samples below its count, from the sample words as they were before it, and no other
byte (R74). -/
theorem pcmByte_encodeUpTo (n : Nat) (s : State) (a : Nat) :
    pcmByte (encodeUpTo n s) a =
      if a / bps s < n then encodedByte s.ctrl.width (encodeInt s.ctrl.width (smpWord s (a / bps s))) (a % bps s)
      else pcmByte s a := by
  induction n with
  | zero => rfl
  | succ n ih =>
    have hbps : bps (encodeUpTo n s) = bps s := by simp only [bps, encodeUpTo_ctrl]
    rw [encodeUpTo, pcmByte_encodeSample, ih, hbps, encodeUpTo_ctrl, encodeUpTo_smpWord]
    by_cases hlast : a / bps s = n
    · rw [if_pos hlast, if_pos (by omega), hlast]
    · rw [if_neg hlast]
      simp only [show a / bps s < n + 1 ↔ a / bps s < n by omega]

/-- `ENCODE`'s loop sets `NANF` exactly for a NaN product below its count, and never clears it (R74). -/
theorem nanf_encodeUpTo (n : Nat) (s : State) :
    (encodeUpTo n s).status.nanf = true ↔
      s.status.nanf = true ∨ ∃ i < n, isNan (encodeProduct s.ctrl.width (smpWord s i)) = true := by
  induction n with
  | zero => simp [encodeUpTo]
  | succ n ih =>
    obtain ⟨m, e⟩ := encodeSample_shape n (encodeUpTo n s)
    rw [encodeUpTo, e, encodeUpTo_ctrl, encodeUpTo_smpWord]
    simp only [Bool.or_eq_true, ih, Nat.exists_lt_succ_right, or_assoc]

/-- The bytes of sample `i` lie at `i * bps()` and up. -/
theorem pcmByte_encodeUpTo_sample {n i k : Nat} {s : State} (hi : i < n) (hk : k < bps s) :
    pcmByte (encodeUpTo n s) (bps s * i + k) =
      encodedByte s.ctrl.width (encodeInt s.ctrl.width (smpWord s i)) k := by
  have hdiv : (bps s * i + k) / bps s = i := by
    rw [Nat.mul_add_div (bps_pos s), Nat.div_eq_of_lt hk, Nat.add_zero]
  rw [pcmByte_encodeUpTo, hdiv, if_pos hi, Nat.mul_add_mod, Nat.mod_eq_of_lt hk]

/-- The encoder of each container width, written out (R73, R74). -/
theorem encodeInt_width8 (x : F32) : encodeInt false x = satTo (-128) 127 (fmul x (i2f 127)) := by
  simp [encodeInt, encodeProduct, maxMagOf]
theorem encodeInt_width16 (x : F32) : encodeInt true x = satTo (-32768) 32767 (fmul x (i2f 32767)) := by
  simp [encodeInt, encodeProduct, maxMagOf]


/-- The two bytes of a 16-bit encoding, joined. -/
theorem encodedByte_append (n : Int) : encodedByte true n 1 ++ encodedByte true n 0 = BitVec.ofInt 16 n := by
  simp only [encodedByte, if_true]
  exact BitVec.extractLsb'_append_extractLsb'_eq_extractLsb' (by decide) |>.trans BitVec.extractLsb'_eq_self

/-- Settles O19: the loop's bytes, `NANF` and frame are known, and `done` adds the result. -/
theorem encodeRewritesTheBuffer : Obligations.EncodeRewritesTheBuffer := by
  refine ⟨encodedCommandDecodesToItself .encode rfl, fun _ => rfl, fun s h => ?_, fun s h => exec_encode_badLength h⟩
  obtain ⟨m, b, hm⟩ := encodeUpTo_shape (nsmp s) s
  refine ⟨_, exec_encode h, ?_, nanf_encodeUpTo (nsmp s) s, fun hw i hi => ?_, fun hw i hi => ?_, fun a ha => ?_⟩
  · rw [hm]
    rfl
  · have hbyte := pcmByte_encodeUpTo_sample hi (k := 0) (bps_pos s)
    have hbps : bps s = 1 := by simp [bps, hw]
    rw [hbps, hw, Nat.one_mul, encodeInt_width8] at hbyte
    exact hbyte
  · have hbps : bps s = 2 := by simp [bps, hw]
    have hlow := pcmByte_encodeUpTo_sample hi (k := 0) (bps_pos s)
    have hhigh := pcmByte_encodeUpTo_sample hi (k := 1) (hbps ▸ Nat.one_lt_two)
    rw [hbps, hw] at hlow hhigh
    rw [pcmByte_done, hhigh, ← Nat.add_zero (2 * i), hlow, encodedByte_append, encodeInt_width16]
  · have hge : nsmp s ≤ a / bps s := (Nat.le_div_iff_mul_le (bps_pos s)).2 (nsmp_mul_bps h ▸ ha)
    rw [pcmByte_done, pcmByte_encodeUpTo, if_neg (Nat.not_lt.2 hge)]

end Sys2Proof.Machine
end

section
/-! Patterns and values (47_numerics.md R140, R144, R145, R147): the magnitude pattern's value in units of 2^-149, the order of
patterns as the order of values, integers as `f32` values, and the conversion back to an integer. -/

namespace Sys2Proof.Machine

/-! ### The value of a magnitude pattern (R140) -/

/-- The value of a magnitude pattern in units of 2^-149: `fScaled` as a function of the magnitude alone. -/
def magnitudeUnits (m : Nat) : Nat :=
  (if m / 2 ^ 23 = 0 then m % 2 ^ 23 else 2 ^ 23 + m % 2 ^ 23) * 2 ^ (m / 2 ^ 23 - 1)

theorem fScaled_eq (a : F32) : fScaled a = magnitudeUnits (fMagnitude a) := by
  simp only [fScaled, fSignificand, fExp_eq, fFrac_eq, magnitudeUnits]

/-- The pattern that `roundMag` forms of a significand and an exponent has their value, also where the significand carries into
the next exponent. -/
theorem magnitudeUnits_significand {k m : Nat} (hlo : k = 0 ∨ 2 ^ 23 ≤ m) (hhi : m ≤ 2 ^ 24) :
    magnitudeUnits (k * 2 ^ 23 + m) = m * 2 ^ k := by
  unfold magnitudeUnits
  obtain hsub | hnormal | rfl : m < 2 ^ 23 ∨ (2 ^ 23 ≤ m ∧ m < 2 ^ 24) ∨ m = 2 ^ 24 := by omega
  · obtain rfl : k = 0 := by omega
    rw [Nat.zero_mul, Nat.zero_add, Nat.div_eq_of_lt hsub, if_pos rfl, Nat.mod_eq_of_lt hsub]
  · have hexp : (k * 2 ^ 23 + m) / 2 ^ 23 = k + 1 := by omega
    rw [hexp, if_neg (by omega), Nat.add_sub_cancel, show 2 ^ 23 + (k * 2 ^ 23 + m) % 2 ^ 23 = m by omega]
  · have hexp : (k * 2 ^ 23 + 2 ^ 24) / 2 ^ 23 = k + 2 := by omega
    have hfrac : (k * 2 ^ 23 + 2 ^ 24) % 2 ^ 23 = 0 := by omega
    rw [hexp, hfrac, if_neg (by omega), show k + 2 - 1 = k + 1 by omega, pow_succ]
    ring

/-- Every magnitude pattern has a significand and an exponent. -/
theorem exists_significand (m : Nat) :
    ∃ k f, m = k * 2 ^ 23 + f ∧ (k = 0 ∨ 2 ^ 23 ≤ f) ∧ f < 2 ^ 24 := by
  by_cases h : m < 2 ^ 24
  · exact ⟨0, m, by omega, .inl rfl, h⟩
  · exact ⟨m / 2 ^ 23 - 1, 2 ^ 23 + m % 2 ^ 23, by omega, .inr (by omega), by omega⟩

/-- A greater magnitude pattern is a greater value. -/
theorem magnitudeUnits_strictMono : StrictMono magnitudeUnits := by
  refine strictMono_nat_of_lt_succ fun m => ?_
  obtain ⟨k, f, rfl, hlo, hhi⟩ := exists_significand m
  rw [Nat.add_assoc, magnitudeUnits_significand hlo (by omega), magnitudeUnits_significand (by omega) (by omega)]
  exact Nat.mul_lt_mul_of_pos_right (Nat.lt_succ_self f) (Nat.two_pow_pos k)

theorem magnitudeUnits_zero : magnitudeUnits 0 = 0 := by decide

theorem magnitudeUnits_eq_zero_iff {m : Nat} : magnitudeUnits m = 0 ↔ m = 0 := by
  conv_lhs => rw [← magnitudeUnits_zero]
  exact magnitudeUnits_strictMono.injective.eq_iff

/-! ### The order of patterns (R145) -/

theorem orderKey_le_iff (a b : F32) : orderKey a ≤ orderKey b ↔ fInt a ≤ fInt b := by
  have hle := magnitudeUnits_strictMono.le_iff_le (a := fMagnitude a) (b := fMagnitude b)
  have hge := magnitudeUnits_strictMono.le_iff_le (a := fMagnitude b) (b := fMagnitude a)
  have ha := magnitudeUnits_eq_zero_iff (m := fMagnitude a)
  have hb := magnitudeUnits_eq_zero_iff (m := fMagnitude b)
  simp only [orderKey, fInt, fScaled_eq]
  split <;> split <;> omega

theorem isNan_of_isFinite {a : F32} (h : isFinite a = true) : isNan a = false := by
  rw [← Bool.not_eq_true, isNan_iff]
  rw [isFinite_iff] at h
  omega

theorem isInf_of_isFinite {a : F32} (h : isFinite a = true) : isInf a = false := by
  rw [← Bool.not_eq_true, isInf_iff]
  rw [isFinite_iff] at h
  omega

theorem fle_iff_of_isFinite {a b : F32} (ha : isFinite a = true) (hb : isFinite b = true) :
    fle a b = true ↔ fInt a ≤ fInt b := by
  simp [fle, isNan_of_isFinite ha, isNan_of_isFinite hb, orderKey_le_iff]

/-! ### Packing a sign and a magnitude -/

theorem isFinite_pack {m : Nat} (h : m < infMagnitude) (neg : Bool) : isFinite (pack neg m) = true := by
  rw [isFinite_iff, fMagnitude_pack (lt_trans h (by decide))]
  exact h

theorem fScaled_pack {m : Nat} (h : m < 2 ^ 31) (neg : Bool) : fScaled (pack neg m) = magnitudeUnits m := by
  rw [fScaled_eq, fMagnitude_pack h]

theorem isZero_iff_fScaled (a : F32) : isZero a = true ↔ fScaled a = 0 := by
  rw [isZero_iff, fScaled_eq, magnitudeUnits_eq_zero_iff]

/-! ### Rounding once (R141) -/

/-- The integer nearest to `n / u`, ties to even: the significand that `roundMag` computes. -/
def roundQuot (n u : Nat) : Nat :=
  n / u + if u < 2 * (n % u) ∨ (2 * (n % u) = u ∧ n / u % 2 = 1) then 1 else 0

/-- `roundMag` is the rounded quotient at the exponent by which 24 significant bits are exceeded. -/
theorem roundMag_eq_roundQuot (n d : Nat) :
    roundMag n d =
      min (((n / d).log2 - 23) * 2 ^ 23 + roundQuot n (d * 2 ^ ((n / d).log2 - 23))) infMagnitude := by
  simp only [roundMag, roundQuot, Nat.add_assoc]

/-- The rounded quotient is off by at most half a unit. -/
theorem roundQuot_bounds (n : Nat) {u : Nat} (hu : 0 < u) :
    2 * n ≤ 2 * (roundQuot n u * u) + u ∧ 2 * (roundQuot n u * u) ≤ 2 * n + u := by
  have hdiv := Nat.div_add_mod' n u
  have hmod := Nat.mod_lt n hu
  unfold roundQuot
  split
  · rw [Nat.add_mul, Nat.one_mul]
    omega
  · rw [Nat.add_zero]
    omega

/-- An integer less than half a unit away is the rounded quotient. -/
theorem roundQuot_eq_of_near {n u m : Nat} (hlo : 2 * (m * u) < 2 * n + u) (hhi : 2 * n < 2 * (m * u) + u) :
    roundQuot n u = m := by
  have hu : 0 < u := by omega
  obtain ⟨hbelow, habove⟩ := roundQuot_bounds n hu
  have hle : roundQuot n u * u < (m + 1) * u := by
    rw [Nat.add_mul]
    omega
  have hge : m * u < (roundQuot n u + 1) * u := by
    rw [Nat.add_mul]
    omega
  have := Nat.lt_of_mul_lt_mul_right hle
  have := Nat.lt_of_mul_lt_mul_right hge
  omega

/-- The rounded quotient stays on the side of an integer on which the quotient is. -/
theorem le_roundQuot {n u m : Nat} (hu : 0 < u) (h : m * u ≤ n) : m ≤ roundQuot n u :=
  le_trans ((Nat.le_div_iff_mul_le hu).2 h) (Nat.le_add_right _ _)

theorem roundQuot_le {n u m : Nat} (h : n ≤ m * u) : roundQuot n u ≤ m := by
  obtain rfl | hu := Nat.eq_zero_or_pos u
  · simp [roundQuot, show n = 0 by omega]
  have habove := (roundQuot_bounds n hu).2
  by_contra hgt
  have := Nat.mul_le_mul_right u (Nat.lt_of_not_le hgt)
  rw [Nat.succ_mul] at this
  omega

theorem roundQuot_mul_self (m : Nat) {u : Nat} (hu : 0 < u) : roundQuot (m * u) u = m :=
  roundQuot_eq_of_near (by omega) (by omega)

/-- Rounding depends on the quotient alone. -/
theorem roundQuot_mul_mul {c : Nat} (hc : 0 < c) (n u : Nat) : roundQuot (c * n) (c * u) = roundQuot n u := by
  have hlt : c * u < 2 * (c * (n % u)) ↔ u < 2 * (n % u) := by
    rw [Nat.mul_left_comm, Nat.mul_lt_mul_left hc]
  have heq : 2 * (c * (n % u)) = c * u ↔ 2 * (n % u) = u := by
    rw [Nat.mul_left_comm, Nat.mul_right_inj (Nat.ne_of_gt hc)]
  simp only [roundQuot, Nat.mul_div_mul_left _ _ hc, Nat.mul_mod_mul_left, hlt, heq]

theorem roundMag_mul_mul {c : Nat} (hc : 0 < c) (n d : Nat) : roundMag (c * n) (c * d) = roundMag n d := by
  rw [roundMag_eq_roundQuot, roundMag_eq_roundQuot, Nat.mul_div_mul_left _ _ hc, Nat.mul_assoc c d, roundQuot_mul_mul hc]

/-- The rounded magnitude of `t / d * 2^k` units where `t / d` has 24 bits before the point: exponent `k`, significand the
rounded `t / d`. At `t / d = 2^24` the significand carries, and the pattern is still this sum. -/
theorem roundMag_mul_two_pow {t d k : Nat} (hd : 0 < d) (hlo : 2 ^ 23 * d ≤ t) (hhi : t ≤ 2 ^ 24 * d) (hk : k ≤ 253) :
    roundMag (t * 2 ^ k) d = k * 2 ^ 23 + roundQuot t d := by
  have h2k := Nat.two_pow_pos k
  obtain hlt | rfl := Nat.lt_or_eq_of_le hhi
  · have hge : 2 ^ (23 + k) ≤ t * 2 ^ k / d := by
      rw [Nat.le_div_iff_mul_le hd, pow_add, Nat.mul_right_comm]
      exact Nat.mul_le_mul_right _ hlo
    have hbelow : t * 2 ^ k / d < 2 ^ (23 + k + 1) := by
      rw [Nat.div_lt_iff_lt_mul hd, show 23 + k + 1 = 24 + k by omega, pow_add, Nat.mul_right_comm]
      exact Nat.mul_lt_mul_of_pos_right hlt h2k
    have hlog : (t * 2 ^ k / d).log2 = 23 + k :=
      (Nat.log2_eq_iff (Nat.ne_of_gt (lt_of_lt_of_le (Nat.two_pow_pos _) hge))).2 ⟨hge, hbelow⟩
    have hsig : roundQuot t d ≤ 2 ^ 24 := roundQuot_le hhi
    rw [roundMag_eq_roundQuot, hlog, Nat.add_sub_cancel_left, Nat.mul_comm t, Nat.mul_comm d, roundQuot_mul_mul h2k]
    exact Nat.min_eq_left (by rw [infMagnitude]; omega)
  · have hexact : 2 ^ 24 * d * 2 ^ k / d = 2 ^ (24 + k) := by
      rw [Nat.mul_right_comm, Nat.mul_div_cancel _ hd, pow_add]
    have hcarry : 2 ^ 24 * d * 2 ^ k = 2 ^ 23 * (d * 2 ^ (k + 1)) := by ring
    rw [roundMag_eq_roundQuot, hexact, Nat.log2_two_pow, show 24 + k - 23 = k + 1 by omega, hcarry,
      roundQuot_mul_self _ (by positivity), roundQuot_mul_self _ hd]
    rw [infMagnitude]
    omega

/-! ### Products and quotients of finite values (R141) -/

theorem fmul_of_isFinite {a b : F32} (ha : isFinite a = true) (hb : isFinite b = true) :
    fmul a b = pack (fSign a != fSign b) (roundMag (fScaled a * fScaled b) (2 ^ 149)) := by
  simp [fmul, isNan_of_isFinite, isInf_of_isFinite, ha, hb]

theorem fdiv_of_isFinite {a b : F32} (ha : isFinite a = true) (hb : isFinite b = true) (hne : fScaled b ≠ 0) :
    fdiv a b = pack (fSign a != fSign b) (roundMag (fScaled a * 2 ^ 149) (fScaled b)) := by
  simp [fdiv, isNan_of_isFinite, isInf_of_isFinite, ha, hb, isZero_iff_fScaled, hne]

/-! ### Integers as `f32` values (R144) -/

/-- A positive integer of up to 24 bits in units of 2^-149: a 24-bit significand and an exponent. -/
theorem exists_significand_of_nat {x : Nat} (hpos : 0 < x) (hx : x < 2 ^ 24) :
    x * 2 ^ 149 = x * 2 ^ (23 - x.log2) * 2 ^ (126 + x.log2) ∧ x.log2 ≤ 23 ∧
      2 ^ 23 ≤ x * 2 ^ (23 - x.log2) ∧ x * 2 ^ (23 - x.log2) < 2 ^ 24 := by
  have hlog : x.log2 < 24 := (Nat.log2_lt (Nat.ne_of_gt hpos)).2 hx
  have h2 := Nat.two_pow_pos (23 - x.log2)
  refine ⟨?_, by omega, ?_, ?_⟩
  · rw [Nat.mul_assoc, ← pow_add, show 23 - x.log2 + (126 + x.log2) = 149 by omega]
  · calc 2 ^ 23 = 2 ^ x.log2 * 2 ^ (23 - x.log2) := by rw [← pow_add, show x.log2 + (23 - x.log2) = 23 by omega]
      _ ≤ _ := Nat.mul_le_mul_right _ (Nat.log2_self_le (Nat.ne_of_gt hpos))
  · calc _ < 2 ^ (x.log2 + 1) * 2 ^ (23 - x.log2) := Nat.mul_lt_mul_of_pos_right Nat.lt_log2_self h2
      _ = 2 ^ 24 := by rw [← pow_add, show x.log2 + 1 + (23 - x.log2) = 24 by omega]

/-- An integer number of 24-bit significands is its own rounding. -/
theorem roundMag_significand {f k : Nat} (hlo : 2 ^ 23 ≤ f) (hhi : f ≤ 2 ^ 24) (hk : k ≤ 253) :
    roundMag (f * 2 ^ k) 1 = k * 2 ^ 23 + f := by
  rw [roundMag_mul_two_pow Nat.one_pos (by omega) (by omega) hk]
  conv_lhs => rw [← Nat.mul_one f, roundQuot_mul_self f Nat.one_pos]

/-- An integer of up to 24 bits rounds to a finite pattern of its own value. -/
theorem roundMag_nat {x : Nat} (hx : x < 2 ^ 24) :
    roundMag (x * 2 ^ 149) 1 < infMagnitude ∧ magnitudeUnits (roundMag (x * 2 ^ 149) 1) = x * 2 ^ 149 := by
  obtain rfl | hpos := Nat.eq_zero_or_pos x
  · simp [magnitudeUnits_zero, infMagnitude]
  · obtain ⟨hunits, hlog, hlo, hhi⟩ := exists_significand_of_nat hpos hx
    have hround := roundMag_significand hlo hhi.le (show 126 + x.log2 ≤ 253 by omega)
    rw [hunits, hround]
    exact ⟨by rw [infMagnitude]; omega, magnitudeUnits_significand (.inr hlo) hhi.le⟩

theorem fSign_i2f (n : Int) : fSign (i2f n) = decide (n < 0) := fSign_pack (roundMag_lt _ _) _

section
variable {n : Int} (h : n.natAbs < 2 ^ 24)
include h

theorem isFinite_i2f : isFinite (i2f n) = true := isFinite_pack (roundMag_nat h).1 _

theorem fScaled_i2f : fScaled (i2f n) = n.natAbs * 2 ^ 149 := by
  rw [i2f, fScaled_pack (roundMag_lt _ _), (roundMag_nat h).2]

/-- The `f32` of an integer has its value (R144). -/
theorem fInt_i2f : fInt (i2f n) = n * 2 ^ 149 := by
  rw [fInt, fScaled_i2f h, fSign_i2f]
  by_cases hneg : n < 0
  · rw [if_pos (decide_eq_true hneg)]
    omega
  · rw [if_neg (by simpa using hneg)]
    omega

end

/-! ### Conversion to an integer (R147) -/

theorem ftrunc_eq_tdiv (v : F32) : ftrunc v = (fInt v).tdiv (2 ^ 149) := by
  have hcast : ((fScaled v / 2 ^ 149 : Nat) : Int) = (fScaled v : Int).tdiv (2 ^ 149) := Int.ofNat_tdiv _ _
  rw [ftrunc, fInt, hcast]
  split
  · rw [Int.neg_tdiv]
  · rfl

/-- The saturating conversion of a finite value: truncate toward zero, then bring into the range. -/
theorem satTo_of_isFinite {lo hi : Int} {v : F32} (hlo : lo.natAbs < 2 ^ 24) (hhi : hi.natAbs < 2 ^ 24) (hle : lo ≤ hi)
    (hv : isFinite v = true) : satTo lo hi v = max lo (min hi ((fInt v).tdiv (2 ^ 149))) := by
  have hunit : (2 ^ 149 : Int) ≠ 0 := by norm_num
  have htrunc : ∀ {a b : Int}, a ≤ b → a.tdiv (2 ^ 149) ≤ b.tdiv (2 ^ 149) := Int.tdiv_le_tdiv (by norm_num)
  have hupper := fle_iff_of_isFinite (isFinite_i2f hhi) hv
  have hlower := fle_iff_of_isFinite hv (isFinite_i2f hlo)
  rw [fInt_i2f hhi] at hupper
  rw [fInt_i2f hlo] at hlower
  rw [satTo, isNan_of_isFinite hv, if_neg Bool.false_ne_true]
  simp only [hupper, hlower]
  split
  · next habove =>
    have := htrunc habove
    rw [Int.mul_tdiv_cancel _ hunit] at this
    omega
  · next hnotAbove =>
    have hbelow := htrunc (le_of_not_ge hnotAbove)
    rw [Int.mul_tdiv_cancel _ hunit] at hbelow
    split
    · next hunder =>
      have := htrunc hunder
      rw [Int.mul_tdiv_cancel _ hunit] at this
      omega
    · next hnotUnder =>
      have := htrunc (le_of_not_ge hnotUnder)
      rw [Int.mul_tdiv_cancel _ hunit] at this
      rw [ftrunc_eq_tdiv]
      omega

/-- An integer within the range is its own conversion. -/
theorem satTo_i2f {lo hi n : Int} (hlo : lo.natAbs < 2 ^ 24) (hhi : hi.natAbs < 2 ^ 24) (hn : lo ≤ n ∧ n ≤ hi) :
    satTo lo hi (i2f n) = n := by
  have habs : n.natAbs < 2 ^ 24 := by omega
  rw [satTo_of_isFinite hlo hhi (by omega) (isFinite_i2f habs), fInt_i2f habs, Int.mul_tdiv_cancel _ (by norm_num)]
  omega

/-- Settles O23: the infinities are evaluated for each width; the finite values are those of `satTo_of_isFinite`. -/
theorem encoderTruncatesAndClamps : Obligations.EncoderTruncatesAndClamps := by
  intro lo hi v hrange
  refine ⟨fun hnan => if_pos hnan, ?_, ?_, satTo_of_isFinite (by omega) (by omega) (by omega)⟩
  · rintro rfl
    obtain ⟨rfl, rfl⟩ | ⟨rfl, rfl⟩ := hrange <;> decide
  · rintro rfl
    obtain ⟨rfl, rfl⟩ | ⟨rfl, rfl⟩ := hrange <;> decide

end Sys2Proof.Machine
end

section
/-! The codec's round trip (40_codec.md R77): the product that `ENCODE` truncates is, for a sample that `DECODE` made, exactly the
PCM integer. Both roundings are to 24 bits, and the scale `2^(w-1) - 1` is just below a power of two: the quotient's error of
half a unit, times the scale, is less than half a unit of the integer's own `f32`. -/

namespace Sys2Proof.Machine

/-! ### The significands of the quotient and the product -/

/-- Dividing a significand by a scale below `2^w` and multiplying by it again loses less than half a unit. -/
theorem roundQuot_product_of_quotient {f w scale : Nat} (hpos : 0 < scale) (hscale : scale < 2 ^ w) :
    2 * (f * 2 ^ w) < 2 * (roundQuot (f * 2 ^ w) scale * scale) + 2 ^ w ∧
      2 * (roundQuot (f * 2 ^ w) scale * scale) < 2 * (f * 2 ^ w) + 2 ^ w := by
  obtain ⟨hbelow, habove⟩ := roundQuot_bounds (f * 2 ^ w) hpos
  omega

/-- The two scales `2^(w-1) - 1` of the codec, by the exponent `w - 1` (R31, R70). -/
def scaleExponent (width : Bool) : Nat := if width then 15 else 7

/-- The scale as a natural number. -/
def scaleNat (width : Bool) : Nat := 2 ^ scaleExponent width - 1

theorem scaleExponent_le (width : Bool) : scaleExponent width ≤ 15 := by
  cases width <;> decide

theorem maxMagOf_eq_scaleNat (width : Bool) : maxMagOf width = scaleNat width := by
  cases width <;> rfl

theorem scaleNat_bounds (width : Bool) :
    0 < scaleNat width ∧ scaleNat width < 2 ^ scaleExponent width ∧ 2 ^ scaleExponent width ≤ 2 * scaleNat width := by
  cases width <;> decide

/-- Below a power of two the patterns are twice as dense, so `f = 2^23` needs its quotient itself: the expansion
`1 + 2^-w + 2^-2w + ...` is cut where the rest, times the scale, is far below a quarter of a unit. -/
theorem roundQuot_product_of_quotient_two_pow (width : Bool) :
    let t := roundQuot (2 ^ 23 * 2 ^ scaleExponent width) (scaleNat width) * scaleNat width
    2 ^ 23 * 2 ^ scaleExponent width ≤ 2 * t ∧ t ≤ 2 ^ 23 * 2 ^ scaleExponent width ∧
      roundQuot (2 * t) (2 ^ scaleExponent width) = 2 ^ 24 := by
  cases width <;> decide

/-! ### The magnitudes -/

/-- The product of a quotient's significand by the scale rounds back to the dividend's significand. -/
theorem roundMag_product_of_quotient (width : Bool) {f k : Nat} (hlo : 2 ^ 23 ≤ f) (hhi : f < 2 ^ 24) (hpos : 1 ≤ k)
    (hk : k + scaleExponent width ≤ 253) :
    roundMag (roundQuot (f * 2 ^ scaleExponent width) (scaleNat width) * 2 ^ k * scaleNat width) 1 =
      (k + scaleExponent width) * 2 ^ 23 + f := by
  obtain ⟨hscale, hlt, -⟩ := scaleNat_bounds width
  set w := scaleExponent width with hw
  have h2w : 0 < 2 ^ w := Nat.two_pow_pos w
  set t := roundQuot (f * 2 ^ w) (scaleNat width) * scaleNat width with ht
  have hunits : roundMag (roundQuot (f * 2 ^ w) (scaleNat width) * 2 ^ k * scaleNat width) 1 =
      roundMag (t * 2 ^ (k + w)) (2 ^ w) := by
    rw [← roundMag_mul_mul h2w, Nat.mul_one, ht, pow_add]
    congr 1
    ring
  rw [hunits]
  obtain hinside | rfl := Nat.lt_or_eq_of_le hlo
  · obtain ⟨hbelow, habove⟩ := roundQuot_product_of_quotient (f := f) hscale hlt
    rw [← ht] at hbelow habove
    have hmin := Nat.mul_le_mul_right (2 ^ w) (show 2 ^ 23 + 1 ≤ f by omega)
    have hmax := Nat.mul_le_mul_right (2 ^ w) (show f + 1 ≤ 2 ^ 24 by omega)
    rw [Nat.add_mul] at hmin hmax
    rw [roundMag_mul_two_pow h2w (by omega) (by omega) hk, roundQuot_eq_of_near hbelow habove]
  · obtain ⟨hmin, hmax, hround⟩ := roundQuot_product_of_quotient_two_pow width
    rw [← hw, ← ht] at hmin hmax hround
    have hdouble : t * 2 ^ (k + w) = 2 * t * 2 ^ (k + w - 1) := by
      rw [show k + w = k + w - 1 + 1 by omega, pow_succ, Nat.add_sub_cancel]
      ring
    rw [hdouble, roundMag_mul_two_pow h2w hmin (by omega) (by omega), hround]
    omega

/-- The significand of an integer up to `2^w`, over the scale, is a significand again. -/
theorem significand_le_of_le (width : Bool) {x : Nat} (hx : x ≤ 2 ^ scaleExponent width) (hpos : 0 < x) :
    x * 2 ^ (23 - x.log2) * 2 ^ scaleExponent width ≤ 2 ^ 24 * scaleNat width := by
  have hw : scaleExponent width ≤ 15 := scaleExponent_le width
  obtain hlt | rfl := Nat.lt_or_eq_of_le hx
  · have hlog : x.log2 < scaleExponent width := (Nat.log2_lt (Nat.ne_of_gt hpos)).2 hlt
    have hgap : 2 ^ 24 ≤ 2 ^ (23 - x.log2) * 2 ^ scaleExponent width := by
      rw [← pow_add]
      exact Nat.pow_le_pow_right (by decide) (by omega)
    have htop : (x + 1) * 2 ^ (23 - x.log2) ≤ 2 ^ 24 := by
      calc (x + 1) * 2 ^ (23 - x.log2) ≤ 2 ^ (x.log2 + 1) * 2 ^ (23 - x.log2) :=
            Nat.mul_le_mul_right _ Nat.lt_log2_self
        _ = 2 ^ 24 := by rw [← pow_add, show x.log2 + 1 + (23 - x.log2) = 24 by omega]
    have := Nat.mul_le_mul_right (2 ^ scaleExponent width) htop
    rw [Nat.add_mul, Nat.one_mul, Nat.add_mul] at this
    rw [scaleNat, Nat.mul_sub]
    omega
  · rw [Nat.log2_two_pow, ← pow_add, show scaleExponent width + (23 - scaleExponent width) = 23 by omega]
    obtain ⟨-, -, hhalf⟩ := scaleNat_bounds width
    omega

/-- The magnitude of an integer's decoded sample is finite, and its product by the scale rounds to the integer's magnitude. -/
theorem roundMag_decoded_product (width : Bool) {x : Nat} (hx : x ≤ 2 ^ scaleExponent width) :
    roundMag (x * 2 ^ 149 * 2 ^ 149) (scaleNat width * 2 ^ 149) < infMagnitude ∧
      roundMag (magnitudeUnits (roundMag (x * 2 ^ 149 * 2 ^ 149) (scaleNat width * 2 ^ 149)) * (scaleNat width * 2 ^ 149))
        (2 ^ 149) = roundMag (x * 2 ^ 149) 1 := by
  have hw : scaleExponent width ≤ 15 := scaleExponent_le width
  have h149 : 0 < 2 ^ 149 := Nat.two_pow_pos 149
  obtain rfl | hpos := Nat.eq_zero_or_pos x
  · simp [magnitudeUnits_zero, infMagnitude]
  · have hx24 : x < 2 ^ 24 := lt_of_le_of_lt hx (Nat.pow_lt_pow_right (by decide) (by omega))
    obtain ⟨hunits, hlog, hlo, hhi⟩ := exists_significand_of_nat hpos hx24
    obtain ⟨hscale, hlt, -⟩ := scaleNat_bounds width
    have hfits := significand_le_of_le width hx hpos
    set w := scaleExponent width
    set f := x * 2 ^ (23 - x.log2)
    obtain ⟨k, hk⟩ : ∃ k, 126 + x.log2 = k + w := ⟨126 + x.log2 - w, by omega⟩
    rw [hk] at hunits
    have hfloor : 2 ^ 23 * scaleNat width ≤ f * 2 ^ w := Nat.mul_le_mul hlo hlt.le
    have hquotient : roundMag (x * 2 ^ 149 * 2 ^ 149) (scaleNat width * 2 ^ 149) =
        k * 2 ^ 23 + roundQuot (f * 2 ^ w) (scaleNat width) := by
      rw [Nat.mul_comm _ (2 ^ 149), Nat.mul_comm (scaleNat width), roundMag_mul_mul h149, hunits, Nat.add_comm k, pow_add,
        ← Nat.mul_assoc, roundMag_mul_two_pow hscale hfloor hfits (by omega)]
    have hsig : magnitudeUnits (k * 2 ^ 23 + roundQuot (f * 2 ^ w) (scaleNat width)) =
        roundQuot (f * 2 ^ w) (scaleNat width) * 2 ^ k :=
      magnitudeUnits_significand (.inr (le_roundQuot hscale hfloor)) (roundQuot_le hfits)
    have hproduct : roundMag (x * 2 ^ 149) 1 =
        roundMag (roundQuot (f * 2 ^ w) (scaleNat width) * 2 ^ k * scaleNat width) 1 := by
      rw [roundMag_product_of_quotient width hlo hhi (by omega) (by omega), hunits,
        roundMag_significand hlo hhi.le (by omega)]
    rw [hquotient, hsig, hproduct]
    constructor
    · have hmax : roundQuot (f * 2 ^ w) (scaleNat width) ≤ 2 ^ 24 := roundQuot_le hfits
      rw [infMagnitude]
      omega
    · rw [← Nat.mul_assoc, Nat.mul_comm _ (2 ^ 149), ← roundMag_mul_mul h149 _ 1, Nat.mul_one]

/-! ### The samples (R71, R73, R77) -/

/-- The product that `ENCODE` truncates is, for a decoded sample, the `f32` of the PCM integer itself. -/
theorem encodeProduct_decodeInt (width : Bool) {n : Int} (h : n.natAbs ≤ 2 ^ scaleExponent width) :
    encodeProduct width (decodeInt width n) = i2f n := by
  have hw : 2 ^ scaleExponent width < 2 ^ 24 := by cases width <;> decide
  obtain ⟨hpos, hlt, -⟩ := scaleNat_bounds width
  obtain ⟨hfinite, hproduct⟩ := roundMag_decoded_product width h
  have hn : n.natAbs < 2 ^ 24 := lt_of_le_of_lt h hw
  have hscale : ((scaleNat width : Nat) : Int).natAbs < 2 ^ 24 := lt_trans hlt hw
  have hunits : fScaled (i2f (scaleNat width)) = scaleNat width * 2 ^ 149 := fScaled_i2f hscale
  have hne : fScaled (i2f (scaleNat width)) ≠ 0 := by
    rw [hunits]
    exact Nat.ne_of_gt (Nat.mul_pos hpos (Nat.two_pow_pos 149))
  have hpositive : fSign (i2f (scaleNat width)) = false := by
    rw [fSign_i2f]
    exact decide_eq_false (Int.not_lt.2 (Int.natCast_nonneg _))
  have hdecoded : decodeInt width n =
      pack (decide (n < 0)) (roundMag (n.natAbs * 2 ^ 149 * 2 ^ 149) (scaleNat width * 2 ^ 149)) := by
    rw [decodeInt, maxMagOf_eq_scaleNat, fdiv_of_isFinite (isFinite_i2f hn) (isFinite_i2f hscale) hne, fScaled_i2f hn, hunits,
      fSign_i2f, hpositive, Bool.bne_false]
  rw [encodeProduct, hdecoded, maxMagOf_eq_scaleNat, fmul_of_isFinite (isFinite_pack hfinite _) (isFinite_i2f hscale),
    fScaled_pack (roundMag_lt _ _), fSign_pack (roundMag_lt _ _), hunits, hproduct, hpositive, Bool.bne_false, i2f]

/-- The integers of a container width (R70). -/
def inRange (width : Bool) (n : Int) : Prop := -2 ^ scaleExponent width ≤ n ∧ n < 2 ^ scaleExponent width

theorem inRange_width8 {n : Int} : inRange false n ↔ -128 ≤ n ∧ n ≤ 127 := by
  norm_num [inRange, scaleExponent]
  omega

theorem inRange_width16 {n : Int} : inRange true n ↔ -32768 ≤ n ∧ n ≤ 32767 := by
  norm_num [inRange, scaleExponent]
  omega

/-- Encoding the decoded sample of a PCM integer gives it back (R77). -/
theorem encodeInt_decodeInt (width : Bool) {n : Int} (h : inRange width n) : encodeInt width (decodeInt width n) = n := by
  have habs : n.natAbs ≤ 2 ^ scaleExponent width := by
    zify
    exact abs_le.2 ⟨h.1, h.2.le⟩
  have hproduct := encodeProduct_decodeInt width habs
  cases width with
  | false =>
    rw [encodeInt, hproduct, if_neg Bool.false_ne_true]
    exact satTo_i2f (by decide) (by decide) (inRange_width8.1 h)
  | true =>
    rw [encodeInt, hproduct, if_pos rfl]
    exact satTo_i2f (by decide) (by decide) (inRange_width16.1 h)

/-- A PCM integer is one of its width's (R70, R71). -/
theorem pcmInt_inRange (s : State) (i : Nat) : inRange s.ctrl.width (pcmInt s i) := by
  unfold pcmInt
  cases s.ctrl.width with
  | false =>
    have hlo := BitVec.le_toInt (pcmByte s i)
    have hhi := BitVec.toInt_lt (x := pcmByte s i)
    exact inRange_width8.2 ⟨hlo, Int.le_of_lt_add_one hhi⟩
  | true =>
    have hlo := BitVec.le_toInt (pcmByte s (2 * i + 1) ++ pcmByte s (2 * i))
    have hhi := BitVec.toInt_lt (x := pcmByte s (2 * i + 1) ++ pcmByte s (2 * i))
    exact inRange_width16.2 ⟨hlo, Int.le_of_lt_add_one hhi⟩

/-! ### The buffer -/

/-- The bytes of a PCM integer's encoding are the bytes it was read from (R71, R74). -/
theorem encodedByte_pcmInt (s : State) (i : Nat) {k : Nat} (hk : k < bps s) :
    encodedByte s.ctrl.width (pcmInt s i) k = pcmByte s (bps s * i + k) := by
  cases hw : s.ctrl.width with
  | false =>
    have hbps : bps s = 1 := by simp [bps, hw]
    obtain rfl : k = 0 := by omega
    simp [encodedByte, pcmInt, hbps, hw]
  | true =>
    have hbps : bps s = 2 := by simp [bps, hw]
    rw [hbps] at hk ⊢
    simp only [encodedByte, pcmInt, hw, if_true, BitVec.ofInt_toInt]
    obtain rfl | rfl : k = 0 ∨ k = 1 := by omega
    · exact BitVec.extractLsb'_append_eq_right
    · exact BitVec.extractLsb'_append_eq_left

/-- `ENCODE`'s loop from a state whose sample words are the decoded ones writes every PCM byte as it was. -/
theorem pcmByte_encodeUpTo_of_decoded {n : Nat} {s t : State} (hctrl : t.ctrl = s.ctrl) (hpcm : pcmByte t = pcmByte s)
    (hwords : ∀ i < n, smpWord t i = dec s i) (a : Nat) : pcmByte (encodeUpTo n t) a = pcmByte s a := by
  have hbps : bps t = bps s := by simp only [bps, hctrl]
  rw [pcmByte_encodeUpTo, hbps, hctrl, hpcm]
  split
  · next hi =>
    rw [hwords _ hi, dec, encodeInt_decodeInt _ (pcmInt_inRange s _),
      encodedByte_pcmInt s _ (Nat.mod_lt _ (bps_pos s)), Nat.div_add_mod]
  · rfl

/-- The decoder of each container width, written out (R71). -/
theorem decodeInt_width8 (n : Int) : decodeInt false n = fdiv (i2f n) (i2f 127) := by
  simp [decodeInt, maxMagOf]
theorem decodeInt_width16 (n : Int) : decodeInt true n = fdiv (i2f n) (i2f 32767) := by
  simp [decodeInt, maxMagOf]

/-- Settles O22: `DECODE` leaves the length and the PCM memory alone, so `ENCODE` completes after it, and it writes each byte of
the buffer from the sample that `DECODE` made of it. -/
theorem codecRoundTripIsTheIdentity : Obligations.CodecRoundTripIsTheIdentity := by
  refine ⟨fun n hlo hhi => ?_, fun n hlo hhi => ?_, fun s h => ?_⟩
  · have hround := encodeInt_decodeInt false (inRange_width8.2 ⟨hlo, hhi⟩)
    rwa [encodeInt_width8, decodeInt_width8] at hround
  · have hround := encodeInt_decodeInt true (inRange_width16.2 ⟨hlo, hhi⟩)
    rwa [encodeInt_width16, decodeInt_width16] at hround
  · obtain ⟨m, hm⟩ := decodeUpTo_shape (nsmp s) s
    have hwords : ∀ i < nsmp s, smpWord { s with smp := m } i = dec s i := fun i hi => by
      rw [← hm, decodeUpTo_word, if_pos hi]
    have hdecode : exec .decode s = .next (done { s with smp := m }) := hm ▸ exec_decode h
    have hencode : exec .encode (done { s with smp := m }) = _ := exec_encode h
    exact ⟨_, _, hdecode, hencode, pcmByte_encodeUpTo_of_decoded rfl rfl hwords⟩

end Sys2Proof.Machine
end

section
/-! Status management, presets and set-up (41_preset_setup.md R80 to R85; 10_state.md R31). -/

namespace Sys2Proof.Machine

/-! ### `NOP` and `CLRERR` (R80, R81) -/

theorem exec_nop (s : State) : exec .nop s = .next (done s) := exec_of_commandBody_ok rfl

theorem exec_clrerr (s : State) : exec .clrerr s = .next (done { s with status := clearSticky s.status }) :=
  exec_of_commandBody_ok rfl

/-- Settles O13: its body changes nothing, and `done` sets the result. -/
theorem nopOnlySetsResultOk : Obligations.NopOnlySetsResultOk :=
  ⟨encodedCommandDecodesToItself .nop rfl, exec_nop⟩

/-- Settles O14: its body clears the flags, and `done` sets the result. -/
theorem clrerrClearsTheStickyBits : Obligations.ClrerrClearsTheStickyBits :=
  ⟨encodedCommandDecodesToItself .clrerr rfl, exec_clrerr⟩

/-! ### `LOADP` (R82) -/

/-- The word of a format-P command whose operand fits, as R66 writes it. -/
theorem wordP_of_lt {id : Nat} (h : id < 2 ^ 8) (op : Nat) :
    wordP op id = BitVec.ofNat 32 op ||| (BitVec.ofNat 32 id <<< 8) := by
  rw [wordP, Nat.mod_eq_of_lt h]

theorem romRecord_eq_getElem? (p : Params) {id : Nat} (h : 1 ≤ id) : romRecord p id = p.rom[id - 1]? :=
  if_neg (Nat.pos_iff_ne_zero.1 h)

theorem exec_loadp_zero (s : State) : exec (.loadp 0) s = .next (done { s with
    ctrl := { s.ctrl with en := false }, status := { s.status with cfgValid := false } }) :=
  exec_of_commandBody_ok rfl

theorem exec_loadp_record {s : State} {id : Nat} {r : Preset} (hid : 1 ≤ id) (hr : s.par.rom[id - 1]? = some r) :
    exec (.loadp id) s = .next (done { s with
      preset := r, ctrl := { s.ctrl with en := true },
      status := { s.status with pid := BitVec.ofNat 8 id, cfgValid := false } }) := by
  have hrom : romRecord s.par id = some r := (romRecord_eq_getElem? s.par hid).trans hr
  exact exec_of_commandBody_ok (by simp only [commandBody, loadpBody, if_neg (Nat.pos_iff_ne_zero.1 hid), hrom])

theorem exec_loadp_noRecord {s : State} {id : Nat} (hid : s.par.rom.length < id) :
    exec (.loadp id) s = .next (raise .invalidConfiguration s) := by
  have hrom : romRecord s.par id = none := (romRecord_eq_none_iff s.par id).2 (.inr hid)
  exact exec_of_commandBody_error (by simp only [commandBody, loadpBody, if_neg (Nat.ne_zero_of_lt hid), hrom])

/-- Settles O15: 0 is the sentinel, and a number has a record exactly up to `N_PRESETS`. -/
theorem loadpCopiesTheNamedRecord : Obligations.LoadpCopiesTheNamedRecord := by
  refine ⟨fun id h => ?_, exec_loadp_zero, fun s id r hid hr => exec_loadp_record hid hr,
    fun s id hid => exec_loadp_noRecord hid⟩
  exact wordP_of_lt h 0x02 ▸ encodedCommandDecodesToItself (.loadp id) (decide_eq_true h)

/-! ### The checks of `SETUP` (R31, R84) -/

theorem lenOk_iff (s : State) : lenOk s = true ↔
    s.len.toNat ≤ s.par.pcmBytes ∧ (s.ctrl.width = true → s.len.toNat % 2 = 0) := by
  cases hw : s.ctrl.width <;> simp [lenOk, bps, hw, Nat.mod_one]

/-- Type 0 as a pattern and as a number. -/
theorem ftype_toNat_eq_zero_iff (f : BitVec 3) : f.toNat = 0 ↔ f = 0 :=
  ⟨fun h => BitVec.eq_of_toNat_eq h, fun h => h ▸ rfl⟩

theorem recordOk_iff (p : Preset) : recordOk p = true ↔
    (2 ≤ p.bits.toNat ∧ p.bits.toNat ≤ 16) ∧
    (fle fZero p.drive = true ∧ fle p.drive fOne = true) ∧ (fle fZero p.nvol = true ∧ fle p.nvol fOne = true) ∧
    isFinite p.gain = true ∧ p.ftype.toNat ≤ 4 ∧
    (p.ftype = 0 ∨
      (flt fZero p.freq = true ∧ flt p.freq fHalf = true) ∧ (flt fZero p.q = true ∧ isFinite p.q = true)) := by
  simp only [recordOk, Bool.and_eq_true, Bool.or_eq_true, decide_eq_true_eq, ftype_toNat_eq_zero_iff, and_assoc]

theorem cfgOk_iff (s : State) : cfgOk s = true ↔
    1 ≤ blk0 s ∧ recordOk s.preset = true ∧ s.ctrl.vol.toNat ≤ 100 := by
  simp only [cfgOk, Bool.and_eq_true, decide_eq_true_eq, and_assoc]

/-! ### `SETUP` (R85, R90, R110 to R113) -/

theorem exec_setup {s : State} (hlen : lenOk s = true) (hcfg : cfgOk s = true) : exec .setup s = .next (done
    { s with drv := derive s, filt := freshFilter, seq := freshSequencer, status := { s.status with cfgValid := true } }) :=
  exec_of_commandBody_ok (by simp only [commandBody, setupBody, hlen, hcfg, if_true])

theorem exec_setup_badLength {s : State} (hlen : lenOk s = false) :
    exec .setup s = .next (raise .invalidBufferLength s) :=
  exec_of_commandBody_error (by simp [commandBody, setupBody, hlen])

theorem exec_setup_badConfig {s : State} (hlen : lenOk s = true) (hcfg : cfgOk s = false) :
    exec .setup s = .next (raise .invalidConfiguration s) :=
  exec_of_commandBody_error (by simp [commandBody, setupBody, hlen, hcfg])

/-- The filter type selects the coefficients' formula (R111 to R113). -/
theorem bqcoef_of_ftype {p : Preset} {f : BitVec 3} (h : p.ftype = f) :
    bqcoef p = coefsOf f (tan32 (fmul pi32 p.freq)) p.q := by
  rw [bqcoef, h]

/-- Settles O16: `SETUP` ends by its two checks, which are read off their definitions, and so is what it loads. -/
theorem setupLoadsTheDerivedState : Obligations.SetupLoadsTheDerivedState := by
  refine ⟨encodedCommandDecodesToItself .setup rfl, fun s hlen hcfg => exec_setup hlen hcfg,
    fun s hlen => exec_setup_badLength hlen, fun s hlen hcfg => exec_setup_badConfig hlen hcfg, lenOk_iff,
    fun s => ?conditions, fun d => rfl, fun p => ?coefficients⟩
  case conditions =>
    rw [cfgOk_iff, recordOk_iff]
    exact ⟨fun ⟨hblk, ⟨hbits, hdrive, hnvol, hgain, htype, hfilter⟩, hvol⟩ =>
        ⟨hblk, hbits, hdrive, hnvol, hgain, hvol, htype, hfilter⟩,
      fun ⟨hblk, hbits, hdrive, hnvol, hgain, hvol, htype, hfilter⟩ =>
        ⟨hblk, ⟨hbits, hdrive, hnvol, hgain, htype, hfilter⟩, hvol⟩⟩
  case coefficients =>
    exact ⟨bqcoef_of_ftype, bqcoef_of_ftype, bqcoef_of_ftype, bqcoef_of_ftype, bqcoef_of_ftype⟩

/-! ### The block size (R83) -/

theorem blk0_of_fail {s : State} (h : s.par.blkPolicy = .fail) : blk0 s = hz s.ctrl.crate / hz s.preset.trate := by
  simp [blk0, h]

theorem blk0_of_clamp {s : State} (h : s.par.blkPolicy = .clamp) :
    blk0 s = max 1 (hz s.ctrl.crate / hz s.preset.trate) := by
  simp only [blk0, h, and_true]
  generalize hz s.ctrl.crate / hz s.preset.trate = b
  split <;> omega

/-- Settles O17: the policy says what a zero quotient becomes, and the quotients of the 16 pairs are evaluated. -/
theorem blockSizeFollowsTheRateTable : Obligations.BlockSizeFollowsTheRateTable := by
  intro s
  cases h : s.par.blkPolicy with
  | fail =>
    rw [blk0_of_fail h]
    generalize s.ctrl.crate = c, s.preset.trate = r
    revert c r
    decide
  | clamp =>
    rw [blk0_of_clamp h]
    generalize s.ctrl.crate = c, s.preset.trate = r
    revert c r
    decide

end Sys2Proof.Machine
end

section
/-! The machine invariant through every event (41_preset_setup.md R86; 10_state.md R13, R14, R18, R20). Most operations leave the
set-up alone, so for them the invariant is a matter of the generator, the memories and the sequencer's position. -/

namespace Sys2Proof.Machine

/-- The two states agree in everything that `CFG_VALID` and `PID` promise something of, but for the sequencer's position: the
parameters, the HOST's registers, the derived state, and the two status fields themselves. -/
structure SameSetup (s t : State) : Prop where
  par : t.par = s.par
  ctrl : t.ctrl = s.ctrl
  len : t.len = s.len
  preset : t.preset = s.preset
  drv : t.drv = s.drv
  cfgValid : t.status.cfgValid = s.status.cfgValid
  pid : t.status.pid = s.status.pid

theorem SameSetup.refl (s : State) : SameSetup s s := ⟨rfl, rfl, rfl, rfl, rfl, rfl, rfl⟩

/-- The sequencer's position as `ConfiguredOk` has it: `IDX` at most `nsmp()`, `PH` its place in the block (R13, R14). -/
structure PositionOk (s : State) : Prop where
  indexBounded : s.seq.idx.toNat ≤ nsmp s
  phaseInBlock : s.seq.ph.toNat = s.seq.idx.toNat % s.drv.blk.toNat

theorem ConfiguredOk.positionOk {s : State} (h : ConfiguredOk s) : PositionOk s := ⟨h.indexBounded, h.phaseInBlock⟩

/-- The start of the array is a position whatever the length and the block size (R85, R126). -/
theorem positionOk_of_fresh {s : State} (h : s.seq = freshSequencer) : PositionOk s where
  indexBounded := by simp [h, freshSequencer]
  phaseInBlock := by simp [h, freshSequencer]

theorem ConfiguredOk.of_sameSetup {s t : State} (h : ConfiguredOk s) (hs : SameSetup s t) (hpos : PositionOk t) :
    ConfiguredOk t where
  lengthOk := (lenOk_congr hs.ctrl hs.len hs.par).trans h.lengthOk
  parametersOk := (cfgOk_congr hs.ctrl hs.preset hs.par).trans h.parametersOk
  derivedCurrent := hs.drv.trans (h.derivedCurrent.trans (derive_congr hs.ctrl hs.preset hs.par).symm)
  blockPositive := hs.drv ▸ h.blockPositive
  indexBounded := hpos.indexBounded
  phaseInBlock := hpos.phaseInBlock

/-- With the set-up unchanged, the invariant asks for the generator, the memories and the position alone. -/
theorem MachineInv.of_sameSetup {s t : State} (h : MachineInv s) (hs : SameSetup s t) (hlfsr : t.lfsr ≠ 0)
    (hmem : MemoriesOk t) (hpos : ConfiguredOk s → PositionOk t) : MachineInv t where
  paramsLegal := hs.par ▸ h.paramsLegal
  lfsrNonzero := hlfsr
  memories := hmem
  configured hv :=
    have hc : ConfiguredOk s := h.configured (hs.cfgValid ▸ hv)
    hc.of_sameSetup hs (hpos hc)
  presetNamed hp := by
    rw [hs.par, hs.pid, hs.preset]
    exact h.presetNamed (hs.pid ▸ hp)

/-- An update of nothing but the generator, the filter state, `ACC`, other status fields and the bus's own records. -/
theorem MachineInv.of_frame {s t : State} (h : MachineInv s) (hs : SameSetup s t) (hlfsr : t.lfsr ≠ 0)
    (hpcm : t.pcm = s.pcm) (hsmp : t.smp = s.smp) (hseq : t.seq = s.seq) : MachineInv t :=
  h.of_sameSetup hs hlfsr (memoriesOk_congr h.memories hs.par hpcm hsmp) fun hc =>
    { indexBounded := by
        rw [hseq, nsmp_congr hs.ctrl hs.len]
        exact hc.indexBounded
      phaseInBlock := by
        rw [hseq, hs.drv]
        exact hc.phaseInBlock }

/-! ### How a command ends (R163) -/

theorem raise_keeps_inv (c : ResultCode) {s : State} (h : MachineInv s) : MachineInv (raise c s) :=
  h.of_frame { SameSetup.refl s with cfgValid := setSticky_cfgValid _ _, pid := setSticky_pid _ _ } h.lfsrNonzero rfl rfl rfl

theorem done_keeps_inv {s : State} (h : MachineInv s) : MachineInv (done s) :=
  h.of_frame { SameSetup.refl s with } h.lfsrNonzero rfl rfl rfl

/-- A command keeps the invariant when its body does. -/
theorem finish_keeps_inv {s : State} {r : Except ResultCode State} (h : MachineInv s) (hr : ∀ t, r = .ok t → MachineInv t) :
    MachineInv (finish s r) := by
  cases r with
  | ok t => exact done_keeps_inv (hr t rfl)
  | error c => exact raise_keeps_inv c h

/-! ### The memories through the codec's loops (R72, R74) -/

/-- `DECODE`'s loop stays inside the sample memory. -/
theorem decodeUpTo_memoriesOk {n : Nat} {s : State} (h : MemoriesOk s) (hn : n ≤ smpWords s.par) :
    MemoriesOk (decodeUpTo n s) := by
  induction n with
  | zero => exact h
  | succ n ih => exact memoriesOk_setSmpWord (ih (by omega)) _ (by rw [decodeUpTo_par]; omega)

/-- A sample inside the PCM buffer is stored inside the PCM memory. -/
theorem setPcmSample_memoriesOk {i : Nat} {s : State} (h : MemoriesOk s) (n : Int) (hi : (i + 1) * bps s ≤ s.par.pcmBytes) :
    MemoriesOk (setPcmSample i n s) := by
  unfold setPcmSample
  split
  next hw =>
    have hbps : bps s = 2 := by simp [bps, hw]
    rw [hbps] at hi
    exact memoriesOk_setPcmByte (memoriesOk_setPcmByte h _ (by omega)) _ (by rw [setPcmByte_par]; omega)
  next hw =>
    have hbps : bps s = 1 := by simp [bps, hw]
    rw [hbps] at hi
    exact memoriesOk_setPcmByte h _ (by omega)

theorem encodeSample_memoriesOk {i : Nat} {s : State} (h : MemoriesOk s) (hi : (i + 1) * bps s ≤ s.par.pcmBytes) :
    MemoriesOk (encodeSample i s) := by
  have hnoted : MemoriesOk (noteNan i s) := by
    rw [noteNan_shape]
    exact memoriesOk_congr h rfl rfl rfl
  refine setPcmSample_memoriesOk hnoted _ ?_
  rw [noteNan_shape]
  exact hi

/-- `ENCODE`'s loop stays inside the PCM memory. -/
theorem encodeUpTo_memoriesOk {n : Nat} {s : State} (h : MemoriesOk s) (hn : n * bps s ≤ s.par.pcmBytes) :
    MemoriesOk (encodeUpTo n s) := by
  induction n with
  | zero => exact h
  | succ n ih =>
    have hbps : bps (encodeUpTo n s) = bps s := by simp only [bps, encodeUpTo_ctrl]
    refine encodeSample_memoriesOk (ih (le_trans (Nat.mul_le_mul_right _ n.le_succ) hn)) ?_
    rw [hbps, encodeUpTo_par]
    exact hn

/-- With a good length the samples' bytes lie inside the PCM memory (R31). -/
theorem nsmp_mul_bps_le {s : State} (h : lenOk s = true) : nsmp s * bps s ≤ s.par.pcmBytes := by
  rw [nsmp_mul_bps h]
  exact ((lenOk_iff s).1 h).1

/-! ### The sequencer (R124, R126) -/

theorem chainLfsr_ne_zero {s : State} (h : s.lfsr ≠ 0) : chainLfsr s ≠ 0 := by
  unfold chainLfsr
  split
  · exact h
  · exact lfsrShifts_ne_zero 16 h

/-- One slot keeps the invariant: it writes the word at `IDX`, which is inside the array, and moves `IDX` and `PH` on
together. -/
theorem slot_keeps_inv {s : State} (h : MachineInv s) (hv : s.status.cfgValid = true) (hi : s.seq.idx.toNat < nsmp s) :
    MachineInv (slot s) := by
  have hc := h.configured hv
  have hword : s.seq.idx.toNat < smpWords s.par := lt_of_lt_of_le hi (nsmp_le hc.lengthOk)
  have hidx := slot_idx hi
  have hnsmp := slot_nsmp s
  obtain ⟨l, z, v, e, hl⟩ := slot_shape s
  rw [e] at hidx hnsmp ⊢
  refine h.of_sameSetup { SameSetup.refl s with } ?lfsr ?mem fun _ => { indexBounded := ?idx, phaseInBlock := ?ph }
  case lfsr =>
    rcases hl with rfl | rfl
    · exact h.lfsrNonzero
    · exact chainLfsr_ne_zero h.lfsrNonzero
  case mem => exact memoriesOk_congr (memoriesOk_setSmpWord h.memories v hword) rfl rfl rfl
  case idx =>
    rw [hidx, hnsmp]
    exact hi
  case ph =>
    rw [hidx]
    exact nextPhase_toNat hc.blockPositive hc.phaseInBlock

theorem runLoop_keeps_inv (n : Nat) {s : State} (h : MachineInv s) (hv : s.status.cfgValid = true) :
    MachineInv (runLoop n s) := by
  induction n generalizing s with
  | zero => exact h
  | succ n ih =>
    unfold runLoop
    split
    next hi => exact ih (slot_keeps_inv h hv hi) (by rw [slot_status, hv])
    next => exact h

/-! ### The bodies -/

/-- `LOADP` names the record it copies: a legal store has at most 255 records, so `PID` holds the number (R3, R20, R82). -/
theorem loadpBody_keeps_inv {id : Nat} {s t : State} (h : MachineInv s) (hb : loadpBody id s = .ok t) : MachineInv t := by
  rcases loadpBody_cases id s with ⟨-, e⟩ | ⟨r, -, hr, e⟩ | ⟨-, -, e⟩ <;> cases e.symm.trans hb
  · exact { h with memories := { h.memories with }, configured := fun hv => Bool.noConfusion hv }
  · have hid : (BitVec.ofNat 8 id).toNat = id := by
      have hrange : ¬ (id = 0 ∨ nPresets s.par < id) := fun hn =>
        Option.some_ne_none r (hr.symm.trans ((romRecord_eq_none_iff s.par id).2 hn))
      obtain ⟨-, -, -, -, hlen, -⟩ := (paramsOk_iff s.par).1 h.paramsLegal
      have hmax : nPresets s.par ≤ 255 := hlen
      rw [BitVec.toNat_ofNat]
      omega
    exact { h with
      memories := { h.memories with }
      configured := fun hv => Bool.noConfusion hv
      presetNamed := fun _ => (congrArg (romRecord s.par) hid).trans hr }

/-- `SETUP` earns `CFG_VALID`: it checked the length and the configuration, and loads what it derived (R85, R86). -/
theorem setupBody_keeps_inv {s t : State} (h : MachineInv s) (hb : setupBody s = .ok t) : MachineInv t := by
  rcases setupBody_cases s with ⟨hlen, hcfg, e⟩ | ⟨-, -, e⟩ | ⟨-, e⟩ <;> cases e.symm.trans hb
  obtain ⟨hblk, -, -⟩ := (cfgOk_iff s).1 hcfg
  exact { h with
    memories := { h.memories with }
    configured := fun _ =>
      { lengthOk := hlen
        parametersOk := hcfg
        derivedCurrent := rfl
        blockPositive := (derive_blk_toNat s).symm ▸ hblk
        indexBounded := (positionOk_of_fresh rfl).indexBounded
        phaseInBlock := (positionOk_of_fresh rfl).phaseInBlock } }

theorem decodeBody_keeps_inv {s t : State} (h : MachineInv s) (hb : decodeBody s = .ok t) : MachineInv t := by
  obtain ⟨hlen, rfl⟩ := decodeBody_eq_ok_iff.1 hb
  have hmem := decodeUpTo_memoriesOk h.memories (nsmp_le hlen)
  obtain ⟨m, e⟩ := decodeUpTo_shape (nsmp s) s
  rw [e] at hmem ⊢
  exact h.of_sameSetup { SameSetup.refl s with } h.lfsrNonzero hmem fun hc => { hc.positionOk with }

theorem encodeBody_keeps_inv {s t : State} (h : MachineInv s) (hb : encodeBody s = .ok t) : MachineInv t := by
  obtain ⟨hlen, rfl⟩ := encodeBody_eq_ok_iff.1 hb
  have hmem := encodeUpTo_memoriesOk h.memories (nsmp_mul_bps_le hlen)
  obtain ⟨m, b, e⟩ := encodeUpTo_shape (nsmp s) s
  rw [e] at hmem ⊢
  exact h.of_sameSetup { SameSetup.refl s with } h.lfsrNonzero hmem fun hc => { hc.positionOk with }

theorem runBody_keeps_inv {s t : State} (h : MachineInv s) (hb : runBody s = .ok t) : MachineInv t := by
  obtain ⟨hv, rfl⟩ := runBody_eq_ok_iff.1 hb
  have hstart : MachineInv { s with filt := freshFilter, seq := freshSequencer } :=
    h.of_sameSetup { SameSetup.refl s with } h.lfsrNonzero { h.memories with } fun _ => positionOk_of_fresh rfl
  exact runLoop_keeps_inv (nsmp s) hstart hv

theorem processBody_keeps_inv {s t : State} (h : MachineInv s) (hb : processBody s = .ok t) : MachineInv t := by
  rcases processBody_eq_ok_iff.1 hb with ⟨-, rfl⟩ | ⟨-, s1, s2, s3, hs, hd, hr, he⟩
  · exact h
  · exact encodeBody_keeps_inv (runBody_keeps_inv (decodeBody_keeps_inv (setupBody_keeps_inv h hs) hd) hr) he

/-- No command's body breaks the invariant. -/
theorem commandBody_keeps_inv {i : Instr} {s t : State} (h : MachineInv s) (hb : commandBody i s = .ok t) :
    MachineInv t := by
  have hset := SameSetup.refl s
  cases i with
  | nop => cases hb; exact h
  | clrerr | bqclr => cases hb; exact h.of_frame { hset with } h.lfsrNonzero rfl rfl rfl
  | ndraw => cases hb; exact h.of_frame { hset with } (lfsrShifts_ne_zero 16 h.lfsrNonzero) rfl rfl rfl
  | loadp id => exact loadpBody_keeps_inv h hb
  | setup => exact setupBody_keeps_inv h hb
  | decode => exact decodeBody_keeps_inv h hb
  | encode => exact encodeBody_keeps_inv h hb
  | lds idx =>
    obtain ⟨-, ⟨⟩⟩ := requireIndex_eq_ok_iff.1 hb
    exact h.of_frame { hset with } h.lfsrNonzero rfl rfl rfl
  | sts idx =>
    obtain ⟨hidx, ⟨⟩⟩ := requireIndex_eq_ok_iff.1 hb
    exact h.of_sameSetup { hset with } h.lfsrNonzero (memoriesOk_setSmpWord h.memories s.acc hidx) fun hc =>
      { hc.positionOk with }
  | dist | bcr | gain =>
    obtain ⟨-, ⟨⟩⟩ := requireConfigured_eq_ok_iff.1 hb
    exact h.of_frame { hset with } h.lfsrNonzero rfl rfl rfl
  | noise =>
    obtain ⟨-, ⟨⟩⟩ := requireConfigured_eq_ok_iff.1 hb
    rw [wnoise_snd]
    exact h.of_frame { hset with } (chainLfsr_ne_zero h.lfsrNonzero) rfl rfl rfl
  | bq =>
    obtain ⟨-, ⟨⟩⟩ := requireConfigured_eq_ok_iff.1 hb
    rw [biquad_snd]
    exact h.of_frame { hset with } h.lfsrNonzero rfl rfl rfl
  | chain =>
    obtain ⟨-, ⟨⟩⟩ := requireConfigured_eq_ok_iff.1 hb
    obtain ⟨z, e⟩ := chainValue_snd s.acc s
    rw [e]
    exact h.of_frame { hset with } (chainLfsr_ne_zero h.lfsrNonzero) rfl rfl rfl
  | step =>
    obtain ⟨hv, hslot⟩ := requireConfigured_eq_ok_iff.1 hb
    split at hslot
    next hi => cases hslot; exact slot_keeps_inv h hv hi
    next => cases hslot
  | run => exact runBody_keeps_inv h hb
  | process => exact processBody_keeps_inv h hb

theorem wordBody_keeps_inv {cw : Word} {s t : State} (h : MachineInv s) (hb : wordBody cw s = .ok t) : MachineInv t := by
  unfold wordBody at hb
  split at hb
  · exact commandBody_keeps_inv h hb
  · cases hb

/-! ### The HOST's events -/

/-- The recorded response is no part of the invariant (log 2). -/
theorem MachineInv.with_resp {s : State} (h : MachineInv s) (r : Option BusResponse) : MachineInv { s with resp := r } :=
  h.of_frame { SameSetup.refl s with } h.lfsrNonzero rfl rfl rfl

/-- The HOST cannot store the all-zero generator (R18). -/
theorem lfsrOfWord_ne_zero (v : Word) : lfsrOfWord v ≠ 0 := by
  unfold lfsrOfWord
  split
  · decide
  · assumption

/-- A write to an active-preset register withdraws both promises, of `CFG_VALID` and of `PID` (R26). -/
theorem writePreset_keeps_inv (p : Preset) {s : State} (h : MachineInv s) : MachineInv (writePreset p s) :=
  { h with
    memories := { h.memories with }
    configured := fun hv => Bool.noConfusion hv
    presetNamed := fun hp => absurd rfl hp }

theorem writeReg_keeps_inv (r : Reg) (v : Word) {s : State} (h : MachineInv s) : MachineInv (writeReg r v s) := by
  cases r with
  | ctrl | len => exact { h with memories := { h.memories with }, configured := fun hv => Bool.noConfusion hv }
  | pcfg | pDrive | pNvol | pFreq | pQ | pGain => exact writePreset_keeps_inv _ h
  | lfsr => exact h.of_frame { SameSetup.refl s with } (lfsrOfWord_ne_zero v) rfl rfl rfl
  | acc => exact h.of_frame { SameSetup.refl s with } h.lfsrNonzero rfl rfl rfl
  | _ => exact h

theorem hostWrite_keeps_inv {addr v : Word} {size : AccessSize} {s t : State} (h : MachineInv s)
    (hw : hostWrite addr size v s = .next t) : MachineInv t := by
  rcases hb : busTarget s.par addr size with _ | r | a | a
  · cases (hostWrite_refused hb v).symm.trans hw
    exact h.with_resp _
  · by_cases hr : r = .cmd
    · subst hr
      cases (hostWrite_cmd hb v).symm.trans hw
      exact (finish_keeps_inv h fun _ => wordBody_keeps_inv h).with_resp _
    · cases (hostWrite_reg hr hb v).symm.trans hw
      exact (writeReg_keeps_inv r v h).with_resp _
  · cases (hostWrite_pcm hb v).symm.trans hw
    have hin : a + AccessSize.bytes size ≤ s.par.pcmBytes := (busTarget_bounds hb).1 a rfl
    exact h.of_sameSetup { SameSetup.refl s with } h.lfsrNonzero
      { h.memories with
        pcmWf := storeBytes_wf a v size h.memories.pcmWf
        pcmWithin := storeBytes_within v size h.memories.pcmWithin hin }
      fun hc => { hc.positionOk with }
  · cases (hostWrite_smp hb v).symm.trans hw
    have hin : a + AccessSize.bytes size ≤ 4 * smpWords s.par := (busTarget_bounds hb).2 a rfl
    exact h.of_sameSetup { SameSetup.refl s with } h.lfsrNonzero
      { h.memories with
        smpWf := storeBytes_wf a v size h.memories.smpWf
        smpWithin := storeBytes_within v size h.memories.smpWithin hin }
      fun hc => { hc.positionOk with }

theorem hostRead_keeps_inv (addr : Word) (size : AccessSize) {s : State} (h : MachineInv s) :
    MachineInv (hostRead addr size s) := by
  unfold hostRead
  split
  · exact h.of_frame { SameSetup.refl s with } h.lfsrNonzero rfl rfl rfl
  · exact h.with_resp _

/-- `Reset` starts afresh with the same legal parameters: every promise is withdrawn (R30, R180). -/
theorem hostReset_keeps_inv {s : State} (h : MachineInv s) : MachineInv (hostReset s) where
  paramsLegal := h.paramsLegal
  lfsrNonzero := (by decide : (0xACE1 : BitVec 16) ≠ 0)
  memories := { memoriesOk_resetWith s.par with }
  configured hv := Bool.noConfusion hv
  presetNamed hp := absurd rfl hp

theorem takeEvent_keeps_inv {e : HostEvent} {s t : State} (h : MachineInv s) (ht : takeEvent e s = .next t) :
    MachineInv t := by
  cases e with
  | write addr size v => exact hostWrite_keeps_inv h ht
  | read addr size => cases ht; exact hostRead_keeps_inv addr size h
  | reset => cases ht; exact hostReset_keeps_inv h

/-- Settles O54: a step takes the first waiting event, if any, and no event breaks the invariant. -/
theorem everyStepKeepsTheInvariant : Obligations.EveryStepKeepsTheInvariant := by
  intro s t h hstep
  cases hin : s.inbox with
  | nil =>
    cases (step_idle hin).symm.trans hstep
    exact h
  | cons e rest =>
    rw [step_event hin] at hstep
    have htaken : MachineInv { s with inbox := rest } := h.of_frame { SameSetup.refl s with } h.lfsrNonzero rfl rfl rfl
    exact takeEvent_keeps_inv htaken hstep

end Sys2Proof.Machine
end

section
/-! The waveshaper on `ACC` (42_waveshaper.md R91, R92), and how every command ends whose first check is `CFG_VALID`. -/

namespace Sys2Proof.Machine

/-! ### The `CFG_VALID` check (R161, R182) -/

theorem exec_of_configured {i : Instr} {s : State} {b : Except ResultCode State}
    (hbody : commandBody i s = requireConfigured s b) (h : s.status.cfgValid = true) :
    exec i s = .next (finish s b) := by
  rw [exec_eq_finish_commandBody, hbody, requireConfigured_valid h]

theorem exec_of_notConfigured {i : Instr} {s : State} {b : Except ResultCode State}
    (hbody : commandBody i s = requireConfigured s b) (h : s.status.cfgValid = false) :
    exec i s = .next (raise .notConfigured s) :=
  exec_of_commandBody_error (hbody.trans (requireConfigured_invalid h b))

/-! ### The transfer function (R91) -/

/-- A drive of either zero bypasses the waveshaper, bit for bit. -/
theorem distort_of_zero {s : State} (h : feq s.preset.drive fZero = true) (x : F32) : distort s x = x := if_pos h

theorem distort_of_nonzero {s : State} (h : feq s.preset.drive fZero = false) (x : F32) :
    distort s x = fmul (fmul (atan32 (fmul (fmul s.preset.drive fHundred) x)) s.drv.norm) (atten s.preset.drive) :=
  if_neg (Bool.eq_false_iff.1 h)

/-! ### `DIST` (R92) -/

theorem exec_dist {s : State} (h : s.status.cfgValid = true) :
    exec .dist s = .next (done { s with acc := distort s s.acc }) :=
  exec_of_configured (i := .dist) rfl h

/-- Settles O24: the check of `CFG_VALID` either lets the transfer function through, whose two cases are the drive's, or
raises. -/
theorem distAppliesTheWaveshaper : Obligations.DistAppliesTheWaveshaper := by
  refine ⟨encodedCommandDecodesToItself .dist rfl, fun s hv hzero => ?bypass, fun s hv hdrive => ?formula,
    fun s hv => exec_of_notConfigured (i := .dist) rfl hv⟩
  case bypass =>
    rw [exec_dist hv, distort_of_zero hzero]
    rfl
  case formula =>
    rw [exec_dist hv, distort_of_nonzero hdrive]
    rfl

end Sys2Proof.Machine
end

section
/-! The quantizer (43_quantizer.md R95 to R98). The product of a grid value by the scale is exactly the grid value's integer, so the
second floor takes nothing away. As in the codec's round trip, the scale lies just below a power of two, so the quotient's error
of half a unit, times the scale, is less than half a unit of the integer's own `f32`; here for every `BITS`. -/

namespace Sys2Proof.Machine

/-! ### `BCR` (R97) -/

theorem exec_bcr {s : State} (h : s.status.cfgValid = true) :
    exec .bcr s = .next (done { s with acc := bitcrush s s.acc }) :=
  exec_of_configured (i := .bcr) rfl h

/-- Settles O25: the check of `CFG_VALID` either lets the quantizer through or raises. -/
theorem bcrAppliesTheQuantizer : Obligations.BcrAppliesTheQuantizer := by
  refine ⟨encodedCommandDecodesToItself .bcr rfl, fun s hv => ?_, fun s hv => exec_of_notConfigured (i := .bcr) rfl hv⟩
  rw [exec_bcr hv]
  rfl

/-! ### Products and quotients by a natural number (R141, R144) -/

theorem fSign_i2f_natCast (m : Nat) : fSign (i2f m) = false :=
  (fSign_i2f m).trans (decide_eq_false (Int.not_lt.2 (Int.natCast_nonneg m)))

section
variable {a : F32} {m : Nat} (ha : isFinite a = true) (hm : m < 2 ^ 24)
include ha hm

theorem fmul_i2f_natCast : fmul a (i2f m) = pack (fSign a) (roundMag (fScaled a * m) 1) := by
  have hcast : (m : Int).natAbs < 2 ^ 24 := hm
  rw [fmul_of_isFinite ha (isFinite_i2f hcast), fSign_i2f_natCast, Bool.bne_false, fScaled_i2f hcast, Int.natAbs_natCast,
    ← Nat.mul_assoc, Nat.mul_comm _ (2 ^ 149), ← roundMag_mul_mul (Nat.two_pow_pos 149) _ 1, Nat.mul_one]

theorem fdiv_i2f_natCast (hpos : 0 < m) : fdiv a (i2f m) = pack (fSign a) (roundMag (fScaled a) m) := by
  have hcast : (m : Int).natAbs < 2 ^ 24 := hm
  have hunits : fScaled (i2f m) = m * 2 ^ 149 := fScaled_i2f hcast
  have hne : fScaled (i2f m) ≠ 0 := hunits ▸ Nat.ne_of_gt (Nat.mul_pos hpos (Nat.two_pow_pos 149))
  rw [fdiv_of_isFinite ha (isFinite_i2f hcast) hne, fSign_i2f_natCast, Bool.bne_false, hunits, Nat.mul_comm _ (2 ^ 149),
    Nat.mul_comm m, roundMag_mul_mul (Nat.two_pow_pos 149)]

end

/-! ### The scale and the quantizer (R95, R96) -/

theorem bitcrushAt_eq (bits : BitVec 5) (x : F32) :
    bitcrushAt bits x = fdiv (ffloor (fmul x (crushScale bits))) (crushScale bits) := rfl

/-- The quantizer's scale `2^w - 1` as a natural number, for `w = BITS - 1`. -/
def gridScale (w : Nat) : Nat := 2 ^ w - 1

theorem crushScale_eq_gridScale (bits : BitVec 5) : crushScale bits = i2f (gridScale (bits.toNat - 1) : Nat) := by
  rw [crushScale, gridScale, Nat.cast_pred (Nat.two_pow_pos _)]
  push_cast
  rfl

theorem gridScale_lt (w : Nat) : gridScale w < 2 ^ w := Nat.sub_lt (Nat.two_pow_pos w) Nat.one_pos

theorem two_pow_le_two_mul_gridScale {w : Nat} (hw : 1 ≤ w) : 2 ^ w ≤ 2 * gridScale w := by
  have : 2 ^ 1 ≤ 2 ^ w := Nat.pow_le_pow_right (by decide) hw
  unfold gridScale
  omega

theorem gridScale_pos {w : Nat} (hw : 1 ≤ w) : 0 < gridScale w := by
  have := two_pow_le_two_mul_gridScale hw
  have := Nat.two_pow_pos w
  omega

theorem two_pow_lt_of_le_fifteen {w : Nat} (hw : w ≤ 15) : 2 ^ w < 2 ^ 24 := Nat.pow_lt_pow_right (by decide) (by omega)

/-! ### The significands -/

/-- The rounded quotient of the significand `f` by the scale, times the scale; exactly, it would be `f * 2^w`. -/
def quotientTimesScale (w f : Nat) : Nat := roundQuot (f * 2 ^ w) (gridScale w) * gridScale w

/-- Below a power of two the patterns are twice as dense, so where `f = 2^23` and the quotient rounded down, half a unit is not
near enough. For the fifteen scales it is then near enough all the same (for `BITS = 6`, a tie that goes to the even `2^24`). -/
theorem quotientTimesScale_two_pow :
    ∀ w ≤ 15, 1 ≤ w → 2 ^ 23 * 2 ^ w ≤ quotientTimesScale w (2 ^ 23) ∨
      roundQuot (2 * quotientTimesScale w (2 ^ 23)) (2 ^ w) = 2 ^ 24 := by
  decide

/-- The significand of an integer up to `2^w`, over the scale, is a significand again. -/
theorem significand_le_of_le_two_pow {w x : Nat} (hw : 1 ≤ w) (hpos : 0 < x) (hx : x ≤ 2 ^ w) (hlog : x.log2 ≤ 23) :
    x * 2 ^ (23 - x.log2) * 2 ^ w ≤ 2 ^ 24 * gridScale w := by
  have hbase : x * 2 ^ w ≤ 2 ^ (x.log2 + 1) * gridScale w := by
    obtain hlt | rfl := Nat.lt_or_eq_of_le hx
    · have hnext : 2 ^ (x.log2 + 1) ≤ 2 ^ w :=
        Nat.pow_le_pow_right (by decide) ((Nat.log2_lt (Nat.ne_of_gt hpos)).2 hlt)
      have htop : (x + 1) * 2 ^ w ≤ 2 ^ (x.log2 + 1) * 2 ^ w := Nat.mul_le_mul_right _ Nat.lt_log2_self
      rw [Nat.add_mul] at htop
      rw [gridScale, Nat.mul_sub]
      omega
    · rw [Nat.log2_two_pow, pow_succ, Nat.mul_assoc]
      exact Nat.mul_le_mul_left _ (two_pow_le_two_mul_gridScale hw)
  calc x * 2 ^ (23 - x.log2) * 2 ^ w = x * 2 ^ w * 2 ^ (23 - x.log2) := Nat.mul_right_comm _ _ _
    _ ≤ 2 ^ (x.log2 + 1) * gridScale w * 2 ^ (23 - x.log2) := Nat.mul_le_mul_right _ hbase
    _ = 2 ^ 24 * gridScale w := by
      rw [Nat.mul_right_comm, ← pow_add, show x.log2 + 1 + (23 - x.log2) = 24 by omega]

section
variable {w : Nat} (hw : 1 ≤ w) (hw' : w ≤ 15)
include hw hw'

/-- The quotient's significand times the scale rounds back to the dividend's significand. -/
theorem roundMag_quotientTimesScale {f k : Nat} (hlo : 2 ^ 23 ≤ f) (hhi : f < 2 ^ 24) (hpos : 1 ≤ k) (hk : k ≤ 253) :
    roundMag (quotientTimesScale w f * 2 ^ k) (2 ^ w) = k * 2 ^ 23 + f := by
  have h2w := Nat.two_pow_pos w
  obtain ⟨hbelow, habove⟩ := roundQuot_product_of_quotient (f := f) (gridScale_pos hw) (gridScale_lt w)
  rw [← quotientTimesScale] at hbelow habove
  have hmax := Nat.mul_le_mul_right (2 ^ w) (show f + 1 ≤ 2 ^ 24 by omega)
  rw [Nat.add_mul] at hmax
  by_cases hsame : 2 ^ 23 * 2 ^ w ≤ quotientTimesScale w f
  · rw [roundMag_mul_two_pow h2w hsame (by omega) hk, roundQuot_eq_of_near hbelow habove]
  · obtain rfl : f = 2 ^ 23 := by
      by_contra hne
      have hmin := Nat.mul_le_mul_right (2 ^ w) (show 2 ^ 23 + 1 ≤ f by omega)
      rw [Nat.add_mul] at hmin
      omega
    have hround := (quotientTimesScale_two_pow w hw' hw).resolve_left hsame
    obtain ⟨j, rfl⟩ : ∃ j, k = j + 1 := ⟨k - 1, by omega⟩
    have hdouble : quotientTimesScale w (2 ^ 23) * 2 ^ (j + 1) = 2 * quotientTimesScale w (2 ^ 23) * 2 ^ j := by ring
    rw [hdouble, roundMag_mul_two_pow h2w (by omega) (by omega) (by omega), hround]
    omega

/-! ### The grid values -/

/-- A grid value's magnitude is finite, and its product by the scale rounds to the integer's magnitude. -/
theorem roundMag_gridProduct {x : Nat} (hx : x ≤ 2 ^ w) :
    roundMag (x * 2 ^ 149) (gridScale w) < infMagnitude ∧
      roundMag (magnitudeUnits (roundMag (x * 2 ^ 149) (gridScale w)) * gridScale w) 1 = roundMag (x * 2 ^ 149) 1 := by
  obtain rfl | hpos := Nat.eq_zero_or_pos x
  · simp [magnitudeUnits_zero, infMagnitude]
  obtain ⟨hunits, hlog, hlo, hhi⟩ := exists_significand_of_nat hpos (lt_of_le_of_lt hx (two_pow_lt_of_le_fifteen hw'))
  have hfits := significand_le_of_le_two_pow hw hpos hx hlog
  set f := x * 2 ^ (23 - x.log2)
  obtain ⟨k, hk⟩ : ∃ k, 126 + x.log2 = w + k := ⟨126 + x.log2 - w, by omega⟩
  have hfloor : 2 ^ 23 * gridScale w ≤ f * 2 ^ w := Nat.mul_le_mul hlo (gridScale_lt w).le
  have hmax := roundQuot_le hfits
  have hquotient : roundMag (x * 2 ^ 149) (gridScale w) = k * 2 ^ 23 + roundQuot (f * 2 ^ w) (gridScale w) := by
    rw [hunits, hk, pow_add, ← Nat.mul_assoc, roundMag_mul_two_pow (gridScale_pos hw) hfloor hfits (by omega)]
  have hproduct : 2 ^ w * (roundQuot (f * 2 ^ w) (gridScale w) * 2 ^ k * gridScale w) =
      quotientTimesScale w f * 2 ^ (w + k) := by
    rw [quotientTimesScale, pow_add]
    ring
  rw [hquotient]
  constructor
  · rw [infMagnitude]
    omega
  · rw [magnitudeUnits_significand (.inr (le_roundQuot (gridScale_pos hw) hfloor)) hmax,
      ← roundMag_mul_mul (Nat.two_pow_pos w), Nat.mul_one, hproduct,
      roundMag_quotientTimesScale hw hw' hlo hhi (by omega) (by omega), hunits, hk,
      roundMag_significand hlo hhi.le (by omega)]

/-- A grid value times the scale is its integer: the two roundings cancel. -/
theorem fmul_fdiv_gridScale {n : Int} (hn : n.natAbs ≤ 2 ^ w) :
    fmul (fdiv (i2f n) (i2f (gridScale w : Nat))) (i2f (gridScale w : Nat)) = i2f n := by
  have hlt := two_pow_lt_of_le_fifteen hw'
  have habs : n.natAbs < 2 ^ 24 := by omega
  have hscale : gridScale w < 2 ^ 24 := lt_trans (gridScale_lt w) hlt
  obtain ⟨hfinite, hproduct⟩ := roundMag_gridProduct hw hw' hn
  rw [fdiv_i2f_natCast (isFinite_i2f habs) hscale (gridScale_pos hw), fScaled_i2f habs,
    fmul_i2f_natCast (isFinite_pack hfinite _) hscale, fScaled_pack (roundMag_lt _ _), fSign_pack (roundMag_lt _ _), hproduct,
    fSign_i2f, i2f]

end

/-! ### The floor (R143) -/

/-- The floor of a finite value is the `f32` of an integer, unless the value is a zero, which keeps its sign. -/
theorem ffloor_of_isFinite {a : F32} (ha : isFinite a = true) (hne : isZero a = false) :
    ffloor a = i2f (fInt a / 2 ^ 149) := by
  simp [ffloor, i2f, isNan_of_isFinite ha, isInf_of_isFinite ha, hne]

theorem isFinite_of_isZero {a : F32} (h : isZero a = true) : isFinite a = true :=
  (isFinite_iff a).2 ((isZero_iff a).1 h ▸ by decide)

theorem ffloor_of_isZero {a : F32} (h : isZero a = true) : ffloor a = a := by
  simp [ffloor, isNan_of_isFinite (isFinite_of_isZero h), h]

/-- An integer is its own floor. -/
theorem ffloor_i2f {n : Int} (h : n.natAbs < 2 ^ 24) : ffloor (i2f n) = i2f n := by
  cases hzero : isZero (i2f n) with
  | true => exact ffloor_of_isZero hzero
  | false => rw [ffloor_of_isFinite (isFinite_i2f h) hzero, fInt_i2f h, Int.mul_ediv_cancel _ (by norm_num)]

/-! ### Zeros and the range of the product -/

section
variable {z : F32} (hz : isZero z = true) {m : Nat} (hm : m < 2 ^ 24)
include hz

theorem pack_fSign_of_isZero : pack (fSign z) 0 = z := by
  conv_rhs => rw [← pack_fSign_fMagnitude z, (isZero_iff z).1 hz]

include hm

theorem fmul_of_isZero : fmul z (i2f m) = z := by
  rw [fmul_i2f_natCast (isFinite_of_isZero hz) hm, (isZero_iff_fScaled z).1 hz, Nat.zero_mul, roundMag_zero,
    pack_fSign_of_isZero hz]

theorem fdiv_of_isZero (hpos : 0 < m) : fdiv z (i2f m) = z := by
  rw [fdiv_i2f_natCast (isFinite_of_isZero hz) hm hpos, (isZero_iff_fScaled z).1 hz, roundMag_zero, pack_fSign_of_isZero hz]

end

theorem natAbs_orderKey (a : F32) : (orderKey a).natAbs = fMagnitude a := by
  unfold orderKey
  split <;> omega

theorem orderKey_le_of_fle {a b : F32} (h : fle a b = true) : orderKey a ≤ orderKey b := by
  simp only [fle, Bool.and_eq_true, decide_eq_true_iff] at h
  exact h.2

/-- A value between two finite ones is finite. -/
theorem isFinite_of_fle_of_fle {a b c : F32} (ha : isFinite a = true) (hc : isFinite c = true) (hab : fle a b = true)
    (hbc : fle b c = true) : isFinite b = true := by
  rw [isFinite_iff, ← natAbs_orderKey] at ha hc ⊢
  have := orderKey_le_of_fle hab
  have := orderKey_le_of_fle hbc
  omega

/-- The floor of a value whose magnitude is at most an integer's is so too. -/
theorem natAbs_floor_le_of_fle_of_fle {m : Nat} {v : F32} (hm : m < 2 ^ 24) (hbelow : fle (i2f (-(m : Int))) v = true)
    (habove : fle v (i2f m) = true) : isFinite v = true ∧ (fInt v / 2 ^ 149).natAbs ≤ m := by
  have hpos : (m : Int).natAbs < 2 ^ 24 := hm
  have hneg : (-(m : Int)).natAbs < 2 ^ 24 := by rwa [Int.natAbs_neg]
  have hfinite := isFinite_of_fle_of_fle (isFinite_i2f hneg) (isFinite_i2f hpos) hbelow habove
  rw [fle_iff_of_isFinite (isFinite_i2f hneg) hfinite, fInt_i2f hneg] at hbelow
  rw [fle_iff_of_isFinite hfinite (isFinite_i2f hpos), fInt_i2f hpos] at habove
  exact ⟨hfinite, by omega⟩

/-! ### Idempotence (R98) -/

section
variable {bits : BitVec 5} (hlo : 2 ≤ bits.toNat) (hhi : bits.toNat ≤ 16)
include hlo hhi

/-- A grid value is its own quantization. -/
theorem bitcrushAt_gridValue {n : Int} (hn : n.natAbs ≤ 2 ^ (bits.toNat - 1)) :
    bitcrushAt bits (fdiv (i2f n) (crushScale bits)) = fdiv (i2f n) (crushScale bits) := by
  have hw' : bits.toNat - 1 ≤ 15 := by omega
  have hlt := two_pow_lt_of_le_fifteen hw'
  rw [bitcrushAt_eq, crushScale_eq_gridScale, fmul_fdiv_gridScale (by omega) hw' hn, ffloor_i2f (by omega)]

/-- A zero keeps its sign through the quotient by the scale and through the quantizer; the negative one is no `i2f n`. -/
theorem bitcrushAt_zeroQuotient {z : F32} (hz : isZero z = true) :
    bitcrushAt bits (fdiv z (crushScale bits)) = fdiv z (crushScale bits) := by
  have hscale : gridScale (bits.toNat - 1) < 2 ^ 24 :=
    lt_trans (gridScale_lt _) (two_pow_lt_of_le_fifteen (by omega))
  have hquotient := fdiv_of_isZero hz hscale (gridScale_pos (by omega))
  rw [bitcrushAt_eq, crushScale_eq_gridScale, hquotient, fmul_of_isZero hz hscale, ffloor_of_isZero hz, hquotient]

/-- Quantizing again a value whose product by the scale is within the range changes nothing. -/
theorem bitcrushAt_bitcrushAt {x : F32} (hbelow : fle (i2f (-(2 ^ (bits.toNat - 1)))) (fmul x (crushScale bits)) = true)
    (habove : fle (fmul x (crushScale bits)) (i2f (2 ^ (bits.toNat - 1))) = true) :
    bitcrushAt bits (bitcrushAt bits x) = bitcrushAt bits x := by
  have hlt := two_pow_lt_of_le_fifteen (w := bits.toNat - 1) (by omega)
  have hcast : (2 ^ (bits.toNat - 1) : Int) = (2 ^ (bits.toNat - 1) : Nat) := (Nat.cast_pow 2 _).symm
  rw [hcast] at hbelow habove
  obtain ⟨hfinite, hfloor⟩ := natAbs_floor_le_of_fle_of_fle hlt hbelow habove
  rw [bitcrushAt_eq bits x]
  cases hzero : isZero (fmul x (crushScale bits)) with
  | true =>
    rw [ffloor_of_isZero hzero]
    exact bitcrushAt_zeroQuotient hlo hhi hzero
  | false =>
    rw [ffloor_of_isFinite hfinite hzero]
    exact bitcrushAt_gridValue hlo hhi hfloor

end

/-- Settles O26: quantizing leaves a grid value, or a zero with its sign, over the scale, and both quantize to themselves. -/
theorem quantizationIsIdempotent : Obligations.QuantizationIsIdempotent := by
  refine fun bits hlo hhi => ⟨fun n hbelow habove => bitcrushAt_gridValue hlo hhi ?_,
    fun x hbelow habove => bitcrushAt_bitcrushAt hlo hhi hbelow habove⟩
  zify
  exact abs_le.2 ⟨hbelow, habove⟩

end Sys2Proof.Machine
end

section
/-! The noise generator's commands (44_noise_gen.md R102, R105 to R108): how `NDRAW` and `NOISE` end, and the range of a draw. -/

namespace Sys2Proof.Machine

/-! ### `NDRAW` and `NOISE` (R107, R108) -/

/-- The effective noise volume is zero when `NOISEOFF` is set or the preset's volume is a zero (R31, R104). -/
theorem feq_nvEff_zero_iff (s : State) :
    feq (nvEff s) fZero = true ↔ s.ctrl.noiseOff = true ∨ feq s.preset.nvol fZero = true := by
  cases h : s.ctrl.noiseOff with
  | false => simp [nvEff, h]
  | true => simp [nvEff, h, show feq fZero fZero = true by decide]

theorem exec_ndraw (s : State) : exec .ndraw s = .next (done { s with
    lfsr := lfsrShifts 16 s.lfsr, acc := drawValue (lfsrShifts 16 s.lfsr) }) :=
  exec_of_commandBody_ok rfl

theorem exec_noise {s : State} (h : s.status.cfgValid = true) :
    exec .noise s = .next (done { (wnoise s.acc s).2 with acc := (wnoise s.acc s).1 }) :=
  exec_of_configured (i := .noise) rfl h

/-- A zero effective noise volume bypasses the noise, bit for bit and without a draw (R106). -/
theorem wnoise_of_quiet {s : State} (h : feq (nvEff s) fZero = true) (x : F32) : wnoise x s = (x, s) := if_pos h

theorem wnoise_of_loud {s : State} (h : feq (nvEff s) fZero = false) (x : F32) : wnoise x s =
    (mixNoise (nvEff s) (gv s) x (drawValue (lfsrShifts 16 s.lfsr)), { s with lfsr := lfsrShifts 16 s.lfsr }) :=
  if_neg (Bool.eq_false_iff.1 h)

/-- Settles O27: no check comes before the draw. -/
theorem ndrawTakesOneDraw : Obligations.NdrawTakesOneDraw :=
  ⟨encodedCommandDecodesToItself .ndraw rfl, exec_ndraw⟩

/-- Settles O28: the check of `CFG_VALID` either lets the noise through, whose two cases are those of the effective noise volume,
or raises. -/
theorem noiseMixesOneDraw : Obligations.NoiseMixesOneDraw := by
  refine ⟨encodedCommandDecodesToItself .noise rfl, fun s hv hquiet => ?bypass, fun s hv hon hvol => ?mix,
    fun s hv => exec_of_notConfigured (i := .noise) rfl hv⟩
  case bypass =>
    rw [exec_noise hv, wnoise_of_quiet ((feq_nvEff_zero_iff s).2 hquiet)]
    rfl
  case mix =>
    have hnv : nvEff s = s.preset.nvol := if_neg (Bool.eq_false_iff.1 hon)
    rw [exec_noise hv, wnoise_of_loud (hnv ▸ hvol), hnv]
    rfl

/-! ### The range of a draw (R102) -/

/-- A quotient up to a power of two rounds to at most that power of two, which is itself a value of the format. -/
theorem roundMag_le_of_le_two_pow {n d k : Nat} (h : n ≤ d * 2 ^ (23 + k)) : roundMag n d ≤ (k + 1) * 2 ^ 23 := by
  obtain rfl | hd := Nat.eq_zero_or_pos d
  · obtain rfl : n = 0 := by simpa using h
    simp
  have hlog : (n / d).log2 ≤ 23 + k := by
    rw [Nat.log2_eq_log_two, ← Nat.log_pow Nat.one_lt_two (23 + k)]
    exact Nat.log_mono_right (Nat.div_le_of_le_mul h)
  rw [roundMag_eq_roundQuot]
  generalize hj : (n / d).log2 - 23 = j
  refine le_trans (Nat.min_le_left _ _) ?_
  obtain hlt | rfl := Nat.lt_or_eq_of_le (show j ≤ k by omega)
  · have hbelow : n ≤ 2 ^ 24 * (d * 2 ^ j) := by
      calc n ≤ 2 ^ ((n / d).log2 + 1) * d := ((Nat.div_lt_iff_lt_mul hd).1 Nat.lt_log2_self).le
        _ ≤ 2 ^ (24 + j) * d := Nat.mul_le_mul_right _ (Nat.pow_le_pow_right (by decide) (by omega))
        _ = 2 ^ 24 * (d * 2 ^ j) := by ring
    have := roundQuot_le hbelow
    omega
  · have := roundQuot_le (m := 2 ^ 23) (n := n) (u := d * 2 ^ j) (by rw [pow_add] at h; linarith)
    omega

theorem fInt16Max_eq : fInt16Max = i2f (32767 : Nat) := by decide +kernel

/-- The magnitude of a draw: the distance of the state from `0x8000`, over 32767, rounded once. -/
theorem fMagnitude_drawValue (l : BitVec 16) :
    fMagnitude (drawValue l) = roundMag (((l.toNat : Int) - 32768).natAbs * 2 ^ 149) 32767 := by
  have habs : ((l.toNat : Int) - 32768).natAbs < 2 ^ 24 := by
    have := l.isLt
    omega
  rw [drawValue, fInt16Max_eq, fdiv_i2f_natCast (isFinite_i2f habs) (by decide) (by decide), fScaled_i2f habs,
    fMagnitude_pack (roundMag_lt _ _)]

/-- A magnitude up to that of 1.0 is a value between -1.0 and 1.0 (R145). -/
theorem fle_one_of_fMagnitude_le {v : F32} (h : fMagnitude v ≤ 0x3F800000) :
    fle 0xBF800000 v = true ∧ fle v 0x3F800000 = true := by
  have hnan : isNan v = false := by
    rw [← Bool.not_eq_true, isNan_iff, infMagnitude]
    omega
  have hone : isNan 0x3F800000 = false ∧ orderKey 0x3F800000 = 0x3F800000 := by decide
  have hneg : isNan 0xBF800000 = false ∧ orderKey 0xBF800000 = -0x3F800000 := by decide
  have habs := natAbs_orderKey v
  simp only [fle, hnan, hone, hneg, Bool.not_false, Bool.true_and, decide_eq_true_eq]
  omega

/-- Settles O46: a nonzero state is at most 32767 away from `0x8000`. -/
theorem drawLiesInTheUnitInterval : Obligations.DrawLiesInTheUnitInterval := by
  refine ⟨fun l hl => fle_one_of_fMagnitude_le ?_, by decide +kernel, by decide +kernel, by decide +kernel⟩
  have hpos : l.toNat ≠ 0 := fun h => hl (BitVec.eq_of_toNat_eq h)
  have hdist : ((l.toNat : Int) - 32768).natAbs ≤ 32767 := by
    have := l.isLt
    omega
  rw [fMagnitude_drawValue]
  exact roundMag_le_of_le_two_pow (k := 126) (Nat.mul_le_mul_right _ hdist)

end Sys2Proof.Machine
end

section
/-! The period of the noise generator (44_noise_gen.md R101). A shift is linear over the exclusive or, so its powers are known by
their values on the single bits, and repeated squaring gives the shifts by 65535 and by its largest proper divisors. The orbit of
state 1 then has 65535 states, as many as there are nonzero ones. -/

namespace Sys2Proof.Machine

/-! ### Powers of a linear function -/

/-- A function that commutes with the exclusive or, so that it is known by its values on the single bits. -/
def XorLinear (f : BitVec 16 → BitVec 16) : Prop := ∀ a b, f (a ^^^ b) = f a ^^^ f b

/-- The values of a function on the single bits, bit 0 first. -/
def columnsOf (f : BitVec 16 → BitVec 16) : List (BitVec 16) := (List.range' 0 16).map fun i => f (BitVec.twoPow 16 i)

/-- The exclusive or of the columns that the bits of a state select. -/
def applyColumns : List (BitVec 16) → BitVec 16 → BitVec 16
  | [], _ => 0
  | c :: cs, v => (if v.getLsbD 0 then c else 0) ^^^ applyColumns cs (v >>> 1)

/-- The columns of the function applied twice. -/
def squareColumns (cols : List (BitVec 16)) : List (BitVec 16) := cols.map (applyColumns cols)

/-- The function of these columns applied `n < 2^w` times, by repeated squaring. -/
def iterateColumns : Nat → List (BitVec 16) → Nat → BitVec 16 → BitVec 16
  | 0, _, _, v => v
  | w + 1, cols, n, v =>
    iterateColumns w (squareColumns cols) (n / 2) (if n % 2 = 1 then applyColumns cols v else v)

theorem XorLinear.map_zero {f : BitVec 16 → BitVec 16} (h : XorLinear f) : f 0 = 0 := by
  have h0 := h 0 0
  rwa [BitVec.xor_self, BitVec.xor_self] at h0

theorem XorLinear.iterate_two {f : BitVec 16 → BitVec 16} (h : XorLinear f) : XorLinear (f^[2]) := fun a b => by
  simp only [Function.iterate_succ, Function.iterate_zero, Function.comp_apply, id, h a b, h (f a) (f b)]

/-- A state is its bit 0 and the rest. -/
theorem shiftLeft_eq_bit_xor (v : BitVec 16) (i : Nat) :
    v <<< i = (if v.getLsbD 0 then BitVec.twoPow 16 i else 0) ^^^ (v >>> 1) <<< (i + 1) := by
  apply BitVec.eq_of_getLsbD_eq
  intro j hj
  have hbit : (if v.getLsbD 0 then BitVec.twoPow 16 i else 0).getLsbD j = (v.getLsbD 0 && decide (i = j)) := by
    cases v.getLsbD 0 <;> simp [hj, eq_comm]
  rw [BitVec.getLsbD_xor, hbit]
  simp only [BitVec.getLsbD_shiftLeft, BitVec.getLsbD_ushiftRight, hj, decide_true, Bool.true_and]
  obtain hlt | rfl | hgt := Nat.lt_trichotomy j i
  · simp [hlt, show j < i + 1 by omega, hlt.ne']
  · simp
  · simp [show ¬ j < i by omega, show ¬ j < i + 1 by omega, hgt.ne, show 1 + (j - (i + 1)) = j - i by omega]

/-- The columns from bit `i` on, applied to a state, are the function of the state moved up to bit `i`. -/
theorem applyColumns_range' {f : BitVec 16 → BitVec 16} (h : XorLinear f) {n i : Nat} (hi : i + n = 16) (v : BitVec 16) :
    applyColumns ((List.range' i n).map fun i => f (BitVec.twoPow 16 i)) v = f (v <<< i) := by
  induction n generalizing i v with
  | zero =>
    rw [BitVec.shiftLeft_eq_zero (by omega)]
    exact h.map_zero.symm
  | succ n ih =>
    rw [List.range'_succ, List.map_cons, applyColumns, ih (by omega), shiftLeft_eq_bit_xor v i, h, apply_ite f, h.map_zero]

/-- A linear function is known by its columns. -/
theorem applyColumns_columnsOf {f : BitVec 16 → BitVec 16} (h : XorLinear f) (v : BitVec 16) :
    applyColumns (columnsOf f) v = f v :=
  (applyColumns_range' h rfl v).trans (congrArg f (BitVec.shiftLeft_zero v))

theorem squareColumns_columnsOf {f : BitVec 16 → BitVec 16} (h : XorLinear f) :
    squareColumns (columnsOf f) = columnsOf (f^[2]) := by
  rw [squareColumns, funext (applyColumns_columnsOf h), columnsOf, List.map_map]
  rfl

theorem iterateColumns_columnsOf (w : Nat) {f : BitVec 16 → BitVec 16} (h : XorLinear f) {n : Nat} (hn : n < 2 ^ w)
    (v : BitVec 16) : iterateColumns w (columnsOf f) n v = f^[n] v := by
  induction w generalizing f n v with
  | zero => rw [Nat.lt_one_iff.1 hn]; rfl
  | succ w ih =>
    have hbit : (if n % 2 = 1 then f v else v) = f^[n % 2] v := by
      obtain e | e := Nat.mod_two_eq_zero_or_one n <;> rw [e] <;> rfl
    rw [iterateColumns, squareColumns_columnsOf h, ih h.iterate_two (by omega), applyColumns_columnsOf h, hbit,
      ← Function.iterate_mul, ← Function.iterate_add_apply, Nat.div_add_mod]

/-! ### The shift and its orbit -/

/-- A shift moves every bit down by one and puts the feedback into bit 15. -/
theorem getLsbD_lfsrShift (l : BitVec 16) {i : Nat} (hi : i < 16) : (lfsrShift l).getLsbD i =
    if i = 15 then l.getLsbD 0 ^^ l.getLsbD 2 ^^ l.getLsbD 3 ^^ l.getLsbD 5 else l.getLsbD (i + 1) := by
  split
  next h =>
    subst h
    simp [lfsrShift, BitVec.getLsbD_of_ge]
  next h =>
    have : i < 15 := by omega
    simp [lfsrShift, this, Nat.add_comm 1 i]

theorem lfsrShift_xorLinear : XorLinear lfsrShift := by
  intro a b
  apply BitVec.eq_of_getLsbD_eq
  intro i hi
  rw [BitVec.getLsbD_xor, getLsbD_lfsrShift _ hi, getLsbD_lfsrShift _ hi, getLsbD_lfsrShift _ hi]
  split
  · simp only [BitVec.getLsbD_xor, Bool.xor_assoc, Bool.xor_left_comm]
  · exact BitVec.getLsbD_xor

theorem lfsrShifts_eq_iterate (n : Nat) (l : BitVec 16) : lfsrShifts n l = lfsrShift^[n] l := by
  induction n generalizing l with
  | zero => rfl
  | succ n ih => exact ih _

/-- A period is the least one when dividing it by any of its prime factors gives no period. -/
theorem minimalPeriod_eq_of_forall_prime {α : Type} {f : α → α} {x : α} {n : Nat} (hn : Function.IsPeriodicPt f n x)
    (hdiv : ∀ q, q.Prime → q ∣ n → ¬ Function.IsPeriodicPt f (n / q) x) : Function.minimalPeriod f x = n := by
  obtain ⟨c, hc⟩ := hn.minimalPeriod_dvd
  by_cases hone : c = 1
  · rw [hc, hone, Nat.mul_one]
  · obtain ⟨q, hq, d, rfl⟩ := Nat.exists_prime_and_dvd hone
    have hfactor : n = q * (Function.minimalPeriod f x * d) := hc.trans (Nat.mul_left_comm _ _ _)
    refine absurd ?_ (hdiv q hq ⟨_, hfactor⟩)
    rw [Nat.div_eq_of_eq_mul_right hq.pos hfactor]
    exact (Function.isPeriodicPt_minimalPeriod f x).mul_const d

/-- `65535 = 3 * 5 * 17 * 257`, into primes. -/
theorem mem_of_prime_of_dvd_65535 {q : Nat} (hq : q.Prime) (h : q ∣ 65535) : q ∈ [3, 5, 17, 257] := by
  have hprimes : ∀ p ∈ [3, 5, 17, 257], p.Prime := by norm_num
  obtain ⟨p, hp, hqp⟩ := (hq.prime.dvd_prod_iff (L := [3, 5, 17, 257])).1 h
  rwa [(Nat.prime_dvd_prime_iff_eq hq (hprimes p hp)).1 hqp]

/-- The period of the generator on state 1: 65535 shifts return to it, and no quotient of 65535 by a prime does. -/
theorem minimalPeriod_lfsrShift_one : Function.minimalPeriod lfsrShift 1 = 65535 := by
  have hjump : ∀ {n}, n < 2 ^ 16 → iterateColumns 16 (columnsOf lfsrShift) n 1 = lfsrShift^[n] 1 := fun hn =>
    iterateColumns_columnsOf 16 lfsrShift_xorLinear hn 1
  have hfull : iterateColumns 16 (columnsOf lfsrShift) 65535 1 = 1 := by decide +kernel
  have hparts : ∀ q ∈ [3, 5, 17, 257], iterateColumns 16 (columnsOf lfsrShift) (65535 / q) 1 ≠ 1 := by decide +kernel
  refine minimalPeriod_eq_of_forall_prime ((hjump (by decide)).symm.trans hfull) fun q hq hdvd hperiod => ?_
  have hlt : 65535 / q < 2 ^ 16 := lt_of_le_of_lt (Nat.div_le_self _ q) (by decide)
  exact hparts q (mem_of_prime_of_dvd_65535 hq hdvd) ((hjump hlt).trans hperiod)

/-- The 65535 states from 1 on are different and nonzero, so they are all the nonzero states. -/
theorem exists_lfsrShifts_one_eq {l : BitVec 16} (h : l ≠ 0) : ∃ k < 65535, lfsrShifts k 1 = l := by
  have hinj : Set.InjOn (fun k => (lfsrShifts k 1).toNat) (Finset.range 65535) := fun i hi j hj e =>
    Function.iterate_injOn_Iio_minimalPeriod (f := lfsrShift) (x := 1)
      (by rw [minimalPeriod_lfsrShift_one]; exact Finset.mem_range.1 hi)
      (by rw [minimalPeriod_lfsrShift_one]; exact Finset.mem_range.1 hj)
      (by simpa only [lfsrShifts_eq_iterate] using BitVec.eq_of_toNat_eq e)
  have hpos : ∀ m : BitVec 16, m ≠ 0 → m.toNat ∈ Finset.Ico 1 65536 := fun m hm =>
    Finset.mem_Ico.2 ⟨Nat.one_le_iff_ne_zero.2 fun e => hm (BitVec.eq_of_toNat_eq e), m.isLt⟩
  have hmaps : Set.MapsTo (fun k => (lfsrShifts k 1).toNat) (Finset.range 65535) (Finset.Ico 1 65536) := fun k _ =>
    hpos _ (lfsrShifts_ne_zero k (by decide))
  obtain ⟨k, hk, e⟩ := Finset.surjOn_of_injOn_of_card_le _ hmaps hinj (by simp) (hpos l h)
  exact ⟨k, Finset.mem_range.1 hk, BitVec.eq_of_toNat_eq e⟩

theorem lfsrShifts_period {l : BitVec 16} (h : l ≠ 0) : lfsrShifts 65535 l = l := by
  obtain ⟨k, -, rfl⟩ := exists_lfsrShifts_one_eq h
  have hone : lfsrShifts 65535 1 = 1 := by
    rw [lfsrShifts_eq_iterate, ← minimalPeriod_lfsrShift_one]
    exact Function.iterate_minimalPeriod
  rw [← lfsrShifts_add, Nat.add_comm, lfsrShifts_add, hone]

theorem exists_lfsrShifts_eq {l m : BitVec 16} (hl : l ≠ 0) (hm : m ≠ 0) : ∃ k < 65535, lfsrShifts k l = m := by
  obtain ⟨i, hi, rfl⟩ := exists_lfsrShifts_one_eq hl
  obtain ⟨j, hj, rfl⟩ := exists_lfsrShifts_one_eq hm
  by_cases hij : i ≤ j
  · exact ⟨j - i, by omega, by rw [← lfsrShifts_add, Nat.add_sub_cancel' hij]⟩
  · refine ⟨65535 + j - i, by omega, ?_⟩
    rw [← lfsrShifts_add, Nat.add_sub_cancel' (by omega), Nat.add_comm, lfsrShifts_add,
      lfsrShifts_period (lfsrShifts_ne_zero j (by decide))]

/-- Settles O45: the nonzero states are one orbit of length 65535, and any of its states leads to any other. -/
theorem generatorHasFullPeriod : Obligations.GeneratorHasFullPeriod :=
  ⟨fun _ => rfl, lfsrShift_zero, fun _ => lfsrShifts_period, fun _ _ => exists_lfsrShifts_eq, by decide +kernel⟩

end Sys2Proof.Machine
end

section
/-! What can change the noise generator (44_noise_gen.md R103): a draw, which the five datapath commands take only with a nonzero
effective noise volume, a HOST write to `LFSR`, and `Reset`. -/

namespace Sys2Proof.Machine

/-! ### The datapath with a zero effective noise volume -/

theorem nvEff_congr {s t : State} (hc : t.ctrl = s.ctrl) (hr : t.preset = s.preset) : nvEff t = nvEff s := by
  simp only [nvEff, hc, hr]

theorem chainLfsr_of_quiet {s : State} (h : feq (nvEff s) fZero = true) : chainLfsr s = s.lfsr := if_pos h

theorem wnoise_lfsr (x : F32) (s : State) : (wnoise x s).2.lfsr = chainLfsr s := by
  rw [wnoise_snd]
  rfl

theorem chainValue_lfsr (x : F32) (s : State) : (chainValue x s).2.lfsr = chainLfsr s := by
  obtain ⟨z, e⟩ := chainValue_snd x s
  rw [e]

@[simp] theorem slot_nvEff (s : State) : nvEff (slot s) = nvEff s := by
  obtain ⟨l, z, h, e, -⟩ := slot_shape s
  rw [e]
  rfl

theorem slot_lfsr_of_quiet {s : State} (h : feq (nvEff s) fZero = true) : (slot s).lfsr = s.lfsr := by
  obtain ⟨l, z, v, e, rfl | rfl⟩ := slot_shape s <;> rw [e]
  exact chainLfsr_of_quiet h

theorem runLoop_lfsr_of_quiet (n : Nat) {s : State} (h : feq (nvEff s) fZero = true) : (runLoop n s).lfsr = s.lfsr := by
  induction n generalizing s with
  | zero => rfl
  | succ n ih =>
    unfold runLoop
    split
    · rw [ih (by rwa [slot_nvEff]), slot_lfsr_of_quiet h]
    · rfl

/-! ### The bodies -/

theorem loadpBody_lfsr {id : Nat} {s t : State} (h : loadpBody id s = .ok t) : t.lfsr = s.lfsr := by
  rcases loadpBody_cases id s with ⟨-, e⟩ | ⟨r, -, -, e⟩ | ⟨-, -, e⟩ <;> cases e.symm.trans h <;> rfl

/-- `SETUP` touches neither the generator nor what its effective noise volume is read from. -/
theorem setupBody_lfsr {s t : State} (h : setupBody s = .ok t) : t.lfsr = s.lfsr ∧ nvEff t = nvEff s := by
  rcases setupBody_cases s with ⟨-, -, e⟩ | ⟨-, -, e⟩ | ⟨-, e⟩ <;> cases e.symm.trans h
  exact ⟨rfl, rfl⟩

theorem decodeBody_lfsr {s t : State} (h : decodeBody s = .ok t) : t.lfsr = s.lfsr ∧ nvEff t = nvEff s := by
  obtain ⟨-, rfl⟩ := decodeBody_eq_ok_iff.1 h
  obtain ⟨m, e⟩ := decodeUpTo_shape (nsmp s) s
  rw [e]
  exact ⟨rfl, rfl⟩

theorem encodeBody_lfsr {s t : State} (h : encodeBody s = .ok t) : t.lfsr = s.lfsr := by
  obtain ⟨-, rfl⟩ := encodeBody_eq_ok_iff.1 h
  obtain ⟨m, b, e⟩ := encodeUpTo_shape (nsmp s) s
  rw [e]

theorem runBody_lfsr_of_quiet {s t : State} (h : runBody s = .ok t) (hquiet : feq (nvEff s) fZero = true) :
    t.lfsr = s.lfsr := by
  obtain ⟨-, rfl⟩ := runBody_eq_ok_iff.1 h
  exact runLoop_lfsr_of_quiet _ hquiet

theorem processBody_lfsr_of_quiet {s t : State} (h : processBody s = .ok t) (hquiet : feq (nvEff s) fZero = true) :
    t.lfsr = s.lfsr := by
  rcases processBody_eq_ok_iff.1 h with ⟨-, rfl⟩ | ⟨-, s1, s2, s3, hs, hd, hr, he⟩
  · rfl
  · obtain ⟨hlfsr1, hnv1⟩ := setupBody_lfsr hs
    obtain ⟨hlfsr2, hnv2⟩ := decodeBody_lfsr hd
    rw [encodeBody_lfsr he, runBody_lfsr_of_quiet hr (by rwa [hnv2, hnv1]), hlfsr2, hlfsr1]

/-- The commands that R103 lets change the generator: `NDRAW`, and five more with a nonzero effective noise volume. -/
def CanDraw (i : Instr) (s : State) : Prop :=
  i = .ndraw ∨ (feq (nvEff s) 0x00000000 = false ∧ (i = .noise ∨ i = .chain ∨ i = .step ∨ i = .run ∨ i = .process))

/-- A datapath command that keeps the generator when the effective noise volume is zero can draw when it changes it. -/
theorem canDraw_of_datapath {i : Instr} {s t : State} (hne : t.lfsr ≠ s.lfsr)
    (hquiet : feq (nvEff s) fZero = true → t.lfsr = s.lfsr)
    (hi : i = .noise ∨ i = .chain ∨ i = .step ∨ i = .run ∨ i = .process) : CanDraw i s :=
  .inr ⟨Bool.eq_false_iff.2 fun h => hne (hquiet h), hi⟩

/-- A command's body that changes the generator is one that can draw (R103). -/
theorem canDraw_of_commandBody {i : Instr} {s t : State} (h : commandBody i s = .ok t) (hne : t.lfsr ≠ s.lfsr) :
    CanDraw i s := by
  cases i with
  | ndraw => exact .inl rfl
  | nop | clrerr | bqclr => cases h; exact absurd rfl hne
  | loadp id => exact absurd (loadpBody_lfsr h) hne
  | setup => exact absurd (setupBody_lfsr h).1 hne
  | decode => exact absurd (decodeBody_lfsr h).1 hne
  | encode => exact absurd (encodeBody_lfsr h) hne
  | lds idx | sts idx =>
    obtain ⟨-, ⟨⟩⟩ := requireIndex_eq_ok_iff.1 h
    exact absurd rfl hne
  | dist | bcr | gain =>
    obtain ⟨-, ⟨⟩⟩ := requireConfigured_eq_ok_iff.1 h
    exact absurd rfl hne
  | bq =>
    obtain ⟨-, ⟨⟩⟩ := requireConfigured_eq_ok_iff.1 h
    rw [biquad_snd] at hne
    exact absurd rfl hne
  | noise =>
    obtain ⟨-, ⟨⟩⟩ := requireConfigured_eq_ok_iff.1 h
    exact canDraw_of_datapath hne (fun hq => (wnoise_lfsr _ s).trans (chainLfsr_of_quiet hq)) (by simp)
  | chain =>
    obtain ⟨-, ⟨⟩⟩ := requireConfigured_eq_ok_iff.1 h
    exact canDraw_of_datapath hne (fun hq => (chainValue_lfsr _ s).trans (chainLfsr_of_quiet hq)) (by simp)
  | step =>
    obtain ⟨-, hslot⟩ := requireConfigured_eq_ok_iff.1 h
    split at hslot
    · cases hslot
      exact canDraw_of_datapath hne slot_lfsr_of_quiet (by simp)
    · cases hslot
  | run => exact canDraw_of_datapath hne (runBody_lfsr_of_quiet h) (by simp)
  | process => exact canDraw_of_datapath hne (processBody_lfsr_of_quiet h) (by simp)

/-! ### The HOST's events -/

/-- A word written to `CMD` that changes the generator is the word of a command that can draw: `raise` keeps it. -/
theorem canDraw_of_wordBody {cw : Word} {s : State} (hne : (finish s (wordBody cw s)).lfsr ≠ s.lfsr) :
    ∃ i, decode cw = .ok i ∧ CanDraw i s := by
  unfold wordBody at hne
  split at hne
  next i hd =>
    rcases hb : commandBody i s with c | t
    · rw [hb] at hne
      exact absurd rfl hne
    · rw [hb] at hne
      exact ⟨i, hd, canDraw_of_commandBody hb hne⟩
  next => exact absurd rfl hne

theorem writeReg_lfsr {r : Reg} (hr : r ≠ .lfsr) (v : Word) (s : State) : (writeReg r v s).lfsr = s.lfsr := by
  cases r
  case lfsr => exact absurd rfl hr
  all_goals rfl

/-- A HOST write that changes the generator is one to `LFSR`, or issues a command that can draw. -/
theorem hostWrite_lfsr_ne {addr v : Word} {size : AccessSize} {s t : State} (h : hostWrite addr size v s = .next t)
    (hne : t.lfsr ≠ s.lfsr) :
    (addr = 0x00000028 ∧ size = .four) ∨ (addr = 0x00000000 ∧ size = .four ∧ ∃ i, decode v = .ok i ∧ CanDraw i s) := by
  rcases hb : busTarget s.par addr size with _ | r | a | a
  · cases (hostWrite_refused hb v).symm.trans h
    exact absurd rfl hne
  · obtain ⟨rfl, rfl⟩ := busTarget_eq_reg hb
    by_cases hcmd : r = .cmd
    · subst hcmd
      cases (hostWrite_cmd hb v).symm.trans h
      exact .inr ⟨rfl, rfl, canDraw_of_wordBody hne⟩
    · cases (hostWrite_reg hcmd hb v).symm.trans h
      obtain rfl : r = .lfsr := by
        by_contra hr
        exact hne (writeReg_lfsr hr v s)
      exact .inl ⟨rfl, rfl⟩
  · cases (hostWrite_pcm hb v).symm.trans h
    exact absurd rfl hne
  · cases (hostWrite_smp hb v).symm.trans h
    exact absurd rfl hne

theorem hostRead_lfsr (addr : Word) (size : AccessSize) (s : State) : (hostRead addr size s).lfsr = s.lfsr := by
  unfold hostRead
  split <;> rfl

/-- Settles O43: an idle step and a read change no generator, and a write only as `hostWrite_lfsr_ne` says. -/
theorem onlyDrawsAndHostWritesChangeTheGenerator : Obligations.OnlyDrawsAndHostWritesChangeTheGenerator := by
  intro s t hstep hne
  cases hin : s.inbox with
  | nil =>
    cases (step_idle hin).symm.trans hstep
    exact absurd rfl hne
  | cons e rest =>
    rw [step_event hin] at hstep
    refine ⟨e, rest, rfl, ?_⟩
    cases e with
    | reset => exact .inl rfl
    | read addr size =>
      cases hstep
      exact absurd (hostRead_lfsr addr size _) hne
    | write addr size v =>
      rcases hostWrite_lfsr_ne hstep hne with ⟨rfl, rfl⟩ | ⟨rfl, rfl, i, hd, hdraw⟩
      · exact .inr (.inl ⟨v, rfl⟩)
      · exact .inr (.inr ⟨v, i, rfl, hd, hdraw⟩)

end Sys2Proof.Machine
end

section
/-! The arguments of `PROCESS` (44_noise_gen.md R109): two states that agree in the configuration, the PCM buffer and, unless the
effective noise volume is zero, the generator stay in step through `SETUP`, `DECODE`, `RUN` and `ENCODE`. -/

namespace Sys2Proof.Machine

/-! ### The datapath as a function of what it reads -/

/-- The two states agree in all that the units of the chain read: the controls, the preset, the derived state, the filter state
and, where a draw would be taken, the generator. -/
structure SameDatapath (s u : State) : Prop where
  ctrl : u.ctrl = s.ctrl
  preset : u.preset = s.preset
  drv : u.drv = s.drv
  filt : u.filt = s.filt
  generator : feq (nvEff s) fZero = true ∨ u.lfsr = s.lfsr

theorem SameDatapath.nvEff {s u : State} (h : SameDatapath s u) : nvEff u = nvEff s := nvEff_congr h.ctrl h.preset

/-- One draw, or none, leaves the generators as far in agreement as they were. -/
theorem SameDatapath.with_chainLfsr {s u : State} (h : SameDatapath s u) :
    SameDatapath { s with lfsr := chainLfsr s } { u with lfsr := chainLfsr u } :=
  { h with
    generator := h.generator.imp id fun hl => by simp only [chainLfsr, h.nvEff, hl] }

theorem wnoise_same {s u : State} (h : SameDatapath s u) (x : F32) :
    (wnoise x u).1 = (wnoise x s).1 ∧ SameDatapath (wnoise x s).2 (wnoise x u).2 := by
  refine ⟨?_, ?_⟩
  · cases hq : feq (nvEff s) fZero with
    | true => rw [wnoise_of_quiet hq, wnoise_of_quiet (by rwa [h.nvEff])]
    | false =>
      have hl : u.lfsr = s.lfsr := h.generator.resolve_left (by simp [hq])
      rw [wnoise_of_loud hq, wnoise_of_loud (by rwa [h.nvEff]), h.nvEff, hl]
      simp only [gv, h.ctrl]
  · rw [wnoise_snd, wnoise_snd]
    exact h.with_chainLfsr

theorem biquad_same {s u : State} (h : SameDatapath s u) (x : F32) :
    (biquad x u).1 = (biquad x s).1 ∧ SameDatapath (biquad x s).2 (biquad x u).2 := by
  constructor
  · unfold biquad
    rw [h.preset, h.drv, h.filt]
    split <;> rfl
  · rw [biquad_snd, biquad_snd]
    exact { h with filt := by simp only [h.preset, h.drv, h.filt] }

theorem noiseAndCrush_same {s u : State} (h : SameDatapath s u) (x : F32) :
    (noiseAndCrush x u).1 = (noiseAndCrush x s).1 ∧ SameDatapath (noiseAndCrush x s).2 (noiseAndCrush x u).2 := by
  have hcrush : bitcrush u = bitcrush s := by
    funext y
    simp only [bitcrush, h.preset]
  unfold noiseAndCrush
  rw [h.preset, hcrush]
  split
  · exact wnoise_same h _
  · obtain ⟨hval, hstate⟩ := wnoise_same h x
    exact ⟨congrArg (bitcrush s) hval, hstate⟩

theorem chainValue_same {s u : State} (h : SameDatapath s u) (x : F32) :
    (chainValue x u).1 = (chainValue x s).1 ∧ SameDatapath (chainValue x s).2 (chainValue x u).2 := by
  obtain ⟨hnoise, hcrushed⟩ := noiseAndCrush_same h x
  have hdist : distort (noiseAndCrush x u).2 (noiseAndCrush x u).1 = distort (noiseAndCrush x s).2 (noiseAndCrush x s).1 := by
    simp only [distort, hcrushed.drv, hcrushed.preset, hnoise]
  obtain ⟨hfilter, hfiltered⟩ := biquad_same hcrushed (distort (noiseAndCrush x s).2 (noiseAndCrush x s).1)
  simp only [chainValue, hdist]
  exact ⟨by rw [hfilter, hfiltered.preset], hfiltered⟩

/-! ### The sequencer -/

/-- The two states agree in all that the rest of a `RUN` reads: the datapath, the position, and the samples of the array. -/
structure SameRun (s u : State) : Prop extends SameDatapath s u where
  len : u.len = s.len
  seq : u.seq = s.seq
  words : ∀ j < nsmp s, smpWord u j = smpWord s j

theorem SameRun.nsmp {s u : State} (h : SameRun s u) : nsmp u = nsmp s := nsmp_congr h.ctrl h.len

theorem takeBlock_same {s u : State} (h : SameRun s u) (hi : s.seq.idx.toNat < nsmp s) :
    SameDatapath (takeBlock s) (takeBlock u) ∧ (takeBlock u).seq = (takeBlock s).seq := by
  unfold takeBlock
  rw [h.seq, h.words _ hi]
  split
  · obtain ⟨hval, hstate⟩ := chainValue_same h.toSameDatapath (smpWord s s.seq.idx.toNat)
    obtain ⟨zs, es⟩ := chainValue_snd (smpWord s s.seq.idx.toNat) s
    obtain ⟨zu, eu⟩ := chainValue_snd (smpWord s s.seq.idx.toNat) u
    refine ⟨{ hstate with }, ?_⟩
    simp only [hval, es, eu, h.seq]
  · exact ⟨h.toSameDatapath, h.seq⟩

/-- A slot keeps the agreement: it writes the same word at the same place. -/
theorem slot_same {s u : State} (h : SameRun s u) (hi : s.seq.idx.toNat < nsmp s) : SameRun (slot s) (slot u) := by
  obtain ⟨htake, hseq⟩ := takeBlock_same h hi
  have hslot : (slot u).seq = (slot s).seq := by simp only [slot, holdSlot_seq, hseq, htake.drv]
  have hlen : ∀ v : State, (slot v).len = v.len := fun v => by
    obtain ⟨l, z, w, e, -⟩ := slot_shape v
    rw [e]
  refine { htake with len := by rw [hlen, hlen, h.len], seq := hslot, words := fun j hj => ?_ }
  by_cases hj' : j = s.seq.idx.toNat
  · have hword := slot_word u
    rw [h.seq, hslot, ← slot_word s] at hword
    rw [hj', hword]
  · rw [slot_word_other s hj', slot_word_other u (by rwa [h.seq])]
    exact h.words j (by rwa [slot_nsmp] at hj)

theorem runLoop_same (n : Nat) {s u : State} (h : SameRun s u) : SameRun (runLoop n s) (runLoop n u) := by
  induction n generalizing s u with
  | zero => exact h
  | succ n ih =>
    unfold runLoop
    rw [h.seq, h.nsmp]
    split
    next hi => exact ih (slot_same h hi)
    next => exact h

/-! ### `ENCODE` and `DECODE` -/

/-- With a good length every byte of the buffer belongs to a sample of the array (R31). -/
theorem div_bps_lt_nsmp {s : State} (h : lenOk s = true) {a : Nat} (ha : a < s.len.toNat) : a / bps s < nsmp s := by
  rw [Nat.div_lt_iff_lt_mul (bps_pos s), nsmp_mul_bps h]
  exact ha

/-- `ENCODE` writes the same bytes from the same samples (R74). -/
theorem pcmByte_encodeUpTo_same {s u : State} (h : SameRun s u) {a : Nat} (ha : a / bps s < nsmp s) :
    pcmByte (encodeUpTo (nsmp u) u) a = pcmByte (encodeUpTo (nsmp s) s) a := by
  have hbps : bps u = bps s := by simp only [bps, h.ctrl]
  rw [pcmByte_encodeUpTo, pcmByte_encodeUpTo, hbps, h.nsmp, if_pos ha, if_pos ha, h.ctrl, h.words _ ha]

/-- The decoded sample depends on the container width and the sample's own bytes (R71). -/
theorem dec_congr {s u : State} {i : Nat} (hctrl : u.ctrl = s.ctrl)
    (hpcm : ∀ k < bps s, pcmByte u (i * bps s + k) = pcmByte s (i * bps s + k)) : dec u i = dec s i := by
  cases hw : s.ctrl.width with
  | false =>
    have hbyte := hpcm 0 (bps_pos s)
    simp only [bps, hw, Bool.false_eq_true, if_false, Nat.mul_one, Nat.add_zero] at hbyte
    simp [dec, pcmInt, hctrl, hw, hbyte]
  | true =>
    simp only [bps, hw, if_true, Nat.mul_comm i 2] at hpcm
    have hlow := hpcm 0 (by decide)
    have hhigh := hpcm 1 (by decide)
    simp only [Nat.add_zero] at hlow
    simp [dec, pcmInt, hctrl, hw, hlow, hhigh]

/-! ### The whole call -/

/-- The state in which `PROCESS` starts to decode: the one `SETUP` leaves (R85, R127). -/
def callStart (s : State) : State :=
  { s with drv := derive s, filt := freshFilter, seq := freshSequencer, status := { s.status with cfgValid := true } }

/-- The state in which `PROCESS` starts to encode: the samples decoded and run through the chain (R127). -/
def callSamples (s : State) : State := runLoop (nsmp s) (decodeUpTo (nsmp s) (callStart s))

/-- Neither `DECODE` nor `RUN` touches what `ENCODE` reads, but for the sample words. -/
theorem callSamples_shape (s : State) :
    ∃ l z q m, callSamples s = { callStart s with lfsr := l, filt := z, seq := q, smp := m } := by
  obtain ⟨m, e⟩ := decodeUpTo_shape (nsmp s) (callStart s)
  obtain ⟨l, z, q, m', e'⟩ := runLoop_shape (nsmp s) (decodeUpTo (nsmp s) (callStart s))
  exact ⟨l, z, q, m', by rw [callSamples, e', e]⟩

theorem callSamples_len (s : State) : (callSamples s).len = s.len := by
  obtain ⟨l, z, q, m, e⟩ := callSamples_shape s
  rw [e]
  rfl

theorem callSamples_lenOk (s : State) : lenOk (callSamples s) = lenOk s := by
  obtain ⟨l, z, q, m, e⟩ := callSamples_shape s
  rw [e]
  rfl

/-- With `EN` set and a valid configuration `PROCESS` completes: each part leaves the next one's checks satisfied (R127). -/
theorem processBody_of_valid {s : State} (hen : s.ctrl.en = true) (hlen : lenOk s = true) (hcfg : cfgOk s = true) :
    processBody s = .ok (encodeUpTo (nsmp (callSamples s)) (callSamples s)) := by
  have hsetup : setupBody s = .ok (callStart s) := by simp only [setupBody, hlen, hcfg, if_true, callStart]
  have hdecode : decodeBody (callStart s) = .ok (decodeUpTo (nsmp s) (callStart s)) :=
    decodeBody_eq_ok_iff.2 ⟨hlen, rfl⟩
  have hrun : runBody (decodeUpTo (nsmp s) (callStart s)) = .ok (callSamples s) := by
    obtain ⟨m, e⟩ := decodeUpTo_shape (nsmp s) (callStart s)
    rw [runBody_eq_ok_iff, callSamples, e]
    exact ⟨rfl, rfl⟩
  have hencode : encodeBody (callSamples s) = .ok (encodeUpTo (nsmp (callSamples s)) (callSamples s)) :=
    encodeBody_eq_ok_iff.2 ⟨(callSamples_lenOk s).trans hlen, rfl⟩
  exact processBody_eq_ok_iff.2 (.inr ⟨hen, _, _, _, hsetup, hdecode, hrun, hencode⟩)

/-- The two states agree in the arguments of `PROCESS` (R109): the parameters, the HOST's registers, the PCM buffer and, where a
draw would be taken, the generator. -/
structure SameArguments (s u : State) : Prop where
  par : u.par = s.par
  ctrl : u.ctrl = s.ctrl
  len : u.len = s.len
  preset : u.preset = s.preset
  pcm : ∀ a < s.len.toNat, pcmByte u a = pcmByte s a
  generator : feq (nvEff s) fZero = true ∨ u.lfsr = s.lfsr

/-- After `DECODE` the two calls agree in all that `RUN` reads. -/
theorem SameArguments.decoded {s u : State} (h : SameArguments s u) (hlen : lenOk s = true) :
    SameRun (decodeUpTo (nsmp s) (callStart s)) (decodeUpTo (nsmp s) (callStart u)) := by
  have hdec : ∀ j < nsmp s, dec u j = dec s j := fun j hj => dec_congr h.ctrl fun k hk => h.pcm _ <|
    calc j * bps s + k < (j + 1) * bps s := by rw [Nat.succ_mul]; exact Nat.add_lt_add_left hk _
      _ ≤ nsmp s * bps s := Nat.mul_le_mul_right _ hj
      _ = s.len.toNat := nsmp_mul_bps hlen
  have hwords : ∀ j < nsmp s,
      smpWord (decodeUpTo (nsmp s) (callStart u)) j = smpWord (decodeUpTo (nsmp s) (callStart s)) j := fun j hj => by
    rw [decodeUpTo_word, decodeUpTo_word, if_pos hj, if_pos hj]
    exact hdec j hj
  have hdrv : derive u = derive s := derive_congr h.ctrl h.preset h.par
  obtain ⟨ms, es⟩ := decodeUpTo_shape (nsmp s) (callStart s)
  obtain ⟨mu, eu⟩ := decodeUpTo_shape (nsmp s) (callStart u)
  rw [es, eu] at hwords ⊢
  exact { h with drv := hdrv, filt := rfl, seq := rfl, words := hwords }

theorem SameArguments.samples {s u : State} (h : SameArguments s u) (hlen : lenOk s = true) :
    SameRun (callSamples s) (callSamples u) := by
  have hrun := runLoop_same (nsmp s) (h.decoded hlen)
  rwa [callSamples, callSamples, nsmp_congr h.ctrl h.len]

/-- Settles O42: the two calls encode the same samples, and with a zero effective noise volume neither takes a draw. -/
theorem processDependsOnlyOnItsArguments : Obligations.ProcessDependsOnlyOnItsArguments := by
  intro s u hen hlen hcfg hpar hctrl hl hpreset hpcm hgen
  have hs := processBody_of_valid hen hlen hcfg
  have hu := processBody_of_valid (s := u) (hctrl ▸ hen) ((lenOk_congr hctrl hl hpar).trans hlen)
    ((cfgOk_congr hctrl hpreset hpar).trans hcfg)
  refine ⟨_, _, exec_of_commandBody_ok (i := .process) hs, exec_of_commandBody_ok (i := .process) hu,
    fun a ha => ?buffer, fun hquiet => ⟨?first, ?second⟩⟩
  case buffer =>
    have hsame : SameRun (callSamples s) (callSamples u) :=
      SameArguments.samples ⟨hpar, hctrl, hl, hpreset, hpcm, hgen⟩ hlen
    have hin := div_bps_lt_nsmp ((callSamples_lenOk s).trans hlen) (by rwa [callSamples_len])
    rw [pcmByte_done, pcmByte_done, pcmByte_encodeUpTo_same hsame hin]
  case first => rw [done_lfsr, processBody_lfsr_of_quiet hs hquiet]
  case second => rw [done_lfsr, processBody_lfsr_of_quiet hu (by rwa [nvEff_congr hctrl hpreset])]

end Sys2Proof.Machine
end

section
/-! The biquad filter (45_biquad_filter.md R110 to R119): how `BQCLR` and `BQ` end, and the worked coefficients. -/

namespace Sys2Proof.Machine

/-! ### `BQCLR` (R116) -/

theorem exec_bqclr (s : State) : exec .bqclr s = .next (done { s with filt := freshFilter }) := exec_of_commandBody_ok rfl

/-- Settles O29: no check comes before the fresh filter state. -/
theorem bqclrZeroesTheFilterState : Obligations.BqclrZeroesTheFilterState :=
  ⟨encodedCommandDecodesToItself .bqclr rfl, exec_bqclr⟩

/-! ### `BQ` (R114, R115, R117) -/

/-- The type none bypasses the filter, bit for bit and without a step of its state (R115). -/
theorem biquad_of_none {s : State} (h : s.preset.ftype = 0) (x : F32) : biquad x s = (x, s) := if_pos h

theorem biquad_of_active {s : State} (h : s.preset.ftype ≠ 0) (x : F32) : biquad x s =
    ((biquadStep s.drv.coef s.filt x).1, { s with filt := (biquadStep s.drv.coef s.filt x).2 }) :=
  if_neg h

theorem exec_bq {s : State} (h : s.status.cfgValid = true) :
    exec .bq s = .next (done { (biquad s.acc s).2 with acc := (biquad s.acc s).1 }) :=
  exec_of_configured (i := .bq) rfl h

/-- Settles O30: the check of `CFG_VALID` either lets the filter through, whose two cases are those of its type, or raises. -/
theorem bqStepsTheFilterOnce : Obligations.BqStepsTheFilterOnce := by
  refine ⟨encodedCommandDecodesToItself .bq rfl, fun s hv hnone => ?bypass, fun s y hv hactive hy => ?recurrence,
    fun s hv => exec_of_notConfigured (i := .bq) rfl hv⟩
  case bypass =>
    rw [exec_bq hv, biquad_of_none hnone]
    rfl
  case recurrence =>
    rw [exec_bq hv, biquad_of_active hactive, hy]
    rfl

/-! ### The worked coefficients (R110 to R112, R119) -/

/-- The quantities of R110 and the feedback coefficients of R111, which the four types share: `k/Q`, `k*k`, `bn`, `B1`, `B2`. -/
structure SharedQuantities (k q kq kk bn b1 b2 : F32) : Prop where
  kq_eq : fdiv k q = kq
  kk_eq : fmul k k = kk
  bn_eq : fdiv fOne (fadd (fadd fOne kq) kk) = bn
  b1_eq : fmul (fmul fTwo (fsub kk fOne)) bn = b1
  b2_eq : fmul (fadd (fsub fOne kq) kk) bn = b2

namespace SharedQuantities

section
variable {k q kq kk bn b1 b2 : F32} (h : SharedQuantities k q kq kk bn b1 b2)
include h

theorem lowpass : coefsOf 1 k q = ⟨fmul kk bn, fmul fTwo (fmul kk bn), fmul kk bn, b1, b2⟩ := by
  obtain ⟨rfl, rfl, rfl, rfl, rfl⟩ := h
  rfl

theorem highpass : coefsOf 2 k q = ⟨bn, fmul fNegTwo bn, bn, b1, b2⟩ := by
  obtain ⟨rfl, rfl, rfl, rfl, rfl⟩ := h
  rfl

theorem bandpass : coefsOf 3 k q = ⟨fmul kq bn, fZero, fneg (fmul kq bn), b1, b2⟩ := by
  obtain ⟨rfl, rfl, rfl, rfl, rfl⟩ := h
  rfl

theorem notch : coefsOf 4 k q = ⟨fmul (fadd fOne kk) bn, b1, fmul (fadd fOne kk) bn, b1, b2⟩ := by
  obtain ⟨rfl, rfl, rfl, rfl, rfl⟩ := h
  rfl

end

/-- R119, frequency 0.25 and `Q` 0.5, with its `bn`. -/
theorem of_freq_quarter_q_half :
    SharedQuantities 0x3F800000 0x3F000000 0x40000000 0x3F800000 0x3E800000 0x00000000 0x00000000 := by
  constructor <;> decide +kernel

/-- R119, frequency 0.25 and `Q` 1.0, with its `bn`. -/
theorem of_freq_quarter_q_one :
    SharedQuantities 0x3F800000 0x3F800000 0x3F800000 0x3F800000 0x3EAAAAAB 0x00000000 0x3EAAAAAB := by
  constructor <;> decide +kernel

/-- R119, frequency 0.1 and its `Q` of 0.70710677, with its `bn`. -/
theorem of_freq_tenth :
    SharedQuantities 0x3EA65BE0 0x3F3504F3 0x3EEB445A 0x3DD8368F 0x3F2391EF 0xBF924D2F 0x3ED35ABB := by
  constructor <;> decide +kernel

end SharedQuantities

/-- Settles O31: for each worked `k` and `Q` the shared quantities are evaluated once, and each type's own coefficients from
them. -/
theorem workedBiquadCoefficients : Obligations.WorkedBiquadCoefficients := by
  have half := SharedQuantities.of_freq_quarter_q_half
  have one := SharedQuantities.of_freq_quarter_q_one
  have tenth := SharedQuantities.of_freq_tenth
  refine ⟨half.lowpass.trans ?_, half.highpass.trans ?_, half.bandpass.trans ?_, half.notch.trans ?_,
    one.lowpass.trans ?_, one.highpass.trans ?_, one.bandpass.trans ?_, one.notch.trans ?_,
    tenth.lowpass.trans ?_, tenth.bandpass.trans ?_, ?_, ?_⟩
  all_goals decide +kernel

end Sys2Proof.Machine
end

section
/-! Command sequences, and `GAIN` and `CHAIN` on `ACC` (46_decimator_pipeline.md R120 to R122). -/

namespace Sys2Proof.Machine

/-! ### `GAIN` (R120) -/

theorem exec_gain {s : State} (h : s.status.cfgValid = true) :
    exec .gain s = .next (done { s with acc := fmul s.acc s.preset.gain }) :=
  exec_of_configured (i := .gain) rfl h

/-- Settles O32: the check of `CFG_VALID` either lets the product through or raises. -/
theorem gainMultipliesAcc : Obligations.GainMultipliesAcc :=
  ⟨encodedCommandDecodesToItself .gain rfl, fun _ hv => exec_gain hv,
    fun _ hv => exec_of_notConfigured (i := .gain) rfl hv⟩

/-! ### Sequences of commands -/

@[simp] theorem runCommands_nil (s : State) : runCommands [] s = some s := rfl

theorem runCommands_cons {i : Instr} {s t : State} (h : exec i s = .next t) (is : List Instr) :
    runCommands (i :: is) s = runCommands is t := by
  rw [runCommands, h]
  rfl

/-! ### One unit after another on `ACC` (R120 to R122) -/

/-- How a unit command ends: its value in `ACC`, in the state it leaves (R163). -/
def unitDone (x : F32) (s : State) : State := done { s with acc := x }

section
variable (x : F32) {s : State} (h : s.status.cfgValid = true)
include h

/-- The unit commands after a unit command: each takes the value the one before left, in the state that one left. -/
theorem exec_noise_unitDone : exec .noise (unitDone x s) = .next (unitDone (wnoise x s).1 (wnoise x s).2) := by
  rw [exec_noise (s := unitDone x s) h]
  rcases wnoise_cases x s with ⟨hq, e⟩ | ⟨hq, e⟩
  · rw [e, wnoise_of_quiet (s := unitDone x s) hq]
    rfl
  · rw [e, wnoise_of_loud (s := unitDone x s) hq]
    rfl

theorem exec_bcr_unitDone : exec .bcr (unitDone x s) = .next (unitDone (bitcrush s x) s) :=
  exec_bcr (s := unitDone x s) h

theorem exec_dist_unitDone : exec .dist (unitDone x s) = .next (unitDone (distort s x) s) :=
  exec_dist (s := unitDone x s) h

theorem exec_bq_unitDone : exec .bq (unitDone x s) = .next (unitDone (biquad x s).1 (biquad x s).2) := by
  rw [exec_bq (s := unitDone x s) h]
  rcases biquad_cases x s with ⟨hf, e⟩ | ⟨hf, e⟩
  · rw [e, biquad_of_none (s := unitDone x s) hf]
    rfl
  · rw [e, biquad_of_active (s := unitDone x s) hf]
    rfl

theorem exec_gain_unitDone : exec .gain (unitDone x s) = .next (unitDone (fmul x s.preset.gain) s) :=
  exec_gain (s := unitDone x s) h

/-- The units that both orders of the chain end with. -/
theorem runCommands_dist_bq_gain : runCommands [.dist, .bq, .gain] (unitDone x s) = some (unitDone
    (fmul (biquad (distort s x) s).1 (biquad (distort s x) s).2.preset.gain) (biquad (distort s x) s).2) := by
  have hfiltered : (biquad (distort s x) s).2.status.cfgValid = true := by rw [biquad_status, h]
  rw [runCommands_cons (exec_dist_unitDone x h), runCommands_cons (exec_bq_unitDone _ h),
    runCommands_cons (exec_gain_unitDone _ hfiltered), runCommands_nil]

end

/-! ### `CHAIN` (R121, R122) -/

/-- The state that `CHAIN` leaves. -/
def chainDone (s : State) : State := unitDone (chainValue s.acc s).1 (chainValue s.acc s).2

theorem exec_chain {s : State} (h : s.status.cfgValid = true) : exec .chain s = .next (chainDone s) :=
  exec_of_configured (i := .chain) rfl h

/-- `CHAIN` changes nothing but `ACC`, the generator, the filter state and the result. -/
theorem chainDone_shape (s : State) : chainDone s =
    { s with
      acc := (chainDone s).acc
      lfsr := (chainDone s).lfsr
      filt := (chainDone s).filt
      status := { s.status with result := .ok } } := by
  obtain ⟨z, e⟩ := chainValue_snd s.acc s
  rw [chainDone, e]
  rfl

theorem runCommands_noiseFirst {s : State} (hv : s.status.cfgValid = true) (horder : s.preset.nafter = false) :
    runCommands [.noise, .bcr, .dist, .bq, .gain] s = some (chainDone s) := by
  have hnoise : exec .noise s = .next (unitDone (wnoise s.acc s).1 (wnoise s.acc s).2) := exec_noise hv
  have hv' : (wnoise s.acc s).2.status.cfgValid = true := by rw [wnoise_status, hv]
  have hcrush : bitcrush (wnoise s.acc s).2 = bitcrush s := by
    rw [wnoise_snd]
    rfl
  have hpair : noiseAndCrush s.acc s = (bitcrush s (wnoise s.acc s).1, (wnoise s.acc s).2) :=
    if_neg (Bool.eq_false_iff.1 horder)
  rw [runCommands_cons hnoise, runCommands_cons (exec_bcr_unitDone _ hv'), hcrush, runCommands_dist_bq_gain _ hv',
    chainDone, chainValue, hpair]

theorem runCommands_crushFirst {s : State} (hv : s.status.cfgValid = true) (horder : s.preset.nafter = true) :
    runCommands [.bcr, .noise, .dist, .bq, .gain] s = some (chainDone s) := by
  have hcrush : exec .bcr s = .next (unitDone (bitcrush s s.acc) s) := exec_bcr hv
  have hv' : (wnoise (bitcrush s s.acc) s).2.status.cfgValid = true := by rw [wnoise_status, hv]
  have hpair : noiseAndCrush s.acc s = wnoise (bitcrush s s.acc) s := if_pos horder
  rw [runCommands_cons hcrush, runCommands_cons (exec_noise_unitDone _ hv), runCommands_dist_bq_gain _ hv', chainDone,
    chainValue, hpair]

/-- Settles O33: each order of the units ends as `chainValue`, the value and state of `CHAIN`, does. -/
theorem chainIsTheSequenceOfUnitCommands : Obligations.ChainIsTheSequenceOfUnitCommands :=
  ⟨encodedCommandDecodesToItself .chain rfl,
    fun s hv horder => ⟨_, exec_chain hv, runCommands_noiseFirst hv horder, chainDone_shape s⟩,
    fun s hv horder => ⟨_, exec_chain hv, runCommands_crushFirst hv horder, chainDone_shape s⟩,
    fun _ hv => exec_of_notConfigured (i := .chain) rfl hv⟩

end Sys2Proof.Machine
end

section
/-! One slot of the sequencer and `STEP` (46_decimator_pipeline.md R124, R125). -/

namespace Sys2Proof.Machine

/-! ### One slot (R124) -/

/-- At a block start the slot runs the chain once on its word and holds the value. -/
theorem slot_of_blockStart {s : State} (h : s.seq.ph = 0) :
    slot s = holdSlot { (chainValue (smpWord s s.seq.idx.toNat) s).2 with
      seq := { s.seq with hold := (chainValue (smpWord s s.seq.idx.toNat) s).1 } } := by
  obtain ⟨z, e⟩ := chainValue_snd (smpWord s s.seq.idx.toNat) s
  simp only [slot, takeBlock, if_pos h, e]

/-- Inside a block the slot keeps the held value. -/
theorem slot_of_insideBlock {s : State} (h : s.seq.ph ≠ 0) : slot s = holdSlot s := by
  rw [slot, takeBlock, if_neg h]

/-- The sample memory holds nothing but its words, by byte address. -/
theorem smpByte_of_smpWord_div {s t : State} {a : Nat} (h : smpWord t (a / 4) = smpWord s (a / 4)) :
    smpByte t a = smpByte s a := by
  have hbyte := smpByte_of_smpWord (Nat.mod_lt a (by decide)) h
  rwa [Nat.div_add_mod] at hbyte

theorem smpByte_slot_outside (s : State) {a : Nat} (ha : a < 4 * s.seq.idx.toNat ∨ 4 * s.seq.idx.toNat + 4 ≤ a) :
    smpByte (slot s) a = smpByte s a :=
  smpByte_of_smpWord_div (slot_word_other s (by omega))

theorem nextPhase_zero (blk : BitVec 3) : nextPhase 0 blk = if blk.toNat = 1 then 0 else 1 := by
  unfold nextPhase
  exact if_congr eq_comm rfl rfl

/-! ### `STEP` (R125) -/

theorem exec_step {s : State} (hv : s.status.cfgValid = true) (hi : s.seq.idx.toNat < nsmp s) :
    exec .step s = .next (done (slot s)) :=
  (exec_of_configured (i := .step) rfl hv).trans (by rw [if_pos hi, finish_ok])

theorem exec_step_pastEnd {s : State} (hv : s.status.cfgValid = true) (hi : nsmp s ≤ s.seq.idx.toNat) :
    exec .step s = .next (raise .indexOutOfRange s) :=
  (exec_of_configured (i := .step) rfl hv).trans (by rw [if_neg (Nat.not_lt.2 hi), finish_error])

/-- Settles O34: the slot's two cases are those of `PH`; its word and the other bytes are known for both. -/
theorem stepAdvancesTheSequencerBySlot : Obligations.StepAdvancesTheSequencerBySlot := by
  refine ⟨encodedCommandDecodesToItself .step rfl, fun s r hv hi hph hr => ?blockStart, fun s hv hi hph => ?insideBlock,
    fun s hv => exec_of_notConfigured (i := .step) rfl hv, fun s hv hi => exec_step_pastEnd hv hi⟩
  case blockStart =>
    have hslot := slot_of_blockStart hph
    have hword := slot_word s
    obtain ⟨z, hz⟩ := chainValue_snd (smpWord s s.seq.idx.toNat) s
    subst hr
    refine ⟨_, exec_step hv hi, ?_, ?_, fun a ha => smpByte_slot_outside s ha⟩
    · rw [hslot, hz, ← nextPhase_zero, ← hph]
      rfl
    · rw [smpWord_done, hword, hslot]
      rfl
  case insideBlock =>
    have hslot := slot_of_insideBlock hph
    have hword := slot_word s
    refine ⟨_, exec_step hv hi, ?_, ?_, fun a ha => smpByte_slot_outside s ha⟩
    · rw [hslot]
      rfl
    · rw [smpWord_done, hword, hslot]
      rfl

end Sys2Proof.Machine
end

section
/-! The walk of `RUN` over the array (46_decimator_pipeline.md R126): where it ends, what it keeps along the way, and that it is
so many `STEP`s. -/

namespace Sys2Proof.Machine

/-- What every slot inside the array keeps, `RUN`'s loop keeps. -/
theorem runLoop_keeps {P : State → Prop} (hslot : ∀ s, P s → s.seq.idx.toNat < nsmp s → P (slot s)) (n : Nat) {s : State}
    (h : P s) : P (runLoop n s) := by
  induction n generalizing s with
  | zero => exact h
  | succ n ih =>
    unfold runLoop
    split
    next hi => exact ih (hslot s h hi)
    next => exact h

@[simp] theorem runLoop_nsmp (n : Nat) (s : State) : nsmp (runLoop n s) = nsmp s := by
  obtain ⟨l, z, q, m, e⟩ := runLoop_shape n s
  rw [e]
  rfl

@[simp] theorem runLoop_drv (n : Nat) (s : State) : (runLoop n s).drv = s.drv := by
  obtain ⟨l, z, q, m, e⟩ := runLoop_shape n s
  rw [e]

/-- As long as the array lasts, every iteration advances `IDX` by one. -/
theorem runLoop_idx (n : Nat) {s : State} (h : s.seq.idx.toNat + n ≤ nsmp s) :
    (runLoop n s).seq.idx.toNat = s.seq.idx.toNat + n := by
  induction n generalizing s with
  | zero => rfl
  | succ n ih =>
    have hi : s.seq.idx.toNat < nsmp s := by omega
    rw [runLoop, if_pos hi, ih (by rw [slot_idx hi, slot_nsmp]; omega), slot_idx hi]
    omega

/-- `PH` counts `IDX` modulo a positive block size (R14). -/
def PhaseCountsIndex (s : State) : Prop := s.seq.ph.toNat = s.seq.idx.toNat % s.drv.blk.toNat

theorem slot_keeps_phaseCountsIndex {s : State} (hb : 1 ≤ s.drv.blk.toNat) (h : PhaseCountsIndex s)
    (hi : s.seq.idx.toNat < nsmp s) : PhaseCountsIndex (slot s) := by
  have hidx := slot_idx hi
  obtain ⟨l, z, v, e, -⟩ := slot_shape s
  unfold PhaseCountsIndex
  rw [hidx, e]
  exact nextPhase_toNat hb h

theorem runLoop_keeps_phaseCountsIndex (n : Nat) {s : State} (hb : 1 ≤ s.drv.blk.toNat) (h : PhaseCountsIndex s) :
    PhaseCountsIndex (runLoop n s) := by
  have hslot : ∀ t, 1 ≤ t.drv.blk.toNat ∧ PhaseCountsIndex t → t.seq.idx.toNat < nsmp t →
      1 ≤ (slot t).drv.blk.toNat ∧ PhaseCountsIndex (slot t) := fun t ⟨hb, hphase⟩ hi =>
    ⟨by rwa [slot_drv], slot_keeps_phaseCountsIndex hb hphase hi⟩
  exact (runLoop_keeps hslot n ⟨hb, h⟩).2

/-- `HOLD` is the value of the slot last written, if any (R124). -/
def HoldsLastSlot (s : State) : Prop := 0 < s.seq.idx.toNat → s.seq.hold = smpWord s (s.seq.idx.toNat - 1)

theorem slot_holdsLastSlot {s : State} (hi : s.seq.idx.toNat < nsmp s) : HoldsLastSlot (slot s) := by
  intro _
  rw [slot_idx hi, Nat.add_sub_cancel, slot_word]

theorem runLoop_keeps_holdsLastSlot (n : Nat) {s : State} (h : HoldsLastSlot s) : HoldsLastSlot (runLoop n s) :=
  runLoop_keeps (fun _ _ hi => slot_holdsLastSlot hi) n h

/-! ### `RUN` (R126) -/

/-- The state in which `RUN` starts its walk. -/
def runStart (s : State) : State := { s with filt := freshFilter, seq := freshSequencer }

/-- The state in which the walk of `RUN` ends. -/
def runEnd (s : State) : State := runLoop (nsmp s) (runStart s)

theorem exec_run {s : State} (hv : s.status.cfgValid = true) : exec .run s = .next (done (runEnd s)) :=
  exec_of_commandBody_ok (runBody_eq_ok_iff.2 ⟨hv, rfl⟩)

theorem runEnd_shape (s : State) : ∃ l z q m, runEnd s = { s with lfsr := l, filt := z, seq := q, smp := m } :=
  runLoop_shape (nsmp s) (runStart s)

theorem runEnd_idx (s : State) : (runEnd s).seq.idx.toNat = nsmp s := by
  have h := runLoop_idx (nsmp s) (s := runStart s) (Nat.le_of_eq (Nat.zero_add (nsmp s)))
  exact h.trans (Nat.zero_add (nsmp s))

theorem runEnd_ph {s : State} (hb : 1 ≤ s.drv.blk.toNat) : (runEnd s).seq.ph.toNat = nsmp s % s.drv.blk.toNat := by
  have h := runLoop_keeps_phaseCountsIndex (nsmp s) (s := runStart s) hb (Nat.zero_mod _).symm
  rw [PhaseCountsIndex, runLoop_drv] at h
  rw [← runEnd_idx s]
  exact h

theorem runEnd_hold {s : State} (h : 0 < nsmp s) : (runEnd s).seq.hold = smpWord (runEnd s) (nsmp s - 1) := by
  have hlast : HoldsLastSlot (runEnd s) :=
    runLoop_keeps_holdsLastSlot (nsmp s) (s := runStart s) fun hpos => absurd hpos (Nat.lt_irrefl 0)
  rw [HoldsLastSlot, runEnd_idx] at hlast
  exact hlast h

theorem smpByte_runEnd_above (s : State) {a : Nat} (ha : 4 * nsmp s ≤ a) : smpByte (runEnd s) a = smpByte s a :=
  smpByte_of_smpWord_div (runLoop_word_above (nsmp s) (runStart s) (show nsmp s ≤ a / 4 by omega))

theorem runEnd_of_empty {s : State} (h : nsmp s = 0) : runEnd s = runStart s := by
  rw [runEnd, h, runLoop]

/-- Settles O35: the end of the walk is known by its position, its held value and its frame. -/
theorem runWalksTheWholeArray : Obligations.RunWalksTheWholeArray := by
  refine ⟨encodedCommandDecodesToItself .run rfl, fun s hv => ?_, fun s hv => exec_of_notConfigured (i := .run) rfl hv⟩
  obtain ⟨l, z, q, m, e⟩ := runEnd_shape s
  exact ⟨_, exec_run hv, by rw [e]; rfl, runEnd_idx s, runEnd_ph, fun a ha => smpByte_runEnd_above s ha, runEnd_hold,
    fun hempty => by rw [runEnd_of_empty hempty]; rfl⟩

/-! ### So many `STEP`s (R125) -/

/-- `done` has nothing to do where the result is already OK (R163). -/
theorem done_of_result_ok {s : State} (h : s.status.result = .ok) : done s = s := by
  rw [done, ← h]

/-- With the result already OK, consecutive `STEP`s inside the array are the iterations of the loop. -/
theorem runCommands_replicate_step (n : Nat) {s : State} (hv : s.status.cfgValid = true) (hr : s.status.result = .ok)
    (hn : s.seq.idx.toNat + n ≤ nsmp s) : runCommands (List.replicate n .step) s = some (runLoop n s) := by
  induction n generalizing s with
  | zero => rfl
  | succ n ih =>
    have hi : s.seq.idx.toNat < nsmp s := by omega
    have hdone : done (slot s) = slot s := done_of_result_ok (by rw [slot_status, hr])
    rw [List.replicate_succ, runCommands_cons (exec_step hv hi), hdone, runLoop, if_pos hi]
    exact ih (by rw [slot_status, hv]) (by rw [slot_status, hr]) (by rw [slot_idx hi, slot_nsmp]; omega)

/-- Settles O37: `SETUP` leaves the state in which `RUN` starts its walk, with the result OK. -/
theorem stepsAfterSetupEqualRun : Obligations.StepsAfterSetupEqualRun := by
  intro s hlen hcfg
  have hsteps := runCommands_replicate_step (nsmp s) (s := done (callStart s)) rfl rfl
    (Nat.le_of_eq (Nat.zero_add (nsmp s)))
  have hdone : done (runEnd (done (callStart s))) = runEnd (done (callStart s)) :=
    done_of_result_ok (congrArg Status.result (runLoop_status _ _))
  exact ⟨_, _, exec_setup hlen hcfg, exec_run rfl, hsteps.trans (congrArg some hdone.symm)⟩

end Sys2Proof.Machine
end

section
/-! The document's block loop (46_decimator_pipeline.md R123) and the sequencer (R124, R126): a block start and the slots up to the
next one are one block of the loop, so the walk of `RUN` is the loop but for the position. -/

namespace Sys2Proof.Machine

/-! ### The position, which no block reads -/

/-- `s` at another position of the sequencer, with another held value. -/
def withSeq (q : Sequencer) (s : State) : State := { s with seq := q }

/-- The chain reads neither the position nor `STATUS` and passes both on. -/
theorem chainValue_with_seq_status (x : F32) (s : State) (q : Sequencer) (st : Status) :
    chainValue x { s with seq := q, status := st } =
      ((chainValue x s).1, { (chainValue x s).2 with seq := q, status := st }) := by
  have hsame : SameDatapath s { s with seq := q, status := st } := ⟨rfl, rfl, rfl, rfl, .inr rfl⟩
  obtain ⟨hval, hstate⟩ := chainValue_same hsame x
  obtain ⟨z, e⟩ := chainValue_snd x s
  obtain ⟨z', e'⟩ := chainValue_snd x { s with seq := q, status := st }
  have hfilt : z' = z := by
    have := hstate.filt
    rwa [e, e'] at this
  refine Prod.ext hval ?_
  rw [e', e, hfilt]
  rfl

theorem chainValue_withSeq (x : F32) (s : State) (q : Sequencer) :
    chainValue x (withSeq q s) = ((chainValue x s).1, withSeq q (chainValue x s).2) := by
  have h := chainValue_with_seq_status x s q s.status
  conv at h => rhs; rw [← chainValue_status x s]
  exact h

theorem fillSlots_withSeq (n start : Nat) (v : F32) (s : State) (q : Sequencer) :
    fillSlots start v n (withSeq q s) = withSeq q (fillSlots start v n s) := by
  induction n generalizing start s with
  | zero => rfl
  | succ n ih => exact ih (start + 1) (setSmpWord start v s)

/-! ### One block of the document's loop (R123) -/

/-- The state after the block that starts at slot `b`: the chain run once on `S[b]`, its value in every slot of the block. -/
def blockDone (blockSize n b : Nat) (s : State) : State :=
  fillSlots b (chainValue (smpWord s b) s).1 (min (b + blockSize) n - b) (chainValue (smpWord s b) s).2

theorem blockLoop_of_lt {n b : Nat} (h : b < n) (blockSize fuel : Nat) (s : State) :
    blockLoop blockSize n (fuel + 1) b s = blockLoop blockSize n fuel (b + blockSize) (blockDone blockSize n b s) := by
  rw [blockLoop, if_pos h]
  rfl

theorem blockLoop_of_le {n b : Nat} (h : n ≤ b) (blockSize fuel : Nat) (s : State) :
    blockLoop blockSize n fuel b s = s := by
  cases fuel with
  | zero => rfl
  | succ fuel => rw [blockLoop, if_neg (Nat.not_lt.2 h)]

theorem blockDone_withSeq (blockSize n b : Nat) (s : State) (q : Sequencer) :
    blockDone blockSize n b (withSeq q s) = withSeq q (blockDone blockSize n b s) := by
  have hword : smpWord (withSeq q s) = smpWord s := rfl
  rw [blockDone, hword, chainValue_withSeq, fillSlots_withSeq]
  rfl

theorem blockLoop_withSeq (blockSize n fuel b : Nat) (s : State) (q : Sequencer) :
    blockLoop blockSize n fuel b (withSeq q s) = withSeq q (blockLoop blockSize n fuel b s) := by
  induction fuel generalizing b s with
  | zero => rfl
  | succ fuel ih =>
    by_cases h : b < n
    · rw [blockLoop_of_lt h, blockLoop_of_lt h, blockDone_withSeq, ih]
    · rw [blockLoop_of_le (Nat.not_lt.1 h), blockLoop_of_le (Nat.not_lt.1 h)]

/-! ### What the document's loop leaves (R103, R123, R129) -/

theorem blockDone_word (blockSize n b j : Nat) (s : State) : smpWord (blockDone blockSize n b s) j =
    if b ≤ j ∧ j < b + (min (b + blockSize) n - b) then (chainValue (smpWord s b) s).1 else smpWord s j := by
  obtain ⟨z, e⟩ := chainValue_snd (smpWord s b) s
  rw [blockDone, fillSlots_word, e]
  rfl

/-- A block changes nothing but the sample memory, the generator and the filter state. -/
theorem blockDone_shape (blockSize n b : Nat) (s : State) :
    ∃ m z, blockDone blockSize n b s = { s with lfsr := chainLfsr s, filt := z, smp := m } := by
  obtain ⟨z, e⟩ := chainValue_snd (smpWord s b) s
  obtain ⟨m, e'⟩ := fillSlots_shape (min (b + blockSize) n - b) b (chainValue (smpWord s b) s).2 (chainValue (smpWord s b) s).1
  exact ⟨m, z, by rw [blockDone, e', e]⟩

/-- The loop from slot `b` on leaves the slots below `b` alone. -/
theorem blockLoop_word_below (blockSize n fuel : Nat) {b j : Nat} (s : State) (hj : j < b) :
    smpWord (blockLoop blockSize n fuel b s) j = smpWord s j := by
  induction fuel generalizing b s with
  | zero => rfl
  | succ fuel ih =>
    by_cases hb : b < n
    · rw [blockLoop_of_lt hb, ih _ (by omega), blockDone_word, if_neg (by omega)]
    · rw [blockLoop_of_le (Nat.not_lt.1 hb)]

/-- After the loop every slot has the value of its block's first, in the partial last block too. -/
theorem blockLoop_word_held {blockSize n fuel b j : Nat} (s : State) (hpos : 1 ≤ blockSize) (hstart : blockSize ∣ b)
    (hfuel : n ≤ b + fuel) (hbj : b ≤ j) (hjn : j < n) :
    smpWord (blockLoop blockSize n fuel b s) j = smpWord (blockLoop blockSize n fuel b s) (blockSize * (j / blockSize)) := by
  induction fuel generalizing b s with
  | zero => omega
  | succ fuel ih =>
    rw [blockLoop_of_lt (show b < n by omega)]
    by_cases hj : j < b + blockSize
    · have hfirst : blockSize * (j / blockSize) = b := by
        obtain ⟨c, rfl⟩ := hstart
        have hdiv : j / blockSize = c :=
          Nat.div_eq_of_lt_le (by rwa [Nat.mul_comm]) (by rwa [Nat.succ_mul, Nat.mul_comm])
        rw [hdiv]
      rw [hfirst, blockLoop_word_below _ _ _ _ hj, blockLoop_word_below _ _ _ _ (by omega), blockDone_word, blockDone_word,
        if_pos (by omega), if_pos (by omega)]
    · exact ih _ (Nat.dvd_add hstart (dvd_refl _)) (by omega) (by omega)

/-- One draw per block, the partial last block included. -/
theorem blockLoop_lfsr_of_loud {blockSize n fuel b : Nat} {s : State} (hpos : 1 ≤ blockSize)
    (hloud : feq (nvEff s) fZero = false) (hfuel : n ≤ b + fuel) :
    (blockLoop blockSize n fuel b s).lfsr = lfsrShifts (16 * ((n - b + blockSize - 1) / blockSize)) s.lfsr := by
  have hnone : (blockSize - 1) / blockSize = 0 := Nat.div_eq_of_lt (by omega)
  induction fuel generalizing b s with
  | zero =>
    rw [show n - b + blockSize - 1 = blockSize - 1 by omega, hnone]
    rfl
  | succ fuel ih =>
    by_cases hb : b < n
    case neg =>
      rw [blockLoop_of_le (Nat.not_lt.1 hb), show n - b + blockSize - 1 = blockSize - 1 by omega, hnone]
      rfl
    case pos =>
      have hcount : (n - b + blockSize - 1) / blockSize = 1 + (n - (b + blockSize) + blockSize - 1) / blockSize := by
        rw [show n - b + blockSize - 1 = n - b - 1 + blockSize by omega, Nat.add_div_right _ hpos, Nat.add_comm]
        by_cases hlast : n ≤ b + blockSize
        · rw [show n - (b + blockSize) + blockSize - 1 = blockSize - 1 by omega, hnone, Nat.div_eq_of_lt (by omega)]
        · rw [show n - (b + blockSize) + blockSize - 1 = n - b - 1 by omega]
      obtain ⟨m, z, e⟩ := blockDone_shape blockSize n b s
      have hdraw : chainLfsr s = lfsrShifts 16 s.lfsr := if_neg (Bool.eq_false_iff.1 hloud)
      rw [blockLoop_of_lt hb, ih (by rw [e]; exact hloud) (by omega), hcount, Nat.mul_add, lfsrShifts_add, e, hdraw]

/-! ### The sequencer's block (R124) -/

theorem slot_eq_withSeq_of_insideBlock {s : State} (h : s.seq.ph ≠ 0) :
    slot s = withSeq (slot s).seq (setSmpWord s.seq.idx.toNat s.seq.hold s) ∧ (slot s).seq.hold = s.seq.hold := by
  rw [slot_of_insideBlock h]
  exact ⟨rfl, rfl⟩

theorem slot_eq_withSeq_of_blockStart {s : State} (h : s.seq.ph = 0) {r : F32 × State}
    (hr : r = chainValue (smpWord s s.seq.idx.toNat) s) :
    slot s = withSeq (slot s).seq (setSmpWord s.seq.idx.toNat r.1 r.2) ∧ (slot s).seq.hold = r.1 := by
  rw [slot_of_blockStart h, ← hr]
  exact ⟨rfl, rfl⟩

/-- A slot and the repetitions of its value fill one slot more. -/
theorem fillSlots_slot {s t : State} {q : Sequencer} {i : Nat} {v : F32} (h : slot s = withSeq q (setSmpWord i v t)) (k : Nat) :
    fillSlots (i + 1) v k (slot s) = withSeq q (fillSlots i v (k + 1) t) := by
  rw [h, fillSlots_withSeq]
  rfl

/-- Slots that start no block only repeat the held value. -/
theorem runLoop_insideBlock (k : Nat) {s : State} (hb : 1 ≤ s.drv.blk.toNat) (hphase : PhaseCountsIndex s)
    (hinside : ∀ j, s.seq.idx.toNat ≤ j → j < s.seq.idx.toNat + k → j % s.drv.blk.toNat ≠ 0)
    (hk : s.seq.idx.toNat + k ≤ nsmp s) :
    ∃ q, runLoop k s = withSeq q (fillSlots s.seq.idx.toNat s.seq.hold k s) := by
  induction k generalizing s with
  | zero => exact ⟨s.seq, rfl⟩
  | succ k ih =>
    have hi : s.seq.idx.toNat < nsmp s := by omega
    have hidx := slot_idx hi
    have hph : s.seq.ph ≠ 0 := fun h => hinside _ le_rfl (by omega) (by rw [← hphase, h]; rfl)
    obtain ⟨hslot, hhold⟩ := slot_eq_withSeq_of_insideBlock hph
    obtain ⟨q, hq⟩ := ih (s := slot s) (by rwa [slot_drv]) (slot_keeps_phaseCountsIndex hb hphase hi)
      (by rw [hidx, slot_drv]; exact fun j hlo hhi => hinside j (by omega) (by omega))
      (by rw [hidx, slot_nsmp]; omega)
    refine ⟨q, ?_⟩
    rw [runLoop, if_pos hi, hq, hidx, hhold, fillSlots_slot hslot]
    rfl

/-- From a block start, the slots up to the end of the block or of the array are one block of the document's loop. -/
theorem runLoop_block {k : Nat} {s : State} (hb : 1 ≤ s.drv.blk.toNat) (hphase : PhaseCountsIndex s)
    (hstart : s.seq.idx.toNat % s.drv.blk.toNat = 0) (hi : s.seq.idx.toNat < nsmp s)
    (hk : min (s.seq.idx.toNat + s.drv.blk.toNat) (nsmp s) - s.seq.idx.toNat = k) :
    ∃ q, runLoop k s = withSeq q (blockDone s.drv.blk.toNat (nsmp s) s.seq.idx.toNat s) := by
  obtain ⟨k, rfl⟩ : ∃ m, k = m + 1 := Nat.exists_eq_add_one_of_ne_zero (by omega)
  have hidx := slot_idx hi
  have hph : s.seq.ph = 0 := BitVec.eq_of_toNat_eq (hphase.trans hstart)
  obtain ⟨hslot, hhold⟩ := slot_eq_withSeq_of_blockStart hph rfl
  have hinside : ∀ j, s.seq.idx.toNat + 1 ≤ j → j < s.seq.idx.toNat + 1 + k → j % s.drv.blk.toNat ≠ 0 := by
    intro j hlo hhi hzero
    have hdvd := Nat.dvd_sub (Nat.dvd_of_mod_eq_zero hzero) (Nat.dvd_of_mod_eq_zero hstart)
    have hle := Nat.le_of_dvd (by omega) hdvd
    omega
  obtain ⟨q, hq⟩ := runLoop_insideBlock k (s := slot s) (by rwa [slot_drv]) (slot_keeps_phaseCountsIndex hb hphase hi)
    (by rwa [hidx, slot_drv]) (by rw [hidx, slot_nsmp]; omega)
  refine ⟨q, ?_⟩
  rw [runLoop, if_pos hi, hq, hidx, hhold, fillSlots_slot hslot, blockDone, hk]
  rfl

/-! ### The whole array (R123, R126) -/

/-- From a block start to the end of the array, the sequencer computes the document's loop. -/
theorem runLoop_eq_blockLoop (fuel : Nat) {s : State} (hb : 1 ≤ s.drv.blk.toNat) (hphase : PhaseCountsIndex s)
    (hstart : s.seq.idx.toNat % s.drv.blk.toNat = 0) (hfuel : nsmp s ≤ s.seq.idx.toNat + fuel) :
    ∃ q, runLoop (nsmp s - s.seq.idx.toNat) s = withSeq q (blockLoop s.drv.blk.toNat (nsmp s) fuel s.seq.idx.toNat s) := by
  induction fuel generalizing s with
  | zero =>
    rw [show nsmp s - s.seq.idx.toNat = 0 by omega]
    exact ⟨s.seq, rfl⟩
  | succ fuel ih =>
    by_cases hi : s.seq.idx.toNat < nsmp s
    case neg =>
      rw [show nsmp s - s.seq.idx.toNat = 0 by omega, blockLoop_of_le (Nat.not_lt.1 hi)]
      exact ⟨s.seq, rfl⟩
    case pos =>
      obtain ⟨k, hk⟩ : ∃ k, min (s.seq.idx.toNat + s.drv.blk.toNat) (nsmp s) - s.seq.idx.toNat = k := ⟨_, rfl⟩
      obtain ⟨q, hq⟩ := runLoop_block hb hphase hstart hi hk
      have hidx := runLoop_idx k (s := s) (by omega)
      rw [show nsmp s - s.seq.idx.toNat = k + (nsmp s - (s.seq.idx.toNat + k)) by omega, runLoop_add, blockLoop_of_lt hi]
      by_cases hlast : nsmp s ≤ s.seq.idx.toNat + s.drv.blk.toNat
      case pos =>
        rw [show nsmp s - (s.seq.idx.toNat + k) = 0 by omega, blockLoop_of_le hlast]
        exact ⟨q, hq⟩
      case neg =>
        obtain rfl : k = s.drv.blk.toNat := by omega
        obtain ⟨q', hq'⟩ := ih (s := runLoop s.drv.blk.toNat s) (by rwa [runLoop_drv])
          (runLoop_keeps_phaseCountsIndex _ hb hphase) (by rw [hidx, runLoop_drv, Nat.add_mod_right, hstart])
          (by rw [hidx, runLoop_nsmp]; omega)
        rw [hidx, runLoop_nsmp, runLoop_drv] at hq'
        refine ⟨q', ?_⟩
        rw [hq', hq, blockLoop_withSeq]
        rfl

/-- The walk of `RUN` is the document's loop from the fresh filter state. -/
theorem runEnd_eq_blockLoop {s : State} (hb : 1 ≤ s.drv.blk.toNat) :
    ∃ q, runEnd s = withSeq q (blockLoop s.drv.blk.toNat (nsmp s) (nsmp s) 0 { s with filt := freshFilter }) := by
  obtain ⟨q, hq⟩ := runLoop_eq_blockLoop (nsmp s) (s := runStart s) hb (Nat.zero_mod _).symm (Nat.zero_mod _)
    (Nat.le_add_left _ _)
  have hloop := congrArg (withSeq q)
    (blockLoop_withSeq s.drv.blk.toNat (nsmp s) (nsmp s) 0 { s with filt := freshFilter } freshSequencer)
  exact ⟨q, hq.trans hloop⟩

/-- Settles O36: but for the position the walk ends in the state of the document's loop. -/
theorem runRefinesTheDocumentsBlockLoop : Obligations.RunRefinesTheDocumentsBlockLoop := by
  intro s hv hb
  obtain ⟨q, hq⟩ := runEnd_eq_blockLoop hb
  refine ⟨_, exec_run hv, fun a => ?_, ?_, ?_⟩ <;> rw [hq] <;> rfl

end Sys2Proof.Machine
end

section
/-! The whole call (46_decimator_pipeline.md R127, R129): `PROCESS` is its four commands one after the other, every sample is its
block's first, and the generator draws once per block. -/

namespace Sys2Proof.Machine

/-! ### `done` between the parts (R127): the result is not read on the way -/

@[simp] theorem done_done (s : State) : done (done s) = done s := rfl

theorem chainValue_done (x : F32) (s : State) : chainValue x (done s) = ((chainValue x s).1, done (chainValue x s).2) := by
  have h := chainValue_with_seq_status x s s.seq { s.status with result := .ok }
  obtain ⟨z, e⟩ := chainValue_snd x s
  rw [e] at h ⊢
  exact h

theorem takeBlock_done (s : State) : takeBlock (done s) = done (takeBlock s) := by
  simp only [takeBlock, done_seq, smpWord_done, chainValue_done]
  split <;> rfl

theorem slot_done (s : State) : slot (done s) = done (slot s) := congrArg holdSlot (takeBlock_done s)

theorem runLoop_done (n : Nat) (s : State) : runLoop n (done s) = done (runLoop n s) := by
  induction n generalizing s with
  | zero => rfl
  | succ n ih =>
    unfold runLoop
    rw [slot_done, ih, apply_ite done]
    rfl

theorem runEnd_done (s : State) : runEnd (done s) = done (runEnd s) := runLoop_done (nsmp s) (runStart s)

theorem decodeUpTo_done (n : Nat) (s : State) : decodeUpTo n (done s) = done (decodeUpTo n s) := by
  induction n with
  | zero => rfl
  | succ n ih =>
    simp only [decodeUpTo, ih]
    rfl

theorem encodeSample_done (i : Nat) (s : State) : encodeSample i (done s) = done (encodeSample i s) := by
  simp only [encodeSample, setPcmSample, noteNan_shape]
  rw [apply_ite done]
  rfl

theorem encodeUpTo_done (n : Nat) (s : State) : encodeUpTo n (done s) = done (encodeUpTo n s) := by
  induction n with
  | zero => rfl
  | succ n ih => rw [encodeUpTo, ih, encodeSample_done, encodeUpTo]

/-! ### The parts of a call (R127) -/

/-- The state in which the `RUN` of a call starts: set up and decoded. -/
def callDecoded (s : State) : State := decodeUpTo (nsmp s) (callStart s)

theorem callDecoded_shape (s : State) : ∃ m, callDecoded s = { callStart s with smp := m } :=
  decodeUpTo_shape (nsmp s) (callStart s)

theorem callDecoded_nsmp (s : State) : nsmp (callDecoded s) = nsmp s := by
  obtain ⟨m, e⟩ := callDecoded_shape s
  rw [e]
  rfl

theorem callDecoded_blk (s : State) : (callDecoded s).drv.blk.toNat = blk0 s := by
  obtain ⟨m, e⟩ := callDecoded_shape s
  rw [e]
  exact derive_blk_toNat s

/-- `SETUP` has already made the state in which `RUN` starts its walk. -/
theorem callSamples_eq_runEnd (s : State) : callSamples s = runEnd (callDecoded s) := by
  have hstart : runStart (callDecoded s) = callDecoded s := by
    obtain ⟨m, e⟩ := callDecoded_shape s
    rw [e]
    rfl
  rw [runEnd, hstart, callDecoded_nsmp]
  rfl

theorem callSamples_nsmp (s : State) : nsmp (callSamples s) = nsmp s := by
  obtain ⟨l, z, q, m, e⟩ := callSamples_shape s
  rw [e]
  rfl

theorem callSamples_ctrl (s : State) : (callSamples s).ctrl = s.ctrl := by
  obtain ⟨l, z, q, m, e⟩ := callSamples_shape s
  rw [e]
  rfl

/-- The state that a completed call leaves. -/
def callDone (s : State) : State := done (encodeUpTo (nsmp s) (callSamples s))

section
variable {s : State} (hlen : lenOk s = true) (hcfg : cfgOk s = true)
include hlen hcfg

theorem exec_process (hen : s.ctrl.en = true) : exec .process s = .next (callDone s) := by
  have hbody := processBody_of_valid hen hlen hcfg
  rw [callSamples_nsmp] at hbody
  exact exec_of_commandBody_ok (i := .process) hbody

/-- The four commands, each ending with its own `done`, leave the state of the call. -/
theorem runCommands_setup_decode_run_encode : runCommands [.setup, .decode, .run, .encode] s = some (callDone s) := by
  have hvalid : (done (callDecoded s)).status.cfgValid = true := by
    obtain ⟨m, e⟩ := callDecoded_shape s
    rw [e]
    rfl
  have hdecode : exec .decode (done (callStart s)) = .next (done (callDecoded s)) := by
    rw [exec_decode (s := done (callStart s)) hlen, decodeUpTo_done]
    rfl
  have hrun : exec .run (done (callDecoded s)) = .next (done (callSamples s)) := by
    rw [exec_run hvalid, runEnd_done, done_done, callSamples_eq_runEnd]
  have hencode : exec .encode (done (callSamples s)) = .next (callDone s) := by
    rw [exec_encode (s := done (callSamples s)) ((callSamples_lenOk s).trans hlen), encodeUpTo_done, done_done, callDone,
      ← callSamples_nsmp s]
    rfl
  rw [runCommands_cons (exec_setup hlen hcfg), ← callStart]
  rw [runCommands_cons hdecode, runCommands_cons hrun, runCommands_cons hencode, runCommands_nil]

end

/-! ### What a call leaves (R127) -/

/-- `ENCODE` touches no byte of the sample memory. -/
theorem encodeUpTo_smpByte (n : Nat) (s : State) : smpByte (encodeUpTo n s) = smpByte s := by
  obtain ⟨m, b, e⟩ := encodeUpTo_shape n s
  rw [e]
  rfl

theorem smpByte_callDone_above (s : State) {a : Nat} (ha : 4 * nsmp s ≤ a) : smpByte (callDone s) a = smpByte s a := by
  calc smpByte (callDone s) a = smpByte (callSamples s) a := by rw [callDone, smpByte_done, encodeUpTo_smpByte]
    _ = smpByte (callDecoded s) a := by
      rw [callSamples_eq_runEnd, smpByte_runEnd_above _ (by rwa [callDecoded_nsmp])]
    _ = smpByte s a := smpByte_decodeUpTo_above (callStart s) ha

theorem callSamples_bps (s : State) : bps (callSamples s) = bps s := by simp only [bps, callSamples_ctrl]

theorem callSamples_pcmByte (s : State) : pcmByte (callSamples s) = pcmByte s := by
  obtain ⟨l, z, q, m, e⟩ := callSamples_shape s
  rw [e]
  rfl

theorem pcmByte_callDone_above {s : State} (hlen : lenOk s = true) {a : Nat} (ha : s.len.toNat ≤ a) :
    pcmByte (callDone s) a = pcmByte s a := by
  have hge : nsmp s ≤ a / bps s := (Nat.le_div_iff_mul_le (bps_pos s)).2 (nsmp_mul_bps hlen ▸ ha)
  rw [callDone, pcmByte_done, pcmByte_encodeUpTo, callSamples_bps, if_neg (Nat.not_lt.2 hge), callSamples_pcmByte]

theorem callSamples_seq {s : State} (hcfg : cfgOk s = true) : (callSamples s).seq =
    { idx := BitVec.ofNat 25 (nsmp s)
      ph := BitVec.ofNat 3 (nsmp s % blk0 s)
      hold := (callSamples s).seq.hold } := by
  have hblk : 1 ≤ (callDecoded s).drv.blk.toNat := by
    rw [callDecoded_blk]
    exact ((cfgOk_iff s).1 hcfg).1
  have hidx := runEnd_idx (callDecoded s)
  have hph := runEnd_ph hblk
  rw [callDecoded_nsmp, ← callSamples_eq_runEnd] at hidx hph
  rw [callDecoded_blk] at hph
  rw [← hph, ← hidx, BitVec.ofNat_toNat, BitVec.ofNat_toNat, BitVec.setWidth_eq, BitVec.setWidth_eq]

theorem callDone_shape {s : State} (hcfg : cfgOk s = true) : callDone s = { s with
    drv := derive s
    filt := (callDone s).filt
    seq := { idx := BitVec.ofNat 25 (nsmp s), ph := BitVec.ofNat 3 (nsmp s % blk0 s), hold := (callDone s).seq.hold }
    lfsr := (callDone s).lfsr
    pcm := (callDone s).pcm
    smp := (callDone s).smp
    status := { s.status with result := .ok, cfgValid := true, nanf := (callDone s).status.nanf } } := by
  have hseq := callSamples_seq hcfg
  obtain ⟨l, z, q, m, e⟩ := callSamples_shape s
  obtain ⟨p, b, e'⟩ := encodeUpTo_shape (nsmp s) (callSamples s)
  rw [e] at hseq
  rw [callDone, e', e]
  exact congrArg (fun q' => done { callStart s with
    lfsr := l, filt := z, seq := q', smp := m, pcm := p, status := { (callStart s).status with nanf := b } }) hseq

/-- A raise inside `SETUP` ends the call with its result (R127). -/
theorem exec_process_of_setup_error {s : State} {c : ResultCode} (hen : s.ctrl.en = true) (h : setupBody s = .error c) :
    exec .process s = .next (raise c s) :=
  exec_of_commandBody_error (i := .process) (by rw [commandBody, processBody, if_pos hen, h])

/-- Settles O38: with `EN` clear or a failing check the first part decides; else the call is its four parts. -/
theorem processIsTheWholeCall : Obligations.ProcessIsTheWholeCall := by
  refine ⟨encodedCommandDecodesToItself .process rfl, fun s hen => ?passthrough, fun s hen hlen hcfg => ?call,
    fun s hen hlen => ?badLength, fun s hen hlen hcfg => ?badConfig⟩
  case passthrough => exact exec_of_commandBody_ok (i := .process) (processBody_eq_ok_iff.2 (.inl ⟨hen, rfl⟩))
  case call =>
    exact ⟨_, exec_process hlen hcfg hen, runCommands_setup_decode_run_encode hlen hcfg, callDone_shape hcfg,
      fun a ha => pcmByte_callDone_above hlen ha, fun a ha => smpByte_callDone_above s ha⟩
  case badLength => exact exec_process_of_setup_error (c := .invalidBufferLength) hen (by simp [setupBody, hlen])
  case badConfig => exact exec_process_of_setup_error (c := .invalidConfiguration) hen (by simp [setupBody, hlen, hcfg])

/-! ### The call, block by block (R129) -/

/-- The samples of a call are those of the document's loop over the decoded ones. -/
theorem callSamples_eq_blockLoop {s : State} (hcfg : cfgOk s = true) :
    ∃ q, callSamples s =
      withSeq q (blockLoop (blk0 s) (nsmp s) (nsmp s) 0 { callDecoded s with filt := freshFilter }) := by
  have hblk : 1 ≤ (callDecoded s).drv.blk.toNat := by
    rw [callDecoded_blk]
    exact ((cfgOk_iff s).1 hcfg).1
  obtain ⟨q, hq⟩ := runEnd_eq_blockLoop hblk
  rw [callDecoded_blk, callDecoded_nsmp, ← callSamples_eq_runEnd] at hq
  exact ⟨q, hq⟩

theorem smpWord_callSamples_held {s : State} (hcfg : cfgOk s = true) {j : Nat} (hj : j < nsmp s) :
    smpWord (callSamples s) j = smpWord (callSamples s) (blk0 s * (j / blk0 s)) := by
  obtain ⟨q, hq⟩ := callSamples_eq_blockLoop hcfg
  rw [hq]
  exact blockLoop_word_held _ ((cfgOk_iff s).1 hcfg).1 (dvd_zero _) (Nat.le_add_left _ _) (Nat.zero_le j) hj

/-- The signed little-endian integer of a container's bytes (R44, R71). -/
def sampleInt (width : Bool) (bytes : Nat → Byte) : Int :=
  if width then (bytes 1 ++ bytes 0).toInt else (bytes 0).toInt

theorem pcmInt_eq_sampleInt (s : State) (i : Nat) :
    pcmInt s i = sampleInt s.ctrl.width fun k => pcmByte s (bps s * i + k) := by
  unfold pcmInt sampleInt bps
  cases s.ctrl.width <;> simp

/-- Only the bytes of the container's width count. -/
theorem sampleInt_congr {s : State} {b c : Nat → Byte} (h : ∀ k < bps s, b k = c k) :
    sampleInt s.ctrl.width b = sampleInt s.ctrl.width c := by
  have hlow := h 0 (bps_pos s)
  unfold sampleInt
  split
  next hw => rw [hlow, h 1 (by simp [bps, hw])]
  next => rw [hlow]

/-- Equal samples are encoded as equal integers (R71, R74). -/
theorem pcmInt_encodeUpTo_of_smpWord_eq {n i j : Nat} {s : State} (hi : i < n) (hj : j < n) (h : smpWord s i = smpWord s j) :
    pcmInt (encodeUpTo n s) i = pcmInt (encodeUpTo n s) j := by
  have hbps : bps (encodeUpTo n s) = bps s := by simp only [bps, encodeUpTo_ctrl]
  rw [pcmInt_eq_sampleInt, pcmInt_eq_sampleInt, encodeUpTo_ctrl, hbps]
  exact sampleInt_congr fun k hk => by rw [pcmByte_encodeUpTo_sample hi hk, pcmByte_encodeUpTo_sample hj hk, h]

/-- Settles O39: the samples of the document's loop are held, and equal samples are encoded alike. -/
theorem processHoldsEachBlock : Obligations.ProcessHoldsEachBlock := by
  intro s hen hlen hcfg
  refine ⟨_, exec_process hlen hcfg hen, fun j hj => ?_⟩
  have hfirst : blk0 s * (j / blk0 s) < nsmp s := lt_of_le_of_lt (Nat.mul_div_le j (blk0 s)) hj
  have hword := smpWord_callSamples_held hcfg hj
  constructor
  · rw [callDone, smpWord_done, encodeUpTo_smpWord]
    exact hword
  · exact pcmInt_encodeUpTo_of_smpWord_eq hj hfirst hword

/-- With a nonzero effective noise volume a call takes one draw per block (R103). -/
theorem callSamples_lfsr_of_loud {s : State} (hcfg : cfgOk s = true) (hloud : feq (nvEff s) fZero = false) :
    (callSamples s).lfsr = lfsrShifts (16 * ((nsmp s + blk0 s - 1) / blk0 s)) s.lfsr := by
  obtain ⟨q, hq⟩ := callSamples_eq_blockLoop hcfg
  obtain ⟨m, e⟩ := callDecoded_shape s
  have hloop := blockLoop_lfsr_of_loud (n := nsmp s) (b := 0) (s := { callDecoded s with filt := freshFilter })
    ((cfgOk_iff s).1 hcfg).1 (by rw [e]; exact hloud) (Nat.le_add_left (nsmp s) 0)
  rw [hq]
  refine hloop.trans ?_
  rw [e]
  rfl

/-- Settles O41: the document's loop draws once per block, and a zero effective noise volume bypasses every draw. -/
theorem processDrawsOncePerBlock : Obligations.ProcessDrawsOncePerBlock := by
  intro s hen hlen hcfg
  refine ⟨_, exec_process hlen hcfg hen, ?_⟩
  split
  next hquiet =>
    have hbody := processBody_lfsr_of_quiet (processBody_of_valid hen hlen hcfg) hquiet
    rwa [callSamples_nsmp] at hbody
  next hloud =>
    obtain ⟨m, b, e⟩ := encodeUpTo_shape (nsmp s) (callSamples s)
    rw [callDone, done_lfsr, e]
    exact callSamples_lfsr_of_loud hcfg (Bool.eq_false_iff.2 hloud)

end Sys2Proof.Machine
end

section
/-! Silence (46_decimator_pipeline.md R129 item 4): with no noise every operation of the chain sends zeros and NaNs to zeros and
NaNs (47_numerics.md R141), and the encoder sends both to 0 (R74, R147). -/

namespace Sys2Proof.Machine

/-! ### Zeros and NaNs through the arithmetic (R141, R143, R148) -/

/-- A zero of either sign, or a NaN. -/
def IsSilent (x : F32) : Prop := isNan x = true ∨ isZero x = true

theorem isSilent_qNaN : IsSilent qNaN := .inl (by decide)

theorem isSilent_pack_zero (neg : Bool) : IsSilent (pack neg 0) :=
  .inr ((isZero_iff _).2 (fMagnitude_pack (by decide) neg))

/-- A silent pattern that is no NaN is a zero, which is finite and no infinity. -/
theorem IsSilent.zero_of_not_nan {x : F32} (h : IsSilent x) (hnan : isNan x = false) :
    isZero x = true ∧ isInf x = false ∧ fScaled x = 0 := by
  have hzero := h.resolve_left (by rw [hnan]; exact Bool.false_ne_true)
  exact ⟨hzero, isInf_of_isFinite (isFinite_of_isZero hzero), (isZero_iff_fScaled x).1 hzero⟩

section
variable {x : F32} (h : IsSilent x)
include h

theorem isSilent_fneg : IsSilent (fneg x) := by
  simpa only [IsSilent, isNan_iff, isZero_iff, fMagnitude_fneg] using h

theorem isSilent_fadd {y : F32} (hy : IsSilent y) : IsSilent (fadd x y) := by
  unfold fadd
  split
  · exact isSilent_qNaN
  next hnan =>
    obtain ⟨hxnan, hynan⟩ := Bool.or_eq_false_iff.1 (Bool.eq_false_iff.2 hnan)
    obtain ⟨-, hxinf, hxunits⟩ := h.zero_of_not_nan hxnan
    obtain ⟨-, hyinf, hyunits⟩ := hy.zero_of_not_nan hynan
    have hsum : fInt x + fInt y = 0 := by simp [fInt, hxunits, hyunits]
    rw [hxinf, hyinf, if_neg Bool.false_ne_true, if_neg Bool.false_ne_true]
    simp only [hsum, if_true]
    split
    · exact .inr (by decide)
    · exact .inr (by decide)

theorem isSilent_fsub {y : F32} (hy : IsSilent y) : IsSilent (fsub x y) := isSilent_fadd h (isSilent_fneg hy)

theorem isSilent_fmul (y : F32) : IsSilent (fmul x y) := by
  unfold fmul
  simp only
  split
  · exact isSilent_qNaN
  next hnan =>
    obtain ⟨hxnan, -⟩ := Bool.or_eq_false_iff.1 (Bool.eq_false_iff.2 hnan)
    obtain ⟨hzero, -, hunits⟩ := h.zero_of_not_nan hxnan
    rw [hzero, Bool.true_or, if_pos rfl, hunits, Nat.zero_mul, roundMag_zero]
    split
    · exact isSilent_qNaN
    · exact isSilent_pack_zero _

theorem isSilent_fdiv (y : F32) : IsSilent (fdiv x y) := by
  unfold fdiv
  simp only
  split
  · exact isSilent_qNaN
  next hnan =>
    obtain ⟨hxnan, -⟩ := Bool.or_eq_false_iff.1 (Bool.eq_false_iff.2 hnan)
    obtain ⟨hzero, hinf, hunits⟩ := h.zero_of_not_nan hxnan
    rw [hinf, hzero, if_neg Bool.false_ne_true, if_pos rfl, hunits, Nat.zero_mul, roundMag_zero]
    split
    · exact isSilent_pack_zero _
    · split
      · exact isSilent_qNaN
      · exact isSilent_pack_zero _

theorem isSilent_ffloor : IsSilent (ffloor x) := by
  rcases h with hnan | hzero
  · rw [ffloor, if_pos hnan]
    exact isSilent_qNaN
  · rw [ffloor_of_isZero hzero]
    exact .inr hzero

theorem isSilent_atan32 : IsSilent (atan32 x) := by
  unfold atan32
  split
  · exact isSilent_qNaN
  next hnan =>
    obtain ⟨hzero, -, -⟩ := h.zero_of_not_nan (Bool.eq_false_iff.2 hnan)
    rw [if_pos hzero]
    exact .inr hzero

end

theorem fmul_comm (x y : F32) : fmul x y = fmul y x := by
  simp only [fmul, Bool.or_comm (isNan x), Bool.or_comm (isInf x), Bool.or_comm (isZero x), bne_comm (a := fSign x),
    Nat.mul_comm (fScaled x)]

/-! ### The units (R91, R96, R106, R114, R121) -/

theorem isSilent_bitcrush (s : State) {x : F32} (h : IsSilent x) : IsSilent (bitcrush s x) :=
  isSilent_fdiv (isSilent_ffloor (isSilent_fmul h _)) _

theorem isSilent_distort (s : State) {x : F32} (h : IsSilent x) : IsSilent (distort s x) := by
  unfold distort distortWith
  split
  · exact h
  · rw [fmul_comm (fmul s.preset.drive fHundred)]
    exact isSilent_fmul (isSilent_fmul (isSilent_atan32 (isSilent_fmul h _)) _) _

/-- A silent filter state. -/
def SilentFilter (z : FilterState) : Prop := IsSilent z.z1 ∧ IsSilent z.z2

theorem silent_biquadStep (c : Coefs) {z : FilterState} {x : F32} (hx : IsSilent x) (hz : SilentFilter z) :
    IsSilent (biquadStep c z x).1 ∧ SilentFilter (biquadStep c z x).2 := by
  obtain ⟨hz1, hz2⟩ := hz
  have hy : IsSilent (fadd (fmul x c.a0) z.z1) := isSilent_fadd (isSilent_fmul hx _) hz1
  have hby : ∀ b, IsSilent (fmul b (fadd (fmul x c.a0) z.z1)) := fun b => fmul_comm b _ ▸ isSilent_fmul hy b
  exact ⟨hy, isSilent_fsub (isSilent_fadd (isSilent_fmul hx _) hz2) (hby _), isSilent_fsub (isSilent_fmul hx _) (hby _)⟩

theorem silent_biquad {s : State} {x : F32} (hx : IsSilent x) (hz : SilentFilter s.filt) :
    IsSilent (biquad x s).1 ∧ SilentFilter (biquad x s).2.filt := by
  rcases biquad_cases x s with ⟨-, e⟩ | ⟨-, e⟩ <;> rw [e]
  · exact ⟨hx, hz⟩
  · exact silent_biquadStep s.drv.coef hx hz

theorem noiseAndCrush_of_quiet {s : State} (hquiet : feq (nvEff s) fZero = true) (x : F32) :
    noiseAndCrush x s = (bitcrush s x, s) := by
  unfold noiseAndCrush
  rw [wnoise_of_quiet hquiet, wnoise_of_quiet hquiet]
  split <;> rfl

theorem silent_chainValue {s : State} {x : F32} (hquiet : feq (nvEff s) fZero = true) (hx : IsSilent x)
    (hz : SilentFilter s.filt) : IsSilent (chainValue x s).1 ∧ SilentFilter (chainValue x s).2.filt := by
  obtain ⟨hvalue, hfilter⟩ := silent_biquad (isSilent_distort s (isSilent_bitcrush s hx)) hz
  rw [chainValue, noiseAndCrush_of_quiet hquiet]
  exact ⟨isSilent_fmul hvalue _, hfilter⟩

/-! ### The walk (R124, R126) -/

/-- Everything that the rest of a walk can turn into a sample is silent. -/
structure SilentRun (s : State) : Prop where
  quiet : feq (nvEff s) fZero = true
  filter : SilentFilter s.filt
  hold : IsSilent s.seq.hold
  words : ∀ j < nsmp s, IsSilent (smpWord s j)

theorem slot_keeps_silentRun {s : State} (h : SilentRun s) (hi : s.seq.idx.toNat < nsmp s) : SilentRun (slot s) := by
  have hvalue : IsSilent (slot s).seq.hold ∧ SilentFilter (slot s).filt := by
    by_cases hph : s.seq.ph = 0
    · rw [slot_of_blockStart hph]
      exact silent_chainValue h.quiet (h.words _ hi) h.filter
    · rw [slot_of_insideBlock hph]
      exact ⟨h.hold, h.filter⟩
  refine { quiet := (slot_nvEff s).symm ▸ h.quiet, filter := hvalue.2, hold := hvalue.1, words := fun j hj => ?_ }
  by_cases hj' : j = s.seq.idx.toNat
  · rw [hj', slot_word]
    exact hvalue.1
  · rw [slot_word_other s hj']
    exact h.words j (slot_nsmp s ▸ hj)

/-! ### The codec (R71, R74) -/

theorem isSilent_decodeInt_zero (width : Bool) : IsSilent (decodeInt width 0) := by
  have hzero : i2f 0 = pack false 0 := by simp [i2f]
  exact isSilent_fdiv (hzero ▸ isSilent_pack_zero false) _

theorem pcmInt_of_zero_bytes {s : State} {i : Nat} (h : ∀ k < bps s, pcmByte s (bps s * i + k) = 0) : pcmInt s i = 0 := by
  rw [pcmInt_eq_sampleInt, sampleInt_congr (c := fun _ => 0) h]
  cases s.ctrl.width <;> decide

theorem encodedByte_zero (width : Bool) (k : Nat) : encodedByte width 0 k = 0 := by
  cases width <;> simp [encodedByte]

/-- A zero and a NaN are both converted to 0 (R147). -/
theorem satTo_of_isSilent {lo hi : Int} (hlo : lo.natAbs < 2 ^ 24) (hhi : hi.natAbs < 2 ^ 24) (hle : lo ≤ 0) (hge : 0 ≤ hi)
    {v : F32} (h : IsSilent v) : satTo lo hi v = 0 := by
  rcases h with hnan | hzero
  · exact if_pos hnan
  · have hint : fInt v = 0 := by simp [fInt, (isZero_iff_fScaled v).1 hzero]
    rw [satTo_of_isFinite hlo hhi (by omega) (isFinite_of_isZero hzero), hint, Int.zero_tdiv]
    omega

/-- The encoder writes 0 for a zero and for a NaN (R74). -/
theorem encodeInt_of_isSilent (width : Bool) {x : F32} (h : IsSilent x) : encodeInt width x = 0 := by
  cases width with
  | false =>
    rw [encodeInt_width8]
    exact satTo_of_isSilent (by decide) (by decide) (by decide) (by decide) (isSilent_fmul h _)
  | true =>
    rw [encodeInt_width16]
    exact satTo_of_isSilent (by decide) (by decide) (by decide) (by decide) (isSilent_fmul h _)

/-! ### The call (R129) -/

/-- The bytes of sample `j` lie inside the buffer. -/
theorem sample_byte_lt_len {s : State} (hlen : lenOk s = true) {j k : Nat} (hj : j < nsmp s) (hk : k < bps s) :
    bps s * j + k < s.len.toNat :=
  calc bps s * j + k < bps s * (j + 1) := Nat.add_lt_add_left hk _
    _ ≤ bps s * nsmp s := Nat.mul_le_mul_left _ hj
    _ = s.len.toNat := by rw [Nat.mul_comm, nsmp_mul_bps hlen]

/-- A silent buffer is decoded to silent samples, with a fresh filter and held value. -/
theorem silentRun_callDecoded {s : State} (hlen : lenOk s = true) (hquiet : feq (nvEff s) fZero = true)
    (hbytes : ∀ a < s.len.toNat, pcmByte s a = 0) : SilentRun (callDecoded s) := by
  have hzero : IsSilent fZero := .inr (by decide)
  have hwords : ∀ j < nsmp s, IsSilent (smpWord (callDecoded s) j) := fun j hj => by
    have hint : pcmInt s j = 0 := pcmInt_of_zero_bytes fun k hk => hbytes _ (sample_byte_lt_len hlen hj hk)
    have hdec : dec (callStart s) j = decodeInt s.ctrl.width 0 := congrArg (decodeInt s.ctrl.width) hint
    rw [callDecoded, decodeUpTo_word, if_pos hj, hdec]
    exact isSilent_decodeInt_zero _
  obtain ⟨m, e⟩ := callDecoded_shape s
  rw [e] at hwords ⊢
  exact { quiet := hquiet, filter := ⟨hzero, hzero⟩, hold := hzero, words := hwords }

/-- Settles O40: the samples stay silent through the walk, and the encoder writes 0 for each. -/
theorem silenceStaysSilence : Obligations.SilenceStaysSilence := by
  intro s hen hlen hcfg hquiet hbytes
  refine ⟨_, exec_process hlen hcfg hen, fun a ha => ?_⟩
  have hsilent : SilentRun (callSamples s) :=
    runLoop_keeps (fun _ h hi => slot_keeps_silentRun h hi) (nsmp s) (silentRun_callDecoded hlen hquiet hbytes)
  have hin : a / bps s < nsmp s := div_bps_lt_nsmp hlen ha
  have hint := encodeInt_of_isSilent (callSamples s).ctrl.width (hsilent.words _ (by rwa [callSamples_nsmp]))
  rw [callDone, pcmByte_done, pcmByte_encodeUpTo, callSamples_bps, if_pos hin, hint, encodedByte_zero]

end Sys2Proof.Machine
end

section
/-! How commands end (60_exceptions.md R161, R163, R173): what a raise changes, and the code of each body's first failing check. -/

namespace Sys2Proof.Machine

/-! ### The idle step (R173) -/

/-- Settles O7: with an empty inbox `nextEvent` answers the state itself. -/
theorem idleStepChangesNothing : Obligations.IdleStepChangesNothing := by
  intro s hidle
  rw [step, nextEvent, hidle]

/-! ### A raise (R163) -/

/-- Every flag of `raise`, set or kept, as one record. -/
theorem raise_eq (c : ResultCode) (s : State) : raise c s = { s with status :=
    { s.status with
      result := c
      eLen := s.status.eLen || c == .invalidBufferLength
      eCfg := s.status.eCfg || c == .invalidConfiguration
      eCmd := s.status.eCmd || c == .illegalCommand
      eSeq := s.status.eSeq || c == .notConfigured
      eIdx := s.status.eIdx || c == .indexOutOfRange } } := by
  cases c <;> simp [raise, setSticky]

/-- Settles O10: a body that completes ends OK, and one that fails is a raise on the old state. -/
theorem failingCommandChangesOnlyStatus : Obligations.FailingCommandChangesOnlyStatus := by
  intro i s t hexec hfails
  rw [exec_eq_finish_commandBody] at hexec
  obtain rfl := Host.Outcome.next.inj hexec
  cases hbody : commandBody i s with
  | ok u =>
    rw [hbody] at hfails
    exact absurd rfl hfails
  | error c =>
    have hresult : (raise c s).status.result = c := setSticky_result c _
    rw [finish_error, hresult]
    exact raise_eq c s

/-! ### The first failing check (R161) -/

/-- The result code that a body ends with: OK, or that of its first failing check. -/
def bodyResult : Except ResultCode State → ResultCode
  | .ok _ => .ok
  | .error c => c

@[simp] theorem bodyResult_ok (t : State) : bodyResult (.ok t) = .ok := rfl
@[simp] theorem bodyResult_error (c : ResultCode) : bodyResult (.error c) = c := rfl

theorem finish_result (s : State) (b : Except ResultCode State) : (finish s b).status.result = bodyResult b := by
  cases b with
  | ok t => rfl
  | error c => exact setSticky_result c _

theorem bodyResult_requireConfigured (s : State) (b : Except ResultCode State) :
    bodyResult (requireConfigured s b) = if s.status.cfgValid = false then .notConfigured else bodyResult b := by
  rcases requireConfigured_cases s b with ⟨hv, e⟩ | ⟨hv, e⟩ <;> simp [e, hv]

theorem bodyResult_requireIndex (idx : Nat) (s : State) (b : Except ResultCode State) :
    bodyResult (requireIndex idx s b) = if s.par.pcmBytes ≤ idx then .indexOutOfRange else bodyResult b := by
  rcases requireIndex_cases idx s b with ⟨hi, e⟩ | ⟨hi, e⟩
  · rw [smpWords] at hi
    rw [e, if_neg (Nat.not_le.2 hi)]
  · rw [smpWords] at hi
    rw [e, if_pos (Nat.not_lt.1 hi), bodyResult_error]

theorem bodyResult_decodeBody (s : State) :
    bodyResult (decodeBody s) = if lenOk s = false then .invalidBufferLength else .ok := by
  cases h : lenOk s <;> simp [decodeBody, h]

theorem bodyResult_encodeBody (s : State) :
    bodyResult (encodeBody s) = if lenOk s = false then .invalidBufferLength else .ok := by
  cases h : lenOk s <;> simp [encodeBody, h]

/-- `LOADP` fails exactly for a number above `N_PRESETS`; 0 is the sentinel (R82). -/
theorem bodyResult_loadpBody (id : Nat) (s : State) :
    bodyResult (loadpBody id s) = if s.par.rom.length < id then .invalidConfiguration else .ok := by
  have hnone := romRecord_eq_none_iff s.par id
  rw [nPresets] at hnone
  rcases loadpBody_cases id s with ⟨hzero, e⟩ | ⟨r, hid, hr, e⟩ | ⟨hid, hr, e⟩
  · rw [e, hzero, if_neg (Nat.not_lt_zero _), bodyResult_ok]
  · have habove : ¬ s.par.rom.length < id := fun h => by simp [hnone.2 (.inr h)] at hr
    rw [e, if_neg habove, bodyResult_ok]
  · rw [e, if_pos ((hnone.1 hr).resolve_left hid), bodyResult_error]

theorem bodyResult_setupBody (s : State) : bodyResult (setupBody s) =
    if lenOk s = false then .invalidBufferLength else if cfgOk s = false then .invalidConfiguration else .ok := by
  rcases setupBody_cases s with ⟨hlen, hcfg, e⟩ | ⟨hlen, hcfg, e⟩ | ⟨hlen, e⟩
  · simp [e, hlen, hcfg]
  · simp [e, hlen, hcfg]
  · simp [e, hlen]

theorem bodyResult_stepBody (s : State) :
    bodyResult (if s.seq.idx.toNat < nsmp s then .ok (slot s) else .error .indexOutOfRange) =
      if nsmp s ≤ s.seq.idx.toNat then .indexOutOfRange else .ok := by
  by_cases h : s.seq.idx.toNat < nsmp s
  · rw [if_pos h, if_neg (Nat.not_le.2 h), bodyResult_ok]
  · rw [if_neg h, if_pos (Nat.not_lt.1 h), bodyResult_error]

/-- `PROCESS` ends with the code of its `SETUP`: once that completes, the checks of the three other parts pass (R127). -/
theorem bodyResult_processBody (s : State) :
    bodyResult (processBody s) = if s.ctrl.en = false then .ok else bodyResult (setupBody s) := by
  cases hen : s.ctrl.en with
  | false => rw [processBody, hen, if_neg Bool.false_ne_true, if_pos rfl, bodyResult_ok]
  | true =>
    rw [if_neg (by decide)]
    rcases setupBody_cases s with ⟨hlen, hcfg, e⟩ | ⟨-, -, e⟩ | ⟨-, e⟩
    · rw [processBody_of_valid hen hlen hcfg, e, bodyResult_ok, bodyResult_ok]
    · simp [processBody, hen, e]
    · simp [processBody, hen, e]

/-- Settles O11: an illegal word has no body; each command's body is its checks, in order, before its work. -/
theorem commandEndsWithTheFirstFailingCheck : Obligations.CommandEndsWithTheFirstFailingCheck := by
  intro cw s t htake
  rw [takeEvent_issue, command_eq_finish_wordBody] at htake
  obtain rfl := Host.Outcome.next.inj htake
  have hresult := finish_result s (wordBody cw s)
  rw [wordBody] at hresult
  refine hresult.trans ?_
  cases decode cw with
  | error e => rfl
  | ok i =>
    cases i with
    | nop | clrerr | ndraw | bqclr => rfl
    | loadp id => exact bodyResult_loadpBody id s
    | setup => exact bodyResult_setupBody s
    | decode => exact bodyResult_decodeBody s
    | encode => exact bodyResult_encodeBody s
    | lds idx | sts idx => exact bodyResult_requireIndex idx s _
    | dist | bcr | noise | bq | gain | chain | run => exact bodyResult_requireConfigured s _
    | step => exact (bodyResult_requireConfigured s _).trans (by rw [bodyResult_stepBody])
    | process => exact (bodyResult_processBody s).trans (by rw [bodyResult_setupBody])

end Sys2Proof.Machine
end

section
/-! Rounding once (47_numerics.md R141), said without the computation: the pattern that `roundMag` forms is the nearest of all
patterns, ties to even, and it is finite exactly below the overflow bound. What the four operations do on finite operands is read
off this one fact, with the sign put back. -/

namespace Sys2Proof.Machine

/-! ### The nearest pattern -/

/-- `r` is the pattern nearest to `n / d` units of 2^-149, ties to even: the middle between `r` and any pattern below lies at
most at `n / d`, the middle between `r` and any pattern above at least there, and one of them at `n / d` itself only for an
even `r`. -/
structure IsNearest (n d r : Nat) : Prop where
  below {q : Nat} (h : q < r) : (magnitudeUnits q + magnitudeUnits r) * d ≤ 2 * n
  above {q : Nat} (h : r < q) : 2 * n ≤ (magnitudeUnits r + magnitudeUnits q) * d
  tie {q : Nat} (h : q ≠ r) (heq : (magnitudeUnits q + magnitudeUnits r) * d = 2 * n) : r % 2 = 0

/-- The pattern `roundMag` computes before it is cut at infinity. -/
def roundPattern (n d : Nat) : Nat :=
  ((n / d).log2 - 23) * 2 ^ 23 + roundQuot n (d * 2 ^ ((n / d).log2 - 23))

theorem roundMag_eq_min (n d : Nat) : roundMag n d = min (roundPattern n d) infMagnitude := roundMag_eq_roundQuot n d

theorem magnitudeUnits_mul_lt {d p q : Nat} (hd : 0 < d) (h : p < q) : magnitudeUnits p * d < magnitudeUnits q * d :=
  Nat.mul_lt_mul_of_pos_right (magnitudeUnits_strictMono h) hd

theorem magnitudeUnits_mul_le {p q : Nat} (d : Nat) (h : p ≤ q) : magnitudeUnits p * d ≤ magnitudeUnits q * d :=
  Nat.mul_le_mul_right d (magnitudeUnits_strictMono.monotone h)

section
variable {n d p : Nat} (hd : 0 < d)
include hd

/-- The lower neighbour is nearest when the middle of the two is not below, and not at it with an odd lower neighbour. -/
theorem isNearest_lower (hlo : magnitudeUnits p * d ≤ n)
    (hmid : 2 * n ≤ (magnitudeUnits p + magnitudeUnits (p + 1)) * d)
    (heven : (magnitudeUnits p + magnitudeUnits (p + 1)) * d = 2 * n → p % 2 = 0) : IsNearest n d p := by
  rw [Nat.add_mul] at hmid heven
  constructor
  case below =>
    intro q hq
    have := magnitudeUnits_mul_lt hd hq
    rw [Nat.add_mul]
    omega
  case above =>
    intro q hq
    have := magnitudeUnits_mul_le d (show p + 1 ≤ q from hq)
    rw [Nat.add_mul]
    omega
  case tie =>
    intro q hne heq
    rw [Nat.add_mul] at heq
    obtain hq | hq := Nat.lt_or_gt_of_ne hne
    · have := magnitudeUnits_mul_lt hd hq
      omega
    · have := magnitudeUnits_mul_le d (show p + 1 ≤ q from hq)
      exact heven (by omega)

/-- The upper neighbour is nearest when the middle of the two is not above, and not at it with an even lower neighbour. -/
theorem isNearest_upper (hhi : n < magnitudeUnits (p + 1) * d)
    (hmid : (magnitudeUnits p + magnitudeUnits (p + 1)) * d ≤ 2 * n)
    (hodd : (magnitudeUnits p + magnitudeUnits (p + 1)) * d = 2 * n → p % 2 = 1) : IsNearest n d (p + 1) := by
  rw [Nat.add_mul] at hmid hodd
  constructor
  case below =>
    intro q hq
    have := magnitudeUnits_mul_le d (Nat.le_of_lt_succ hq)
    rw [Nat.add_mul]
    omega
  case above =>
    intro q hq
    have := magnitudeUnits_mul_lt hd hq
    rw [Nat.add_mul]
    omega
  case tie =>
    intro q hne heq
    rw [Nat.add_mul] at heq
    obtain hq | hq := Nat.lt_or_gt_of_ne hne
    · have := magnitudeUnits_mul_le d (Nat.le_of_lt_succ hq)
      have := hodd (by omega)
      omega
    · have := magnitudeUnits_mul_lt hd hq
      omega

end

/-- The significand `n / unit` before rounding: it has at most 24 bits, and all 24 unless the exponent is the least one. -/
theorem truncated_significand_bounds (n d : Nat) :
    let k := (n / d).log2 - 23
    (k = 0 ∨ 2 ^ 23 ≤ n / (d * 2 ^ k)) ∧ n / (d * 2 ^ k) < 2 ^ 24 := by
  intro k
  have hlt : n / d < 2 ^ (24 + k) :=
    lt_of_lt_of_le Nat.lt_log2_self (Nat.pow_le_pow_right (by decide) (by omega))
  rw [← Nat.div_div_eq_div_mul]
  constructor
  · obtain hk | hk := Nat.eq_zero_or_pos k
    · exact .inl hk
    · have hne : n / d ≠ 0 := fun h => by
        have : k = 0 := by simp [k, h]
        omega
      have hge : 2 ^ (23 + k) ≤ n / d := (show (n / d).log2 = 23 + k by omega) ▸ Nat.log2_self_le hne
      exact .inr ((Nat.le_div_iff_mul_le (Nat.two_pow_pos k)).2 (by rwa [← pow_add]))
  · exact (Nat.div_lt_iff_lt_mul (Nat.two_pow_pos k)).2 (by rwa [← pow_add])

/-- What `roundMag` computes is the nearest pattern: its unit is the distance of the two patterns that `n / d` lies between, and
its remainder the distance from the lower one. -/
theorem isNearest_roundPattern (n : Nat) {d : Nat} (hd : 0 < d) : IsNearest n d (roundPattern n d) := by
  obtain ⟨hlo, hhi⟩ := truncated_significand_bounds n d
  rw [roundPattern, roundQuot]
  generalize (n / d).log2 - 23 = k at hlo hhi ⊢
  have hsplit := Nat.div_add_mod' n (d * 2 ^ k)
  have hrest := Nat.mod_lt n (show 0 < d * 2 ^ k by positivity)
  generalize n / (d * 2 ^ k) = m at hlo hhi hsplit ⊢
  generalize n % (d * 2 ^ k) = r at hsplit hrest ⊢
  have hlower : magnitudeUnits (k * 2 ^ 23 + m) * d = m * (d * 2 ^ k) := by
    rw [magnitudeUnits_significand hlo hhi.le]
    ring
  have hupper : magnitudeUnits (k * 2 ^ 23 + m + 1) * d = m * (d * 2 ^ k) + d * 2 ^ k := by
    rw [Nat.add_assoc, magnitudeUnits_significand (by omega) (show m + 1 ≤ 2 ^ 24 from hhi)]
    ring
  have hparity : (k * 2 ^ 23 + m) % 2 = m % 2 := by omega
  rw [← Nat.add_assoc]
  split
  · exact isNearest_upper hd (by omega) (by rw [Nat.add_mul]; omega) (by rw [Nat.add_mul]; omega)
  · rw [Nat.add_zero]
    exact isNearest_lower hd (by omega) (by rw [Nat.add_mul]; omega) (by rw [Nat.add_mul]; omega)

namespace IsNearest

/-- A value that is a pattern's own is nearest to no other pattern. -/
theorem eq_of_exact {d r m : Nat} (hd : 0 < d) (h : IsNearest (magnitudeUnits m * d) d r) : r = m := by
  obtain hlt | heq | hgt := Nat.lt_trichotomy r m
  · have hmid := h.above hlt
    have := magnitudeUnits_mul_lt hd hlt
    rw [Nat.add_mul] at hmid
    omega
  · exact heq
  · have hmid := h.below hgt
    have := magnitudeUnits_mul_lt hd hgt
    rw [Nat.add_mul] at hmid
    omega

/-- No pattern is nearer, in terms of distances. -/
theorem dist_le {n d r : Nat} (hd : 0 < d) (h : IsNearest n d r) (q : Nat) :
    |(n : Int) - magnitudeUnits r * d| ≤ |(n : Int) - magnitudeUnits q * d| ∧
      (|(n : Int) - magnitudeUnits r * d| = |(n : Int) - magnitudeUnits q * d| → q ≠ r → r % 2 = 0) := by
  have htie := h.tie (q := q)
  rw [Nat.add_mul] at htie
  simp only [Int.abs_eq_natAbs, ← Int.natCast_mul]
  obtain hq | rfl | hq := Nat.lt_trichotomy q r
  · have := magnitudeUnits_mul_lt hd hq
    have hmid := h.below hq
    rw [Nat.add_mul] at hmid
    exact ⟨by omega, fun heq hne => htie hne (by omega)⟩
  · exact ⟨le_refl _, fun _ hne => absurd rfl hne⟩
  · have := magnitudeUnits_mul_lt hd hq
    have hmid := h.above hq
    rw [Nat.add_mul] at hmid
    exact ⟨by omega, fun heq hne => htie hne (by omega)⟩

end IsNearest

/-- Rounding keeps the order. -/
theorem roundPattern_mono {n n' d : Nat} (hd : 0 < d) (h : n ≤ n') : roundPattern n d ≤ roundPattern n' d := by
  obtain rfl | hlt := Nat.eq_or_lt_of_le h
  · exact le_refl _
  · by_contra hgt
    have hbelow := (isNearest_roundPattern n hd).below (Nat.lt_of_not_le hgt)
    have habove := (isNearest_roundPattern n' hd).above (Nat.lt_of_not_le hgt)
    omega

theorem roundMag_mono {n n' d : Nat} (hd : 0 < d) (h : n ≤ n') : roundMag n d ≤ roundMag n' d := by
  rw [roundMag_eq_min, roundMag_eq_min]
  exact min_le_min_right _ (roundPattern_mono hd h)

/-- A value of the format is its own rounding. -/
theorem roundMag_magnitudeUnits {m : Nat} (h : m ≤ infMagnitude) : roundMag (magnitudeUnits m) 1 = m := by
  have hnearest := isNearest_roundPattern (magnitudeUnits m * 1) Nat.one_pos
  rw [← Nat.mul_one (magnitudeUnits m), roundMag_eq_min, hnearest.eq_of_exact Nat.one_pos, Nat.min_eq_left h]

/-! ### Overflow (R141; log 10) -/

/-- The overflow bound `(2 - 2^-24) * 2^127` in units of 2^-149: the middle of the greatest finite pattern and that of infinity. -/
def overflowUnits : Nat := (2 ^ 25 - 1) * 2 ^ 252

theorem two_mul_overflowUnits :
    magnitudeUnits (infMagnitude - 1) + magnitudeUnits infMagnitude = 2 * overflowUnits := by
  have hmax : magnitudeUnits (infMagnitude - 1) = (2 ^ 24 - 1) * 2 ^ 253 :=
    magnitudeUnits_significand (k := 253) (m := 2 ^ 24 - 1) (.inr (by decide)) (by decide)
  have hinf : magnitudeUnits infMagnitude = 2 ^ 24 * 2 ^ 253 := 
    magnitudeUnits_significand (k := 253) (m := 2 ^ 24) (.inr (by decide)) le_rfl
  rw [hmax, hinf, overflowUnits, pow_succ 2 252]
  ring

/-- Rounding overflows exactly from the bound up; the bound itself is a tie, and the greatest finite pattern is odd. -/
theorem roundMag_lt_infMagnitude_iff (n : Nat) {d : Nat} (hd : 0 < d) :
    roundMag n d < infMagnitude ↔ n < overflowUnits * d := by
  have hnearest := isNearest_roundPattern n hd
  have hbound : magnitudeUnits (infMagnitude - 1) * d + magnitudeUnits infMagnitude * d = 2 * (overflowUnits * d) := by
    rw [← Nat.add_mul, two_mul_overflowUnits, Nat.mul_assoc]
  have hmin : roundMag n d < infMagnitude ↔ roundPattern n d < infMagnitude := by
    rw [roundMag_eq_min, min_lt_iff, or_iff_left (lt_irrefl _)]
  rw [hmin]
  constructor
  · intro hfinite
    have habove := hnearest.above hfinite
    have htie := hnearest.tie (Nat.ne_of_gt hfinite)
    rw [Nat.add_mul] at habove htie
    obtain hlt | heq := Nat.lt_or_eq_of_le (Nat.le_sub_one_of_lt hfinite)
    · have := magnitudeUnits_mul_lt hd hlt
      omega
    · rw [heq] at habove htie
      have hodd : ¬ (infMagnitude - 1) % 2 = 0 := by decide
      by_contra hge
      exact hodd (htie (by omega))
  · intro hbelow
    by_contra hover
    have hpred : infMagnitude - 1 < roundPattern n d :=
      lt_of_lt_of_le (Nat.sub_lt (by decide) Nat.one_pos) (Nat.le_of_not_lt hover)
    have hmid := hnearest.below hpred
    rw [Nat.add_mul] at hmid
    have := magnitudeUnits_mul_le d (Nat.le_of_not_lt hover)
    omega

theorem roundMag_eq_infMagnitude_iff (n : Nat) {d : Nat} (hd : 0 < d) :
    roundMag n d = infMagnitude ↔ overflowUnits * d ≤ n := by
  rw [← Nat.not_lt, ← roundMag_lt_infMagnitude_iff n hd]
  have := roundMag_le n d
  omega

/-- A finite rounding is the nearest pattern. -/
theorem isNearest_roundMag {n d : Nat} (hd : 0 < d) (h : roundMag n d < infMagnitude) : IsNearest n d (roundMag n d) := by
  have hmin := roundMag_eq_min n d
  rw [show roundMag n d = roundPattern n d by omega]
  exact isNearest_roundPattern n hd

end Sys2Proof.Machine
end

section
/-! The four operations on finite operands (47_numerics.md R141): each gives a sign and the rounded magnitude of the exact result,
which is the nearest value, ties to even, and finite exactly below the overflow bound. -/

namespace Sys2Proof.Machine

/-! ### Signs and magnitudes (R140, R146) -/

/-- A magnitude in units of 2^-149 with its sign. -/
def signedUnits (neg : Bool) (n : Nat) : Int := if neg then -(n : Int) else n

theorem fInt_eq_signedUnits (a : F32) : fInt a = signedUnits (fSign a) (fScaled a) := rfl

@[simp] theorem natAbs_signedUnits (neg : Bool) (n : Nat) : (signedUnits neg n).natAbs = n := by
  cases neg <;> simp [signedUnits]

@[simp] theorem signedUnits_zero (neg : Bool) : signedUnits neg 0 = 0 := by cases neg <;> rfl

theorem signedUnits_not (neg : Bool) (n : Nat) : signedUnits (!neg) n = -signedUnits neg n := by
  cases neg <;> simp [signedUnits]

theorem signedUnits_mul (p q : Bool) (m n : Nat) :
    signedUnits p m * signedUnits q n = signedUnits (p != q) (m * n) := by
  cases p <;> cases q <;> simp [signedUnits]

theorem signedUnits_decide_natAbs (e : Int) : signedUnits (decide (e < 0)) e.natAbs = e := by
  by_cases h : e < 0
  · rw [signedUnits, decide_eq_true h, if_pos rfl]
    omega
  · rw [signedUnits, decide_eq_false h, if_neg Bool.false_ne_true]
    omega

theorem signedUnits_mul_natCast (neg : Bool) (m n : Nat) : signedUnits neg (m * n) = signedUnits neg m * n := by
  cases neg <;> simp [signedUnits]

theorem natAbs_fInt (a : F32) : (fInt a).natAbs = fScaled a := natAbs_signedUnits _ _

theorem fInt_eq_zero_iff (a : F32) : fInt a = 0 ↔ fScaled a = 0 := by rw [← Int.natAbs_eq_zero, natAbs_fInt]

theorem isZero_iff_fInt (a : F32) : isZero a = true ↔ fInt a = 0 := by rw [isZero_iff_fScaled, fInt_eq_zero_iff]

theorem fInt_pack {m : Nat} (h : m < 2 ^ 31) (neg : Bool) : fInt (pack neg m) = signedUnits neg (magnitudeUnits m) := by
  rw [fInt_eq_signedUnits, fSign_pack h, fScaled_pack h]

/-- Bit 0 of a pattern is the parity of its magnitude. -/
theorem getLsbD_zero_pack {m : Nat} (h : m < 2 ^ 31) (neg : Bool) : (pack neg m).getLsbD 0 = decide (m % 2 = 1) := by
  rw [BitVec.getLsbD, pack_toNat h, Nat.testBit_zero]
  cases neg
  · simp
  · exact decide_eq_decide.2 (by simp only [if_true]; omega)

theorem fneg_eq_pack (a : F32) : fneg a = pack (!fSign a) (fMagnitude a) := by
  rw [← pack_fSign_fMagnitude (fneg a), fSign_fneg, fMagnitude_fneg]

theorem fneg_pack {m : Nat} (h : m < 2 ^ 31) (neg : Bool) : fneg (pack neg m) = pack (!neg) m := by
  rw [fneg_eq_pack, fSign_pack h, fMagnitude_pack h]

@[simp] theorem fneg_fneg (a : F32) : fneg (fneg a) = a := by
  rw [fneg_eq_pack, fSign_fneg, fMagnitude_fneg, Bool.not_not, pack_fSign_fMagnitude]

@[simp] theorem isNan_fneg (a : F32) : isNan (fneg a) = isNan a := by
  rw [Bool.eq_iff_iff, isNan_iff, isNan_iff, fMagnitude_fneg]

@[simp] theorem isInf_fneg (a : F32) : isInf (fneg a) = isInf a := by
  rw [Bool.eq_iff_iff, isInf_iff, isInf_iff, fMagnitude_fneg]

@[simp] theorem isFinite_fneg (a : F32) : isFinite (fneg a) = isFinite a := by
  rw [Bool.eq_iff_iff, isFinite_iff, isFinite_iff, fMagnitude_fneg]

@[simp] theorem fInt_fneg (a : F32) : fInt (fneg a) = -fInt a := by
  rw [fInt_eq_signedUnits, fSign_fneg, fScaled_eq, fMagnitude_fneg, ← fScaled_eq, signedUnits_not, ← fInt_eq_signedUnits]

/-! ### The nearest value -/

/-- `x` is a value nearest to `e / d` units of 2^-149, and its bit 0 is clear if another one is equally near (R141). -/
def NearestValue (e : Int) (d : Nat) (x : F32) : Prop :=
  ∀ c : F32, |e - fInt x * d| ≤ |e - fInt c * d| ∧
    (|e - fInt x * d| = |e - fInt c * d| → fInt c ≠ fInt x → x.getLsbD 0 = false)

/-- The distance of two values of one sign is that of their magnitudes. -/
theorem abs_signedUnits_sub (neg : Bool) (n m d : Nat) :
    |signedUnits neg n - signedUnits neg m * d| = |(n : Int) - m * d| := by
  cases neg with
  | false => simp [signedUnits]
  | true =>
    rw [← abs_neg]
    simp [signedUnits, neg_add_eq_sub]

/-- A value of the other sign is as far as the sum of the magnitudes. -/
theorem abs_signedUnits_sub_not (neg : Bool) (n m d : Nat) :
    |signedUnits neg n - signedUnits (!neg) m * d| = (n : Int) + m * d := by
  have hpos : (0 : Int) ≤ n + m * d := by positivity
  cases neg with
  | false => simpa [signedUnits] using abs_of_nonneg hpos
  | true =>
    rw [← abs_neg]
    simpa [signedUnits, add_comm] using abs_of_nonneg hpos

theorem isFinite_pack_roundMag_iff (neg : Bool) (n : Nat) {d : Nat} (hd : 0 < d) :
    isFinite (pack neg (roundMag n d)) = true ↔ n < overflowUnits * d := by
  rw [isFinite_iff, fMagnitude_pack (roundMag_lt n d), roundMag_lt_infMagnitude_iff n hd]

/-- A rounded magnitude with its sign is a nearest value: a value of the same sign is no nearer by its magnitude, and one of the
other sign is no nearer than zero. -/
theorem nearestValue_pack_roundMag {neg : Bool} {n d : Nat} (hd : 0 < d)
    (hfinite : isFinite (pack neg (roundMag n d)) = true) :
    NearestValue (signedUnits neg n) d (pack neg (roundMag n d)) := by
  have hlt := roundMag_lt n d
  rw [isFinite_iff, fMagnitude_pack hlt] at hfinite
  have hnearest := isNearest_roundMag hd hfinite
  intro c
  rw [fInt_pack hlt, getLsbD_zero_pack hlt, abs_signedUnits_sub, fInt_eq_signedUnits c, fScaled_eq]
  by_cases hsign : fSign c = neg
  · obtain ⟨hle, htie⟩ := hnearest.dist_le hd (fMagnitude c)
    rw [hsign, abs_signedUnits_sub]
    refine ⟨hle, fun heq hne => decide_eq_false ?_⟩
    have := htie heq fun h => hne (by rw [h])
    omega
  · obtain ⟨hle, htie⟩ := hnearest.dist_le hd 0
    have hzero : |(n : Int) - magnitudeUnits 0 * d| = n := by simp [magnitudeUnits_zero]
    rw [hzero] at hle htie
    rw [Bool.eq_not.2 hsign, abs_signedUnits_sub_not]
    have hunits : (0 : Int) ≤ magnitudeUnits (fMagnitude c) * d := by positivity
    refine ⟨by omega, fun heq hne => decide_eq_false ?_⟩
    have hprod : magnitudeUnits (fMagnitude c) * d = 0 := by
      zify
      omega
    have hc : magnitudeUnits (fMagnitude c) = 0 := (Nat.mul_eq_zero.1 hprod).resolve_right (Nat.ne_of_gt hd)
    have hr : 0 ≠ roundMag n d := fun h => hne (by rw [hc, ← h, magnitudeUnits_zero, signedUnits_zero, signedUnits_zero])
    have := htie (by omega) hr
    omega

/-! ### What each operation gives -/

section
variable {a b : F32} (ha : isFinite a = true) (hb : isFinite b = true)

/-- The sign of an exact sum; that of a zero sum is negative only for two negative operands (R141). -/
def sumSign (a b : F32) : Bool :=
  if fInt a + fInt b = 0 then fSign a && fSign b else decide (fInt a + fInt b < 0)

theorem signedUnits_sumSign (a b : F32) :
    signedUnits (sumSign a b) (fInt a + fInt b).natAbs = fInt a + fInt b := by
  unfold sumSign
  split
  next hzero => rw [hzero, Int.natAbs_zero, signedUnits_zero]
  next => exact signedUnits_decide_natAbs _

include ha hb

theorem fadd_of_isFinite : fadd a b = pack (sumSign a b) (roundMag (fInt a + fInt b).natAbs 1) := by
  simp only [fadd, sumSign, isNan_of_isFinite, isInf_of_isFinite, ha, hb, Bool.or_self, Bool.false_eq_true, if_false]
  split
  next hzero =>
    rw [hzero, Int.natAbs_zero, roundMag_zero]
    cases fSign a && fSign b <;> rfl
  next => rfl

theorem isFinite_fadd_iff : isFinite (fadd a b) = true ↔ (fInt a + fInt b).natAbs < overflowUnits := by
  rw [fadd_of_isFinite ha hb, isFinite_pack_roundMag_iff _ _ Nat.one_pos, Nat.mul_one]

theorem isFinite_fmul_iff : isFinite (fmul a b) = true ↔ fScaled a * fScaled b < overflowUnits * 2 ^ 149 := by
  rw [fmul_of_isFinite ha hb, isFinite_pack_roundMag_iff _ _ (Nat.two_pow_pos 149)]

theorem isFinite_fdiv_iff (hne : fScaled b ≠ 0) :
    isFinite (fdiv a b) = true ↔ fScaled a * 2 ^ 149 < overflowUnits * fScaled b := by
  rw [fdiv_of_isFinite ha hb hne, isFinite_pack_roundMag_iff _ _ (Nat.pos_of_ne_zero hne)]

theorem nearestValue_fadd (h : isFinite (fadd a b) = true) : NearestValue (fInt a + fInt b) 1 (fadd a b) := by
  rw [fadd_of_isFinite ha hb] at h ⊢
  have hnearest := nearestValue_pack_roundMag Nat.one_pos h
  rwa [signedUnits_sumSign] at hnearest

theorem nearestValue_fmul (h : isFinite (fmul a b) = true) : NearestValue (fInt a * fInt b) (2 ^ 149) (fmul a b) := by
  rw [fmul_of_isFinite ha hb] at h ⊢
  have hnearest := nearestValue_pack_roundMag (Nat.two_pow_pos 149) h
  rwa [← signedUnits_mul, ← fInt_eq_signedUnits, ← fInt_eq_signedUnits] at hnearest

/-- The quotient's distances scaled by the divisor's magnitude: its sign goes to the dividend. -/
theorem nearestValue_fdiv (hne : fScaled b ≠ 0) (h : isFinite (fdiv a b) = true) :
    NearestValue (signedUnits (fSign a != fSign b) (fScaled a * 2 ^ 149)) (fScaled b) (fdiv a b) := by
  rw [fdiv_of_isFinite ha hb hne] at h ⊢
  exact nearestValue_pack_roundMag (Nat.pos_of_ne_zero hne) h

end

/-- The distance of a value from a quotient, scaled by the divisor, whichever sign the divisor has. -/
theorem abs_quotient_dist (a b : F32) (y : Int) : |fInt a * 2 ^ 149 - y * fInt b| =
    |signedUnits (fSign a != fSign b) (fScaled a * 2 ^ 149) - y * fScaled b| := by
  have hdividend : signedUnits (fSign a) (fScaled a * 2 ^ 149) = fInt a * 2 ^ 149 := by
    rw [signedUnits_mul_natCast, ← fInt_eq_signedUnits]
    norm_num
  rw [fInt_eq_signedUnits b]
  cases fSign b with
  | false =>
    rw [Bool.bne_false, hdividend]
    rfl
  | true =>
    rw [Bool.bne_true, signedUnits_not, hdividend, ← abs_neg]
    congr 1
    rw [signedUnits, if_pos rfl]
    ring

/-- The bound of the statement, as an integer. -/
theorem overflowUnits_cast : ((overflowUnits : Nat) : Int) = (2 ^ 25 - 1) * 2 ^ 252 := by norm_num [overflowUnits]

/-- The bound of a product, in units of 2^-298. -/
theorem overflowUnits_mul_cast : ((overflowUnits * 2 ^ 149 : Nat) : Int) = (2 ^ 25 - 1) * 2 ^ 401 := by
  rw [Nat.cast_mul, overflowUnits_cast, show 401 = 252 + 149 from rfl, pow_add, mul_assoc]
  norm_num

theorem abs_fInt_mul_fInt (a b : F32) : |fInt a * fInt b| = ((fScaled a * fScaled b : Nat) : Int) := by
  rw [Int.abs_eq_natAbs, Int.natAbs_mul, natAbs_fInt, natAbs_fInt]

theorem abs_fInt_mul_two_pow (a : F32) : |fInt a * 2 ^ 149| = ((fScaled a * 2 ^ 149 : Nat) : Int) := by
  rw [Int.abs_eq_natAbs, Int.natAbs_mul, natAbs_fInt]
  rfl

theorem overflowUnits_mul_abs_fInt (b : F32) :
    (2 ^ 25 - 1) * 2 ^ 252 * |fInt b| = ((overflowUnits * fScaled b : Nat) : Int) := by
  rw [Nat.cast_mul, overflowUnits_cast, Int.abs_eq_natAbs, natAbs_fInt]

/-- The exact difference is the exact sum with the negated operand (log 12). -/
theorem fInt_sub (a b : F32) : fInt a - fInt b = fInt a + fInt (fneg b) := by rw [fInt_fneg, sub_eq_add_neg]

/-- Settles O55: below the overflow bound each operation's magnitude is finite, and a finite one is a nearest value. -/
theorem arithmeticRoundsToNearestEven : Obligations.ArithmeticRoundsToNearestEven := by
  have hsumFinite : ∀ a b : F32, isFinite a = true → isFinite b = true →
      |fInt a + fInt b| < (2 ^ 25 - 1) * 2 ^ 252 → isFinite (fadd a b) = true := fun a b ha hb h => by
    rw [Int.abs_eq_natAbs, ← overflowUnits_cast] at h
    exact (isFinite_fadd_iff ha hb).2 (Int.ofNat_lt.1 h)
  have hsumNearest : ∀ a b c : F32, isFinite a = true → isFinite b = true → isFinite (fadd a b) = true →
      |fInt a + fInt b - fInt (fadd a b)| ≤ |fInt a + fInt b - fInt c| ∧
      (|fInt a + fInt b - fInt (fadd a b)| = |fInt a + fInt b - fInt c| → fInt c ≠ fInt (fadd a b) →
        (fadd a b).getLsbD 0 = false) := fun a b c ha hb h => by
    have hnearest := nearestValue_fadd ha hb h c
    rwa [Nat.cast_one, mul_one, mul_one] at hnearest
  constructor
  · refine fun a b ha hb => ⟨hsumFinite a b ha hb, fun h => ?difference, fun h => ?product, fun hne h => ?quotient⟩
    case difference => exact hsumFinite a (fneg b) ha ((isFinite_fneg b).trans hb) (fInt_sub a b ▸ h)
    case product =>
      rw [abs_fInt_mul_fInt, ← overflowUnits_mul_cast] at h
      exact (isFinite_fmul_iff ha hb).2 (Int.ofNat_lt.1 h)
    case quotient =>
      rw [abs_fInt_mul_two_pow, overflowUnits_mul_abs_fInt] at h
      exact (isFinite_fdiv_iff ha hb (mt (fInt_eq_zero_iff b).2 hne)).2 (Int.ofNat_lt.1 h)
  · refine fun a b c ha hb _ => ⟨hsumNearest a b c ha hb, ?difference, fun h => ?product, fun h hne => ?quotient⟩
    case difference =>
      rw [fInt_sub]
      exact hsumNearest a (fneg b) c ha ((isFinite_fneg b).trans hb)
    case product => exact nearestValue_fmul ha hb h c
    case quotient =>
      rw [abs_quotient_dist, abs_quotient_dist]
      exact nearestValue_fdiv ha hb (mt (fInt_eq_zero_iff b).2 hne) h c

end Sys2Proof.Machine
end

section
/-! Special operands and results (47_numerics.md R141): NaNs, infinities, zeros, signs and overflow, operation by operation. The two
zeros and the two infinities are patterns of a sign and a magnitude, so each case is one lemma for both signs. -/

namespace Sys2Proof.Machine

/-! ### The patterns of the table -/

/-- A sign as the word of bit 31 alone. -/
theorem and_signBit (a : F32) : a &&& 0x80000000 = pack (fSign a) 0 := by
  have hbit : (0x80000000 : F32) = BitVec.twoPow 32 31 := by decide
  rw [hbit, BitVec.and_twoPow, fSign]
  cases a.getLsbD 31 <;> rfl

theorem fSign_xor (a b : F32) : fSign (a ^^^ b) = (fSign a != fSign b) := BitVec.getLsbD_xor

/-- The zero whose sign is the exclusive or of the operands' signs. -/
theorem zeroOfSigns (a b : F32) : (a ^^^ b) &&& 0x80000000 = pack (fSign a != fSign b) 0 := by
  rw [and_signBit, fSign_xor]

/-- The infinity whose sign is the exclusive or of the operands' signs. -/
theorem infOfSigns (a b : F32) : 0x7F800000 ||| ((a ^^^ b) &&& 0x80000000) = fInf (fSign a != fSign b) := by
  rw [zeroOfSigns]
  cases fSign a != fSign b <;> rfl

theorem isInf_of_mem {i : F32} (h : i ∈ ([0x7F800000, 0xFF800000] : List F32)) : isInf i = true := by
  obtain rfl | rfl := List.mem_pair.1 h
  · decide
  · decide

theorem isZero_of_mem {z : F32} (h : z ∈ ([0x00000000, 0x80000000] : List F32)) : isZero z = true := by
  obtain rfl | rfl := List.mem_pair.1 h
  · decide
  · decide

theorem isNan_of_isInf {i : F32} (h : isInf i = true) : isNan i = false := by
  rw [← Bool.not_eq_true, isNan_iff, (isInf_iff i).1 h]
  exact lt_irrefl _

theorem isZero_of_isInf {i : F32} (h : isInf i = true) : isZero i = false := by
  rw [← Bool.not_eq_true, isZero_iff, (isInf_iff i).1 h]
  decide

/-! ### NaN operands and the invalid combinations -/

theorem nan_operand {a b : F32} (h : isNan a = true ∨ isNan b = true) :
    fadd a b = qNaN ∧ fsub a b = qNaN ∧ fmul a b = qNaN ∧ fdiv a b = qNaN := by
  have hor : (isNan a || isNan b) = true := Bool.or_eq_true_iff.2 h
  have hneg : (isNan a || isNan (fneg b)) = true := by rwa [isNan_fneg]
  exact ⟨if_pos hor, if_pos hneg, if_pos hor, if_pos hor⟩

section
variable {i j z x : F32} (hi : isInf i = true) (hj : isInf j = true) (hz : isZero z = true) (hx : isFinite x = true)
include hi

theorem fadd_inf_neg : fadd i (fneg i) = qNaN := by
  simp [fadd, isNan_of_isInf hi, hi]

theorem fsub_inf_self : fsub i i = qNaN := fadd_inf_neg hi

theorem fadd_inf_self : fadd i i = i := by
  simp [fadd, isNan_of_isInf hi, hi]

theorem fsub_inf_neg : fsub i (fneg i) = i := by
  rw [fsub, fneg_fneg, fadd_inf_self hi]

include hj in
theorem fdiv_inf_inf : fdiv i j = qNaN := by
  simp [fdiv, isNan_of_isInf hi, isNan_of_isInf hj, hi, hj]

include hj in
theorem fmul_inf_inf : fmul i j = fInf (fSign i != fSign j) := by
  simp [fmul, isNan_of_isInf hi, isNan_of_isInf hj, isZero_of_isInf hi, isZero_of_isInf hj, hi]

include hz in
theorem fmul_zero_inf : fmul z i = qNaN := by
  simp [fmul, isNan_of_isInf hi, isNan_of_isFinite (isFinite_of_isZero hz), hi, hz]

/-! ### An infinity and a finite operand -/

include hx

theorem fadd_inf_finite : fadd i x = i := by
  simp [fadd, isNan_of_isInf hi, isNan_of_isFinite hx, isInf_of_isFinite hx, hi]

theorem fadd_finite_inf : fadd x i = i := by
  simp [fadd, isNan_of_isInf hi, isNan_of_isFinite hx, isInf_of_isFinite hx, hi]

theorem fsub_inf_finite : fsub i x = i := fadd_inf_finite hi ((isFinite_fneg x).trans hx)

theorem fsub_finite_inf : fsub x i = fneg i := fadd_finite_inf ((isInf_fneg i).trans hi) hx

theorem fdiv_inf_finite : fdiv i x = fInf (fSign i != fSign x) := by
  simp [fdiv, isNan_of_isInf hi, isNan_of_isFinite hx, isInf_of_isFinite hx, hi]

theorem fdiv_finite_inf : fdiv x i = pack (fSign x != fSign i) 0 := by
  simp [fdiv, isNan_of_isInf hi, isNan_of_isFinite hx, isInf_of_isFinite hx, hi]

theorem fmul_inf_finite (hne : fInt x ≠ 0) : fmul i x = fInf (fSign i != fSign x) := by
  have hzero : isZero x = false := Bool.eq_false_iff.2 (mt (isZero_iff_fInt x).1 hne)
  simp [fmul, isNan_of_isInf hi, isNan_of_isFinite hx, isZero_of_isInf hi, hzero, hi]

end

/-! ### Division by a zero -/

theorem fdiv_zero_zero {y z : F32} (hy : isZero y = true) (hz : isZero z = true) : fdiv y z = qNaN := by
  have hyfin := isFinite_of_isZero hy
  have hzfin := isFinite_of_isZero hz
  simp [fdiv, isNan_of_isFinite, isInf_of_isFinite, hyfin, hzfin, hy, hz]

theorem fdiv_finite_zero {x z : F32} (hx : isFinite x = true) (hne : fInt x ≠ 0) (hz : isZero z = true) :
    fdiv x z = fInf (fSign x != fSign z) := by
  have hzfin := isFinite_of_isZero hz
  have hzero : isZero x = false := Bool.eq_false_iff.2 (mt (isZero_iff_fInt x).1 hne)
  simp [fdiv, isNan_of_isFinite, isInf_of_isFinite, hx, hzfin, hz, hzero]

/-! ### The sign of a product and of a quotient -/

theorem fSign_fInf (neg : Bool) : fSign (fInf neg) = neg := fSign_pack (by decide) neg

theorem fSign_fmul {a b : F32} (h : isNan (fmul a b) = false) : fSign (fmul a b) = (fSign a != fSign b) := by
  have hnan : ¬ isNan qNaN = false := by decide
  unfold fmul at h ⊢
  dsimp only at h ⊢
  split_ifs at h ⊢
  · exact absurd h hnan
  · exact absurd h hnan
  · exact fSign_fInf _
  · exact fSign_pack (roundMag_lt _ _) _

theorem fSign_fdiv {a b : F32} (h : isNan (fdiv a b) = false) : fSign (fdiv a b) = (fSign a != fSign b) := by
  have hnan : ¬ isNan qNaN = false := by decide
  unfold fdiv at h ⊢
  dsimp only at h ⊢
  split_ifs at h ⊢
  · exact absurd h hnan
  · exact absurd h hnan
  · exact fSign_fInf _
  · exact fSign_pack (by decide) _
  · exact absurd h hnan
  · exact fSign_fInf _
  · exact fSign_pack (roundMag_lt _ _) _

/-! ### Exact zeros and overflow -/

section
variable {a b : F32} (ha : isFinite a = true) (hb : isFinite b = true)
include ha hb

/-- An exact zero sum is `+0.0`, unless both operands are `-0.0`. -/
theorem fadd_exact_zero (hsum : fInt a + fInt b = 0) (hnot : ¬ (a = 0x80000000 ∧ b = 0x80000000)) :
    fadd a b = 0x00000000 := by
  have hsign : sumSign a b = false := by
    rw [sumSign, if_pos hsum, Bool.and_eq_false_iff]
    by_contra hboth
    rw [not_or, Bool.not_eq_false, Bool.not_eq_false] at hboth
    obtain ⟨hna, hnb⟩ := hboth
    have hunits := hsum
    rw [fInt, fInt, if_pos hna, if_pos hnb] at hunits
    have hza : pack (fSign a) 0 = a := pack_fSign_of_isZero ((isZero_iff_fScaled a).2 (by omega))
    have hzb : pack (fSign b) 0 = b := pack_fSign_of_isZero ((isZero_iff_fScaled b).2 (by omega))
    rw [hna] at hza
    rw [hnb] at hzb
    exact hnot ⟨hza.symm, hzb.symm⟩
  rw [fadd_of_isFinite ha hb, hsum, hsign, Int.natAbs_zero, roundMag_zero]
  rfl

theorem fadd_overflow (h : overflowUnits < (fInt a + fInt b).natAbs) : fadd a b = fInf (decide (fInt a + fInt b < 0)) := by
  have hne : fInt a + fInt b ≠ 0 := by omega
  rw [fadd_of_isFinite ha hb, sumSign, if_neg hne, (roundMag_eq_infMagnitude_iff _ Nat.one_pos).2 (by omega), fInf]

theorem fadd_overflow_pos (h : (2 ^ 25 - 1) * 2 ^ 252 < fInt a + fInt b) : fadd a b = 0x7F800000 := by
  rw [← overflowUnits_cast] at h
  rw [fadd_overflow ha hb (by omega), decide_eq_false (by omega)]
  rfl

theorem fadd_overflow_neg (h : fInt a + fInt b < -((2 ^ 25 - 1) * 2 ^ 252)) : fadd a b = 0xFF800000 := by
  rw [← overflowUnits_cast] at h
  rw [fadd_overflow ha hb (by omega), decide_eq_true (by omega)]
  rfl

theorem fmul_exact_zero (h : fInt a * fInt b = 0) : fmul a b = pack (fSign a != fSign b) 0 := by
  have hunits : fScaled a * fScaled b = 0 := by
    rw [← natAbs_fInt, ← natAbs_fInt, ← Int.natAbs_mul, h, Int.natAbs_zero]
  rw [fmul_of_isFinite ha hb, hunits, roundMag_zero]

theorem fdiv_exact_zero (hzero : fInt a = 0) (hne : fInt b ≠ 0) : fdiv a b = pack (fSign a != fSign b) 0 := by
  rw [fdiv_of_isFinite ha hb (mt (fInt_eq_zero_iff b).2 hne), (fInt_eq_zero_iff a).1 hzero, Nat.zero_mul, roundMag_zero]

theorem fmul_overflow (h : (2 ^ 25 - 1) * 2 ^ 401 < |fInt a * fInt b|) : fmul a b = fInf (fSign a != fSign b) := by
  rw [abs_fInt_mul_fInt, ← overflowUnits_mul_cast] at h
  have hover := (roundMag_eq_infMagnitude_iff _ (Nat.two_pow_pos 149)).2 (Int.ofNat_lt.1 h).le
  rw [fmul_of_isFinite ha hb, hover, fInf]

theorem fdiv_overflow (hne : fInt b ≠ 0) (h : (2 ^ 25 - 1) * 2 ^ 252 * |fInt b| < |fInt a * 2 ^ 149|) :
    fdiv a b = fInf (fSign a != fSign b) := by
  have hunits : fScaled b ≠ 0 := mt (fInt_eq_zero_iff b).2 hne
  rw [abs_fInt_mul_two_pow, overflowUnits_mul_abs_fInt] at h
  have hover := (roundMag_eq_infMagnitude_iff _ (Nat.pos_of_ne_zero hunits)).2 (Int.ofNat_lt.1 h).le
  rw [fdiv_of_isFinite ha hb hunits, hover, fInf]

end

/-- Negating gives `-0.0` only for `+0.0`. -/
theorem eq_zero_of_fneg {b : F32} (h : fneg b = 0x80000000) : b = 0x00000000 := by
  rw [← fneg_fneg b, h]
  decide

/-- Settles O56: each row of the table is one lemma above, for both signs; a difference is a sum with the negated operand. -/
theorem specialOperandsGiveTheTabledResults : Obligations.SpecialOperandsGiveTheTabledResults := by
  refine ⟨fun a b h => nan_operand h, fun i hi => ?invalid, fun x hx y hy => ?zeroByZero, fun x hx y hy => ?infByInf,
    fun x hx => ⟨fun hne z hz => ?byZero, fun i hi => ?byInf⟩, fun i hi => ?infinity, fun a b => ?sign,
    by decide, fun a b ha hb => ?finite⟩
  case invalid =>
    have hinf := isInf_of_mem hi
    exact ⟨fadd_inf_neg hinf, fsub_inf_self hinf, fun z hz =>
      ⟨fmul_zero_inf hinf (isZero_of_mem hz), (fmul_comm i z).trans (fmul_zero_inf hinf (isZero_of_mem hz))⟩⟩
  case zeroByZero => exact fdiv_zero_zero (isZero_of_mem hx) (isZero_of_mem hy)
  case infByInf => exact fdiv_inf_inf (isInf_of_mem hx) (isInf_of_mem hy)
  case byZero =>
    rw [infOfSigns]
    exact fdiv_finite_zero hx hne (isZero_of_mem hz)
  case byInf =>
    rw [zeroOfSigns]
    exact fdiv_finite_inf (isInf_of_mem hi) hx
  case infinity =>
    have hinf := isInf_of_mem hi
    refine ⟨fadd_inf_self hinf, fsub_inf_neg hinf, fun j hj => ?_, fun x hx => ⟨fadd_inf_finite hinf hx,
      fadd_finite_inf hinf hx, fsub_inf_finite hinf hx, fsub_finite_inf hinf hx, ?_, fun hne => ⟨?_, ?_⟩⟩⟩
    · rw [infOfSigns]
      exact fmul_inf_inf hinf (isInf_of_mem hj)
    · rw [infOfSigns]
      exact fdiv_inf_finite hinf hx
    · rw [infOfSigns]
      exact fmul_inf_finite hinf hx hne
    · rw [infOfSigns, fmul_comm]
      exact fmul_inf_finite hinf hx hne
  case sign =>
    exact ⟨fun h => (fSign_fmul h).trans (fSign_xor a b).symm, fun h => (fSign_fdiv h).trans (fSign_xor a b).symm⟩
  case finite =>
    have hb' : isFinite (fneg b) = true := (isFinite_fneg b).trans hb
    rw [infOfSigns, zeroOfSigns, fInt_sub]
    exact ⟨fadd_exact_zero ha hb,
      fun h hnot => fadd_exact_zero ha hb' h fun ⟨hna, hnb⟩ => hnot ⟨hna, eq_zero_of_fneg hnb⟩,
      fmul_exact_zero ha hb, fdiv_exact_zero ha hb, fadd_overflow_pos ha hb, fadd_overflow_neg ha hb,
      fadd_overflow_pos ha hb', fadd_overflow_neg ha hb', fmul_overflow ha hb, fdiv_overflow ha hb⟩

end Sys2Proof.Machine
end

section
/-! Comparisons and the floor (47_numerics.md R143, R145). Both are read off the order key: among finite patterns it orders the
values, and the infinities' keys are its two ends. -/

namespace Sys2Proof.Machine

/-! ### The comparisons (R145) -/

theorem orderKey_lt_iff (a b : F32) : orderKey a < orderKey b ↔ fInt a < fInt b := by
  rw [← not_le, ← not_le, orderKey_le_iff]

theorem orderKey_eq_iff (a b : F32) : orderKey a = orderKey b ↔ fInt a = fInt b := by
  rw [le_antisymm_iff, le_antisymm_iff, orderKey_le_iff, orderKey_le_iff]

section
variable {a b : F32} (ha : isNan a = false) (hb : isNan b = false)
include ha hb

theorem fle_iff_orderKey : fle a b = true ↔ orderKey a ≤ orderKey b := by simp [fle, ha, hb]
theorem flt_iff_orderKey : flt a b = true ↔ orderKey a < orderKey b := by simp [flt, ha, hb]
theorem feq_iff_orderKey : feq a b = true ↔ orderKey a = orderKey b := by simp [feq, ha, hb]

end

theorem compare_nan {a b : F32} (h : isNan a = true ∨ isNan b = true) :
    feq a b = false ∧ flt a b = false ∧ fle a b = false := by
  have hnot : (!isNan a && !isNan b) = false := by
    rcases h with h | h <;> simp [h]
  simp [feq, flt, fle, hnot]

theorem not_nan_of_flt {a b : F32} (h : flt a b = true) : isNan a = false ∧ isNan b = false := by
  simp only [flt, Bool.and_eq_true, Bool.not_eq_true'] at h
  exact h.1

/-- The two infinities are no NaN, and their keys are `infMagnitude` and its negation. -/
theorem posInf_key : isNan 0x7F800000 = false ∧ orderKey 0x7F800000 = infMagnitude := by decide
theorem negInf_key : isNan 0xFF800000 = false ∧ orderKey 0xFF800000 = -infMagnitude := by decide

/-- A pattern is no NaN when its key lies between those of the infinities. -/
theorem isNan_eq_false_iff (a : F32) : isNan a = false ↔ -(infMagnitude : Int) ≤ orderKey a ∧ orderKey a ≤ infMagnitude := by
  have habs := natAbs_orderKey a
  rw [← Bool.not_eq_true, isNan_iff]
  omega

/-- A pattern is finite when its key lies strictly between those of the infinities. -/
theorem isFinite_iff_orderKey (a : F32) :
    isFinite a = true ↔ -(infMagnitude : Int) < orderKey a ∧ orderKey a < infMagnitude := by
  have habs := natAbs_orderKey a
  rw [isFinite_iff]
  omega

/-- Nothing is above `+inf` or below `-inf`. -/
theorem flt_beyond_inf (a : F32) : flt 0x7F800000 a = false ∧ flt a 0xFF800000 = false := by
  obtain ⟨hpos, hposKey⟩ := posInf_key
  obtain ⟨hneg, hnegKey⟩ := negInf_key
  cases hnan : isNan a with
  | true => exact ⟨(compare_nan (.inr hnan)).2.1, (compare_nan (.inl hnan)).2.1⟩
  | false =>
    obtain ⟨hlo, hhi⟩ := (isNan_eq_false_iff a).1 hnan
    rw [← Bool.not_eq_true, ← Bool.not_eq_true, flt_iff_orderKey hpos hnan, flt_iff_orderKey hnan hneg, hposKey, hnegKey]
    omega

/-- A finite value lies strictly between the infinities. -/
theorem compare_finite_inf {a : F32} (ha : isFinite a = true) :
    (flt a 0x7F800000 = true ∧ flt 0xFF800000 a = true) ∧
    (fle 0x7F800000 a = false ∧ fle a 0xFF800000 = false) ∧
    ∀ i ∈ ([0x7F800000, 0xFF800000] : List F32), feq a i = false ∧ feq i a = false := by
  obtain ⟨hpos, hposKey⟩ := posInf_key
  obtain ⟨hneg, hnegKey⟩ := negInf_key
  have hnan := isNan_of_isFinite ha
  obtain ⟨hlo, hhi⟩ := (isFinite_iff_orderKey a).1 ha
  refine ⟨?_, ?_, fun i hi => ?_⟩
  · rw [flt_iff_orderKey hnan hpos, flt_iff_orderKey hneg hnan, hposKey, hnegKey]
    exact ⟨hhi, hlo⟩
  · rw [← Bool.not_eq_true, ← Bool.not_eq_true, fle_iff_orderKey hpos hnan, fle_iff_orderKey hnan hneg, hposKey, hnegKey]
    omega
  · have hkey : (orderKey i).natAbs = infMagnitude := (natAbs_orderKey i).trans ((isInf_iff i).1 (isInf_of_mem hi))
    have hinan := isNan_of_isInf (isInf_of_mem hi)
    rw [← Bool.not_eq_true, ← Bool.not_eq_true, feq_iff_orderKey hnan hinan, feq_iff_orderKey hinan hnan]
    omega

/-- Settles O57: on finite operands the keys compare as the values; the infinities have the two extreme keys. -/
theorem comparisonsFollowTheValues : Obligations.ComparisonsFollowTheValues := by
  intro a b
  obtain ⟨hpos, hposKey⟩ := posInf_key
  obtain ⟨hneg, hnegKey⟩ := negInf_key
  refine ⟨fun ha hb => ?values, compare_nan, fun hnan => ?ends, fun ha => ?finite, fun ha => (compare_finite_inf ha).2.1,
    flt_beyond_inf a, by decide⟩
  case values =>
    have hna := isNan_of_isFinite ha
    have hnb := isNan_of_isFinite hb
    rw [feq_iff_orderKey hna hnb, flt_iff_orderKey hna hnb, fle_iff_orderKey hna hnb]
    exact ⟨orderKey_eq_iff a b, orderKey_lt_iff a b, orderKey_le_iff a b⟩
  case ends =>
    rw [fle_iff_orderKey hnan hpos, fle_iff_orderKey hneg hnan, hposKey, hnegKey]
    exact ((isNan_eq_false_iff a).1 hnan).symm
  case finite =>
    obtain ⟨⟨hlt, hgt⟩, -, heq⟩ := compare_finite_inf ha
    exact ⟨hlt, hgt, heq⟩

/-! ### The floor (R143) -/

theorem roundMag_fScaled {a : F32} (ha : isFinite a = true) : roundMag (fScaled a) 1 = fMagnitude a := by
  rw [fScaled_eq, roundMag_magnitudeUnits ((isFinite_iff a).1 ha).le]

/-- A value of magnitude `2^23` or more is an integer: its least significand bit stands for 1 or more. -/
theorem two_pow_dvd_fScaled {a : F32} (h : 2 ^ 23 * 2 ^ 149 ≤ fScaled a) : 2 ^ 149 ∣ fScaled a := by
  rw [fScaled_eq] at h ⊢
  obtain ⟨k, f, hm, hlo, hhi⟩ := exists_significand (fMagnitude a)
  rw [hm, magnitudeUnits_significand hlo hhi.le] at h ⊢
  have hk : 149 ≤ k := by
    by_contra hlt
    have hpow : 2 ^ k ≤ 2 ^ 148 := Nat.pow_le_pow_right (by decide) (by omega)
    have hprod : f * 2 ^ k < 2 ^ 24 * 2 ^ 148 := Nat.mul_lt_mul_of_lt_of_le hhi hpow (Nat.two_pow_pos 148)
    omega
  exact Dvd.dvd.mul_left (pow_dvd_pow 2 hk) f

/-- The `f32` of an integral value is the value, whatever its magnitude. -/
theorem fInt_i2f_of_exact {a : F32} {n : Int} (ha : isFinite a = true) (h : fInt a = n * 2 ^ 149) :
    isFinite (i2f n) = true ∧ fInt (i2f n) = n * 2 ^ 149 := by
  have hunits : n.natAbs * 2 ^ 149 = fScaled a := by
    rw [← natAbs_fInt, h, Int.natAbs_mul]
    rfl
  have hlt := (isFinite_iff a).1 ha
  have hround : roundMag (n.natAbs * 2 ^ 149) 1 = fMagnitude a := by rw [hunits, roundMag_fScaled ha]
  rw [i2f, hround]
  refine ⟨isFinite_pack hlt _, ?_⟩
  rw [fInt_pack (fMagnitude_lt a), ← fScaled_eq, ← hunits, signedUnits_mul_natCast, signedUnits_decide_natAbs]
  norm_num

/-- The `f32` of a finite value's floor is exact (R143): a value of magnitude `2^23` or more is integral, and a smaller one has a
floor of at most 24 bits. -/
theorem fInt_i2f_floor {a : F32} (ha : isFinite a = true) :
    isFinite (i2f (fInt a / 2 ^ 149)) = true ∧ fInt (i2f (fInt a / 2 ^ 149)) = fInt a / 2 ^ 149 * 2 ^ 149 := by
  have habs := natAbs_fInt a
  by_cases hlarge : 2 ^ 23 * 2 ^ 149 ≤ fScaled a
  · have hdvd : (2 ^ 149 : Int) ∣ fInt a := by
      rw [← Int.dvd_natAbs, habs]
      exact_mod_cast two_pow_dvd_fScaled hlarge
    exact fInt_i2f_of_exact ha (Int.ediv_mul_cancel hdvd).symm
  · have hsmall : (fInt a / 2 ^ 149).natAbs < 2 ^ 24 := by omega
    exact ⟨isFinite_i2f hsmall, fInt_i2f hsmall⟩

theorem ffloor_exact {a : F32} (ha : isFinite a = true) :
    isFinite (ffloor a) = true ∧ fInt (ffloor a) = fInt a / 2 ^ 149 * 2 ^ 149 := by
  cases hzero : isZero a with
  | true =>
    rw [ffloor_of_isZero hzero, (isZero_iff_fInt a).1 hzero]
    exact ⟨ha, rfl⟩
  | false =>
    rw [ffloor_of_isFinite ha hzero]
    exact fInt_i2f_floor ha

theorem ffloor_of_isInf {a : F32} (h : isInf a = true) : ffloor a = a := by
  simp [ffloor, isNan_of_isInf h, h]

/-- A value strictly between two finite ones is finite, and compares with them as a value. -/
theorem between_finite {lo a hi : F32} (hlo : isFinite lo = true) (hhi : isFinite hi = true) (h : flt lo a = true)
    (h' : flt a hi = true) : isFinite a = true ∧ fInt lo < fInt a ∧ fInt a < fInt hi := by
  obtain ⟨hnlo, hna⟩ := not_nan_of_flt h
  obtain ⟨-, hnhi⟩ := not_nan_of_flt h'
  rw [flt_iff_orderKey hnlo hna] at h
  rw [flt_iff_orderKey hna hnhi] at h'
  have hfinite : isFinite a = true :=
    isFinite_of_fle_of_fle hlo hhi ((fle_iff_orderKey hnlo hna).2 h.le) ((fle_iff_orderKey hna hnhi).2 h'.le)
  exact ⟨hfinite, (orderKey_lt_iff lo a).1 h, (orderKey_lt_iff a hi).1 h'⟩

/-- The unit intervals' ends, as values. -/
theorem fInt_zero : fInt 0x00000000 = 0 := by decide
theorem fInt_one : fInt 0x3F800000 = 2 ^ 149 := by decide
theorem fInt_neg_one : fInt 0xBF800000 = -2 ^ 149 := by decide

theorem ffloor_of_floor {a : F32} {n : Int} (ha : isFinite a = true) (hne : fInt a ≠ 0) (hn : fInt a / 2 ^ 149 = n) :
    ffloor a = i2f n := by
  rw [ffloor_of_isFinite ha (Bool.eq_false_iff.2 (mt (isZero_iff_fInt a).1 hne)), hn]

/-- Settles O58: the floor is exact, and in the two unit intervals it is the `f32` of 0 and of -1. -/
theorem floorIsTheLargestIntegerNotAbove : Obligations.FloorIsTheLargestIntegerNotAbove := by
  intro a
  refine ⟨ffloor_exact, ?kept, fun hnan => if_pos hnan, fun hlo hhi => ?positive, fun hlo hhi => ?negative⟩
  case kept =>
    rintro (rfl | rfl | rfl | rfl)
    · exact ffloor_of_isZero (by decide)
    · exact ffloor_of_isZero (by decide)
    · exact ffloor_of_isInf (by decide)
    · exact ffloor_of_isInf (by decide)
  case positive =>
    obtain ⟨hfinite, hpos, hlt⟩ := between_finite (by decide) (by decide) hlo hhi
    rw [fInt_zero] at hpos
    rw [fInt_one] at hlt
    rw [ffloor_of_floor (n := 0) hfinite (by omega) (by omega)]
    decide
  case negative =>
    obtain ⟨hfinite, hgt, hneg⟩ := between_finite (by decide) (by decide) hlo hhi
    rw [fInt_zero] at hneg
    rw [fInt_neg_one] at hgt
    rw [ffloor_of_floor (n := -1) hfinite (by omega) (by omega)]
    decide

end Sys2Proof.Machine
end

section
/-! The two open functions (47_numerics.md R148, R149). On the magnitude pattern each is the open function clamped into its range;
the sign of the argument is kept. -/

namespace Sys2Proof.Machine

/-! ### The order of a sign and a magnitude -/

theorem orderKey_pack {m : Nat} (h : m < 2 ^ 31) (neg : Bool) : orderKey (pack neg m) = signedUnits neg m := by
  rw [orderKey, fSign_pack h, fMagnitude_pack h]
  rfl

theorem orderKey_eq_signedUnits (a : F32) : orderKey a = signedUnits (fSign a) (fMagnitude a) := rfl

/-- A function of the magnitude that keeps the order up to a bound, and keeps zero, keeps the order of signed magnitudes up to that
bound. -/
theorem signedUnits_map_le {g : Nat → Nat} {bound m n : Nat} {p q : Bool} (hzero : g 0 = 0)
    (hmono : ∀ {i j}, i ≤ j → j ≤ bound → g i ≤ g j) (hm : m ≤ bound) (hn : n ≤ bound)
    (h : signedUnits p m ≤ signedUnits q n) : signedUnits p (g m) ≤ signedUnits q (g n) := by
  cases p <;> cases q <;> simp only [signedUnits, if_true, Bool.false_eq_true, if_false] at h ⊢
  case false.false => exact Int.ofNat_le.2 (hmono (Int.ofNat_le.1 h) hn)
  case false.true =>
    obtain ⟨rfl, rfl⟩ : m = 0 ∧ n = 0 := by omega
    simp [hzero]
  case true.false => omega
  case true.true =>
    have := hmono (i := n) (j := m) (by omega) hm
    omega

/-! ### `ATAN` (R148) -/

/-- The magnitude of `ATAN` by the magnitude of a non-NaN argument. -/
def atanPattern (m : Nat) : Nat :=
  if m = 0 then 0
  else if m = infMagnitude then fMagnitude halfPi32
  else max 1 (min (Config.atanMagnitude m) (fMagnitude halfPi32))

theorem fMagnitude_halfPi32 : fMagnitude halfPi32 = 0x3FC90FDB := by decide

theorem atanPattern_zero : atanPattern 0 = 0 := rfl

theorem atanPattern_inf : atanPattern infMagnitude = fMagnitude halfPi32 := by
  rw [atanPattern, if_neg (by decide), if_pos rfl]

theorem atanPattern_le (m : Nat) : atanPattern m ≤ fMagnitude halfPi32 := by
  rw [atanPattern, fMagnitude_halfPi32]
  split_ifs <;> omega

theorem atanPattern_lt (m : Nat) : atanPattern m < 2 ^ 31 :=
  lt_of_le_of_lt (atanPattern_le m) (fMagnitude_lt halfPi32)

theorem atanPattern_pos {m : Nat} (h : m ≠ 0) : 1 ≤ atanPattern m := by
  rw [atanPattern, fMagnitude_halfPi32, if_neg h]
  split_ifs <;> omega

/-- The open function is monotone, and its clamped values lie between those at zero and at infinity (R148 items 2, 4 and 5). -/
theorem atanPattern_mono {m n : Nat} (h : m ≤ n) (hn : n ≤ infMagnitude) : atanPattern m ≤ atanPattern n := by
  by_cases hzero : m = 0
  · rw [hzero, atanPattern_zero]
    exact Nat.zero_le _
  by_cases hinf : n = infMagnitude
  · rw [hinf, atanPattern_inf]
    exact atanPattern_le m
  have hopen : Config.atanMagnitude m ≤ Config.atanMagnitude n := Config.atanMagnitude.monotone h
  rw [atanPattern, atanPattern, if_neg hzero, if_neg (by omega), if_neg (by omega), if_neg hinf]
  omega

/-- `ATAN` of a pattern that is no NaN keeps the sign and acts on the magnitude. -/
theorem atan32_eq_pack {x : F32} (h : isNan x = false) : atan32 x = pack (fSign x) (atanPattern (fMagnitude x)) := by
  rw [atan32, h, if_neg Bool.false_ne_true, atanPattern]
  simp only [isZero_iff, isInf_iff]
  split_ifs with hzero hinf
  · conv_lhs => rw [← pack_fSign_fMagnitude x, hzero]
  · rfl
  · rfl

section
variable {x : F32} (h : isNan x = false)
include h

theorem fMagnitude_le_of_not_nan : fMagnitude x ≤ infMagnitude :=
  Nat.not_lt.1 (mt (isNan_iff x).2 (Bool.eq_false_iff.1 h))

theorem orderKey_atan32 : orderKey (atan32 x) = signedUnits (fSign x) (atanPattern (fMagnitude x)) := by
  rw [atan32_eq_pack h, orderKey_pack (atanPattern_lt _)]

theorem natAbs_orderKey_atan32 : (orderKey (atan32 x)).natAbs ≤ 0x3FC90FDB := by
  rw [orderKey_atan32 h, natAbs_signedUnits, ← fMagnitude_halfPi32]
  exact atanPattern_le _

theorem isNan_atan32 : isNan (atan32 x) = false := by
  have := natAbs_orderKey_atan32 h
  rw [isNan_eq_false_iff, infMagnitude]
  omega

theorem atan32_fneg : atan32 (fneg x) = fneg (atan32 x) := by
  rw [atan32_eq_pack ((isNan_fneg x).trans h), atan32_eq_pack h, fSign_fneg, fMagnitude_fneg, fneg_pack (atanPattern_lt _)]

end

theorem atan32_mono {x y : F32} (hx : isNan x = false) (hy : isNan y = false) (h : fle x y = true) :
    fle (atan32 x) (atan32 y) = true := by
  rw [fle_iff_orderKey (isNan_atan32 hx) (isNan_atan32 hy), orderKey_atan32 hx, orderKey_atan32 hy]
  rw [fle_iff_orderKey hx hy] at h
  exact signedUnits_map_le atanPattern_zero atanPattern_mono (fMagnitude_le_of_not_nan hx) (fMagnitude_le_of_not_nan hy) h

/-- A pattern is above zero when its sign is clear and its magnitude is not 0. -/
theorem flt_zero_iff {x : F32} (h : isNan x = false) : flt 0x00000000 x = true ↔ fSign x = false ∧ fMagnitude x ≠ 0 := by
  have hzero : isNan 0x00000000 = false ∧ orderKey 0x00000000 = 0 := by decide
  rw [flt_iff_orderKey hzero.1 h, hzero.2, orderKey_eq_signedUnits]
  cases fSign x
  · simp [signedUnits]
    omega
  · simp [signedUnits]

theorem atan32_pos {x : F32} (h : flt 0x00000000 x = true) : flt 0x00000000 (atan32 x) = true := by
  have hx := (not_nan_of_flt h).2
  obtain ⟨hsign, hmagnitude⟩ := (flt_zero_iff hx).1 h
  rw [flt_zero_iff (isNan_atan32 hx), atan32_eq_pack hx, fSign_pack (atanPattern_lt _), fMagnitude_pack (atanPattern_lt _)]
  exact ⟨hsign, Nat.ne_of_gt (atanPattern_pos hmagnitude)⟩

theorem atan32_bounded {x : F32} (h : isNan x = false) :
    fle (atan32 x) 0x3FC90FDB = true ∧ fle 0xBFC90FDB (atan32 x) = true := by
  have hupper : isNan 0x3FC90FDB = false ∧ orderKey 0x3FC90FDB = 0x3FC90FDB := by decide
  have hlower : isNan 0xBFC90FDB = false ∧ orderKey 0xBFC90FDB = -0x3FC90FDB := by decide
  have habs := natAbs_orderKey_atan32 h
  have hnan := isNan_atan32 h
  rw [fle_iff_orderKey hnan hupper.1, fle_iff_orderKey hlower.1 hnan, hupper.2, hlower.2]
  omega

/-- Settles O59: `ATAN` is a sign and a monotone magnitude from 0 to that of `HALFPI32`, and its bound is at least its error. -/
theorem atanHasItsStatedProperties : Obligations.AtanHasItsStatedProperties :=
  ⟨rfl, rfl, fun _ => atan32_fneg, fun _ _ => atan32_mono, fun _ => atan32_pos, fun _ => atan32_bounded, rfl, rfl,
    fun _ hnan => if_pos hnan, fun _ => atan_error_le⟩

/-! ### `TAN` (R149) -/

/-- The magnitude of `TAN` on its range. -/
def tanPattern (n : Nat) : Nat := max 1 (min (Config.tanMagnitude n) (infMagnitude - 1))

theorem tanPattern_bounds (n : Nat) : 1 ≤ tanPattern n ∧ tanPattern n < infMagnitude := by
  rw [tanPattern, infMagnitude]
  omega

theorem tanPattern_lt (n : Nat) : tanPattern n < 2 ^ 31 := lt_trans (tanPattern_bounds n).2 (by decide)

theorem tanPattern_mono {m n : Nat} (h : m ≤ n) : tanPattern m ≤ tanPattern n := by
  have hopen : Config.tanMagnitude m ≤ Config.tanMagnitude n := Config.tanMagnitude.monotone h
  rw [tanPattern, tanPattern]
  omega

/-- The range lies below the NaNs. -/
theorem tan32_eq_pack {x : F32} (h : 1 ≤ x.toNat) (h' : x.toNat ≤ tanArgMax) :
    tan32 x = pack false (tanPattern x.toNat) := by
  have hnan : ¬ isNan x = true := by
    rw [tanArgMax] at h'
    rw [isNan_iff, fMagnitude_eq, infMagnitude]
    omega
  rw [tan32, if_neg hnan, if_pos ⟨h, h'⟩, tanPattern]

theorem isFinite_tanPattern (n : Nat) : isFinite (pack false (tanPattern n)) = true :=
  isFinite_pack (tanPattern_bounds n).2 false

/-- The magnitude of `PI32 * f` for a positive finite `f`. -/
theorem fmul_pi32_toNat {f : F32} (hf : isFinite f = true) (hsign : fSign f = false) :
    (fmul 0x40490FDB f).toNat = roundMag (fScaled 0x40490FDB * fScaled f) (2 ^ 149) := by
  have hpi : isFinite 0x40490FDB = true ∧ fSign 0x40490FDB = false := by decide
  rw [fmul_of_isFinite hpi.1 hf, hpi.2, hsign, pack_toNat (roundMag_lt _ _)]
  exact Nat.zero_add _

/-- The product at the two ends of the accepted frequencies, the least value and the greatest below 0.5. -/
theorem roundMag_pi32_least : roundMag (fScaled 0x40490FDB * magnitudeUnits 1) (2 ^ 149) = 3 := by decide +kernel
theorem roundMag_pi32_greatest :
    roundMag (fScaled 0x40490FDB * magnitudeUnits 0x3EFFFFFF) (2 ^ 149) = 0x3FC90FDA := by decide +kernel

/-- Every frequency `SETUP` accepts lies between those two ends, and rounding keeps the order. -/
theorem fmul_pi32_range {f : F32} (hpos : flt 0x00000000 f = true) (hhalf : flt f 0x3F000000 = true) :
    1 ≤ (fmul 0x40490FDB f).toNat ∧ (fmul 0x40490FDB f).toNat ≤ 0x3FC90FDA := by
  have hkey : isNan 0x3F000000 = false ∧ orderKey 0x3F000000 = 0x3F000000 := by decide
  have hnan := (not_nan_of_flt hpos).2
  obtain ⟨hsign, hne⟩ := (flt_zero_iff hnan).1 hpos
  rw [flt_iff_orderKey hnan hkey.1, hkey.2, orderKey_eq_signedUnits, hsign] at hhalf
  have hbelow : fMagnitude f < 0x3F000000 := Int.ofNat_lt.1 hhalf
  have hfinite : isFinite f = true := (isFinite_iff f).2 (lt_trans hbelow (by decide))
  have hunits := magnitudeUnits_strictMono.monotone
  have hleast : magnitudeUnits 1 ≤ fScaled f := fScaled_eq f ▸ hunits (Nat.pos_of_ne_zero hne)
  have hgreatest : fScaled f ≤ magnitudeUnits 0x3EFFFFFF := fScaled_eq f ▸ hunits (Nat.le_sub_one_of_lt hbelow)
  have hlo := roundMag_mono (Nat.two_pow_pos 149) (Nat.mul_le_mul_left (fScaled 0x40490FDB) hleast)
  have hhi := roundMag_mono (Nat.two_pow_pos 149) (Nat.mul_le_mul_left (fScaled 0x40490FDB) hgreatest)
  rw [roundMag_pi32_least] at hlo
  rw [roundMag_pi32_greatest] at hhi
  rw [fmul_pi32_toNat hfinite hsign]
  exact ⟨by omega, hhi⟩

/-- Settles O60: on its range `TAN` is a positive finite monotone magnitude, its bound is at least its error, and the arguments
`SETUP` forms lie between the products at the ends of the accepted frequencies. -/
theorem tanHasItsStatedProperties : Obligations.TanHasItsStatedProperties := by
  refine ⟨fun x hlo hhi => ?finite, fun x y hlo hle hhi => ?monotone, fun _ hnan => if_pos hnan,
    fun _ => tan_error_le, fun _ => fmul_pi32_range⟩
  case finite =>
    rw [tan32_eq_pack hlo hhi]
    refine ⟨isFinite_tanPattern _, (flt_zero_iff (isNan_of_isFinite (isFinite_tanPattern _))).2 ?_⟩
    rw [fSign_pack (tanPattern_lt _), fMagnitude_pack (tanPattern_lt _)]
    exact ⟨rfl, Nat.ne_of_gt (tanPattern_bounds _).1⟩
  case monotone =>
    rw [tan32_eq_pack hlo (hle.trans hhi), tan32_eq_pack (hlo.trans hle) hhi,
      fle_iff_orderKey (isNan_of_isFinite (isFinite_tanPattern _)) (isNan_of_isFinite (isFinite_tanPattern _)),
      orderKey_pack (tanPattern_lt _), orderKey_pack (tanPattern_lt _)]
    exact Int.ofNat_le.2 (tanPattern_mono hle)

end Sys2Proof.Machine
end
